-- ==== Sys2Proof/Word.lean ====
section
/-! DEFINITION. The word and the byte of SDP-1 (`spec/00_scope.md` R7, R8). Nothing else: every
operation on words stands in a file that names the rule it follows. -/

namespace Sys2Proof

/-- A word is 32 bits, bit 0 the least significant (R7). A binary32 datum is carried as a word (R8). -/
abbrev Word := BitVec 32

/-- A byte of the command serialisation (R63). The block itself is not byte addressable. -/
abbrev Byte := BitVec 8

end Sys2Proof
end

