-- ==== Sys2Proof/Config.lean ====
section
/-! DEFINITION. What an implementation of SDP-1 fixes (`spec/00_scope.md` R6): the OPEN parameters,
and the free values behind the five configuration functions of `spec/40_numerics.md` R122 to R126. -/

namespace Sys2Proof.Config

/-- The OPEN parameters of R6 that are plain data: the four instance counts, the cubic coefficient of
`fn.tanhf` and the lower clamp of `fn.l2a`. `Params.accepted` (WellFormed.lean) says which values the
model refuses (U9, U12 of `spec/93_implementation_defined.md`). -/
structure Params where
  nlin : Nat
  nlag : Nat
  nosc : Nat
  nnz : Nat
  tanhA : Word
  ampEps : Word
deriving DecidableEq, Repr

/-- DESIGN CHOICE (log entry 1): four instances of every unit, the counts under which
`spec/95_test_vectors.md` states its vectors; R6 leaves the counts open. TANH_A and AMP_EPS stand at
the default values of R6. -/
def defaultParams : Params :=
  { nlin := 4, nlag := 4, nosc := 4, nnz := 4,
    tanhA := 0x3F2AAAAB#32, ampEps := 0x2EDBE6FF#32 }

/-! The configuration functions are faithful (R122 to R126): a result is one of the two binary32
values that bracket the exact one. Which of the two, the spec leaves to the implementation (D25,
U10), so each choice is an opaque constant without a body and nothing can be proved of it. The
functions themselves stand in Machine/Elementary.lean. Log entry 3. -/

/-- `fcos` takes the upper of its two candidates, for the argument's magnitude (so `fcos` is even). -/
opaque cosRoundsUp : Word → Bool

/-- `fsin` takes the candidate of larger magnitude, for the argument's magnitude (so `fsin` is odd). -/
opaque sinRoundsUp : Word → Bool

/-- A zero result of `fsin` at an argument that is no zero, which only `+2^-149` and `-2^-149` can have,
takes the sign opposite to the exact sine's. DESIGN CHOICE (log entry 3): R123 does not fix which zero
the lower bracket is, so its sign is a free value too, the same for both arguments up to Sin-Odd. -/
opaque sinZeroFlips : Bool

/-- Among the arguments whose lower candidate is the given word, `flog2` takes the upper candidate
from this argument on (as an order key), so that it is monotone. -/
opaque log2Threshold : Word → Int

/-- As `log2Threshold`, for `fexp2`. -/
opaque exp2Threshold : Word → Int

/-- As `log2Threshold`, for `fcbrt` and magnitudes. -/
opaque cbrtThreshold : Word → Int

end Sys2Proof.Config
end

