-- ==== Sys2Proof/Machine/Float.lean ====
section
/-! DEFINITION. The binary32 format and the arithmetic primitives of `spec/40_numerics.md` R110 to
R121, R127 and R129.

Every finite binary32 value is a whole number of units of 2^-149 (R110), so a primitive computes its
exact result as a ratio of natural numbers of units and rounds that once (R112). `mag` is the word
without its sign bit; on magnitudes the order of the values is the order of the numbers. -/

namespace Sys2Proof.Machine

/-! ### The format (R110) -/

/-- The sign bit `s` (R110). -/
def signBit (a : Word) : Bool := a.msb

/-- The word without its sign bit, as a number (exponent and fraction fields). -/
def mag (a : Word) : Nat := a.toNat % 2 ^ 31

/-- The magnitude of an infinity: exponent field 255, fraction 0 (R110). -/
def infMag : Nat := 0x7F800000

/-- A word from its sign and its magnitude. -/
def pack (neg : Bool) (m : Nat) : Word :=
  BitVec.ofNat 32 (m + if neg then 2 ^ 31 else 0)

/-- Exponent field 255, fraction not 0 (R110). -/
def isNaN (a : Word) : Bool := decide (infMag < mag a)

/-- Exponent field 255, fraction 0 (R110). -/
def isInf (a : Word) : Bool := decide (mag a = infMag)

/-- `+0` or `-0` (R110). -/
def isZero (a : Word) : Bool := decide (mag a = 0)

/-- Neither an infinity nor a NaN (R110). -/
def isFinite (a : Word) : Bool := decide (mag a < infMag)

/-- The value of a finite magnitude in units of 2^-149 (R110): `f` for a subnormal,
`(2^23 + f) * 2^(e-1)` for a normal number. -/
def unitsOfMag (m : Nat) : Nat :=
  if m < 2 ^ 23 then m else (2 ^ 23 + m % 2 ^ 23) * 2 ^ (m / 2 ^ 23 - 1)

/-- The value of a finite word in units of 2^-149, signed. -/
def units (a : Word) : Int :=
  if signBit a then -(unitsOfMag (mag a) : Int) else (unitsOfMag (mag a) : Int)

/-! ### Constants (R129, R8) -/

/-- The canonical quiet NaN (R113). -/
def cNaN : Word := 0x7FC00000#32
/-- `+0`. -/
def posZero : Word := 0x00000000#32
/-- `-0`. -/
def negZero : Word := 0x80000000#32
/-- `+inf`. -/
def posInf : Word := 0x7F800000#32
/-- `-inf`. -/
def negInf : Word := 0xFF800000#32
/-- `1.0` (R129). -/
def one : Word := 0x3F800000#32
/-- `-1.0` (R129). -/
def minusOne : Word := 0xBF800000#32
/-- `2.0` (R129). -/
def two : Word := 0x40000000#32
/-- `18.0` (R129). -/
def eighteen : Word := 0x41900000#32
/-- `-192.0` (R129), the lower bound of `fn.a2db`. -/
def dbLow : Word := 0xC3400000#32
/-- `96.0` (R129), the upper bound of `fn.a2db`. -/
def dbHigh : Word := 0x42C00000#32
/-- FLUSH_THR, binary32 nearest to 1e-30 (R6, R129). -/
def flushThr : Word := 0x0DA24260#32
/-- TANHP_A, -1/3 (R129). -/
def tanhpA : Word := 0xBEAAAAAB#32
/-- TANHP_B, 2/15 (R129). -/
def tanhpB : Word := 0x3E088889#32
/-- `2^-23` (R129), the factor of `scale23`. -/
def twoPowMinus23 : Word := 0x34000000#32

/-! ### Rounding (R112) -/

/-- The exponent (in units) of the last place of a binary32 value whose integer part is `q` units:
24 significant bits, and whole units for subnormals. -/
def lastPlace (q : Nat) : Nat := Nat.log2 q - 23

/-- The magnitude nearest to `num/den` units, ties to even, the infinity where the rounded value
exceeds the largest finite magnitude (R112). A magnitude with last place `j` and significand `t` is
the number `j * 2^23 + t`, also where rounding carries into the next exponent. -/
def roundNearest (num den : Nat) : Nat :=
  let j := lastPlace (num / den)
  let d := den * 2 ^ j
  let t := num / d
  let r := num % d
  let up := decide (d < 2 * r) || (decide (2 * r = d) && decide (t % 2 = 1))
  min (j * 2 ^ 23 + t + if up then 1 else 0) infMag

/-- The largest magnitude not above `num/den` units (the lower bracket of R122 to R126). -/
def roundDown (num den : Nat) : Nat :=
  let j := lastPlace (num / den)
  min (j * 2 ^ 23 + num / (den * 2 ^ j)) (infMag - 1)

/-- The least magnitude not below `num/den` units (the upper bracket of R122 to R126). -/
def roundUp (num den : Nat) : Nat :=
  let j := lastPlace (num / den)
  let d := den * 2 ^ j
  min (j * 2 ^ 23 + num / d + if num % d = 0 then 0 else 1) infMag

/-! ### Bit-level operations (R120) -/

/-- `fabs(a) = a & 0x7FFFFFFF` (R120). -/
def fabs (a : Word) : Word := a &&& 0x7FFFFFFF#32

/-- `a` with its sign bit inverted (R116). -/
def fneg (a : Word) : Word := a ^^^ 0x80000000#32

/-- `copysign(m, s) = (m & 0x7FFFFFFF) | (s & 0x80000000)` (R120). -/
def copysign (m s : Word) : Word := (m &&& 0x7FFFFFFF#32) ||| (s &&& 0x80000000#32)

/-! ### Arithmetic (R116 to R119) -/

/-- `fadd` (R116). -/
def fadd (a b : Word) : Word :=
  if isNaN a || isNaN b then cNaN
  else if isInf a then
    if isInf b && signBit a != signBit b then cNaN else a
  else if isInf b then b
  else
    let x := units a + units b
    if x = 0 then
      if signBit a && signBit b then negZero else posZero
    else pack (decide (x < 0)) (roundNearest x.natAbs 1)

/-- `fsub(a, b) = fadd(a, b')`, `b'` being `b` with its sign bit inverted (R116). -/
def fsub (a b : Word) : Word := fadd a (fneg b)

/-- `fmul` (R117). -/
def fmul (a b : Word) : Word :=
  if isNaN a || isNaN b then cNaN
  else if (isInf a && isZero b) || (isZero a && isInf b) then cNaN
  else if isInf a || isInf b then pack (signBit a != signBit b) infMag
  else
    pack (signBit a != signBit b)
      (roundNearest (unitsOfMag (mag a) * unitsOfMag (mag b)) (2 ^ 149))

/-- `fdiv` (R118). -/
def fdiv (a b : Word) : Word :=
  if isNaN a || isNaN b then cNaN
  else if (isZero a && isZero b) || (isInf a && isInf b) then cNaN
  else if isInf a || isZero b then pack (signBit a != signBit b) infMag
  else if isInf b then pack (signBit a != signBit b) 0
  else
    pack (signBit a != signBit b)
      (roundNearest (unitsOfMag (mag a) * 2 ^ 149) (unitsOfMag (mag b)))

/-- The integer square root, one result bit per unit of fuel. -/
def isqrt : Nat → Nat → Nat
  | 0, _ => 0
  | fuel + 1, n =>
    let r := 2 * isqrt fuel (n / 4)
    if (r + 1) * (r + 1) ≤ n then r + 1 else r

/-- `fsqrt` (R119). A value of `k` units has the root `sqrt(k * 2^149)` units, of at least 75 integer
bits; where that is not whole, a half unit stands for the rest, which no rounding boundary separates
from it. -/
def fsqrt (a : Word) : Word :=
  if isNaN a then cNaN
  else if isZero a then a
  else if signBit a then cNaN
  else if isInf a then a
  else
    let n := unitsOfMag (mag a) * 2 ^ 149
    let s := isqrt 214 n
    pack false (roundNearest (2 * s + if s * s = n then 0 else 1) 2)

/-! ### Comparisons (R121) -/

/-- The order key of a word that is no NaN: the two zeros have one key, the infinities are the ends. -/
def orderKey (a : Word) : Int := if signBit a then -(mag a : Int) else (mag a : Int)

/-- `flt` (R121): false where an operand is a NaN. -/
def flt (a b : Word) : Bool := !isNaN a && !isNaN b && decide (orderKey a < orderKey b)

/-- `fle` (R121): false where an operand is a NaN. -/
def fle (a b : Word) : Bool := !isNaN a && !isNaN b && decide (orderKey a ≤ orderKey b)

/-- `fgt(a, b) = flt(b, a)` (R121). -/
def fgt (a b : Word) : Bool := flt b a

/-- `fge(a, b) = fle(b, a)` (R121). -/
def fge (a b : Word) : Bool := fle b a

/-! ### Conversions (R127) -/

/-- `i2f24(v)`: the binary32 value equal to a signed 24-bit integer (R127). -/
def i2f24 (v : BitVec 24) : Word :=
  pack (decide (v.toInt < 0)) (roundNearest (v.toInt.natAbs * 2 ^ 149) 1)

/-- `scale23(v) = fmul(i2f24(v), 2^-23)` (R127). -/
def scale23 (v : BitVec 24) : Word := fmul (i2f24 v) twoPowMinus23

/-- The magnitude of the whole number `k` (used for exact results of `flog2`, R124). -/
def wholeMag (k : Nat) : Nat := roundNearest (k * 2 ^ 149) 1

end Sys2Proof.Machine
end

