-- ==== Sys2Proof/Syntax.lean ====
section
/-! DEFINITION. The 42 commands of SDP-1, one constructor per row of `spec/opcode_table.json`
(`spec/30_encoding.md` R84). `n` is the instance index `CMD[15:8]`; the other operand is `ARG` as its
kind reads it (R81): a whole word for the kinds F and W, `ARG[0]` for the kind B, nothing for the
kind N. -/

namespace Sys2Proof

/-- A command of SDP-1 with its operands. -/
inductive Instr where
  -- UNIT 0, SYS
  | sysNop
  | sysStatus
  | sysSeed (w : Word)
  | sysPrbs
  -- UNIT 1, LIN
  | linInit (n : BitVec 8)
  | linSetblk (n : BitVec 8) (len : Word)
  | linCfg (n : BitVec 8) (skip : Bool)
  | linSettgt (n : BitVec 8) (v : Word)
  | linAdv (n : BitVec 8)
  | linSnap (n : BitVec 8)
  | linGetcur (n : BitVec 8)
  | linGettgt (n : BitVec 8)
  -- UNIT 2, LAG
  | lagInit (n : BitVec 8)
  | lagSetk (n : BitVec 8) (k : Word)
  | lagSettgt (n : BitVec 8) (v : Word)
  | lagSetimm (n : BitVec 8) (v : Word)
  | lagAdv (n : BitVec 8)
  | lagSnap (n : BitVec 8)
  | lagGetcur (n : BitVec 8)
  | lagGettgt (n : BitVec 8)
  -- UNIT 3, OSC
  | oscInit (n : BitVec 8)
  | oscSetrate (n : BitVec 8) (omega : Word)
  | oscSetphase (n : BitVec 8) (phi : Word)
  | oscAdv (n : BitVec 8)
  | oscGetr (n : BitVec 8)
  | oscGeti (n : BitVec 8)
  -- UNIT 4, NZ
  | nzInit (n : BitVec 8)
  | nzRst (n : BitVec 8)
  | nzSetcorr (n : BitVec 8) (rho : Word)
  | nzStep1 (n : BitVec 8)
  | nzStep1x (n : BitVec 8) (u : Word)
  | nzStep2 (n : BitVec 8)
  | nzStep2x (n : BitVec 8) (u : Word)
  -- UNIT 5, FN
  | fnFlush (x : Word)
  | fnClamp01 (x : Word)
  | fnClamp1bp (x : Word)
  | fnTanhf (x : Word)
  | fnTanhp (x : Word)
  | fnA2l (x : Word)
  | fnL2a (x : Word)
  | fnA2db (x : Word)
  | fnDb2a (x : Word)
deriving DecidableEq, Repr

end Sys2Proof
end

