-- ==== Sys2Proof/WellFormed.lean ====
section
/-! DEFINITION. What the spec asks of a configuration (`spec/93_implementation_defined.md` U9, U12)
and of a command's instance index (`spec/30_encoding.md` R85, R90 clause 4). -/

namespace Sys2Proof

/-- An instance count is from 1 to 256 (R6, U12). -/
def Config.countOk (n : Nat) : Bool := decide (1 ≤ n) && decide (n ≤ 256)

/-- The configurations a model accepts: the counts in range (U12) and AMP_EPS positive and not a NaN,
`flt(+0, AMP_EPS)` (U9, R212). -/
def Config.Params.accepted (p : Config.Params) : Bool :=
  Config.countOk p.nlin && Config.countOk p.nlag && Config.countOk p.nosc && Config.countOk p.nnz &&
    Machine.flt Machine.posZero p.ampEps

/-- The instance counts a legality check needs (R85). -/
structure Counts where
  nlin : Nat
  nlag : Nat
  nosc : Nat
  nnz : Nat
deriving DecidableEq, Repr

/-- The units of the opcode map (R84). -/
inductive UnitKind where
  | sys | lin | lag | osc | nz | fn
deriving DecidableEq, Repr

/-- How many instances a unit has; SYS and FN have none and take no index. -/
def Counts.of (c : Counts) : UnitKind → Nat
  | .sys => 0
  | .lin => c.nlin
  | .lag => c.nlag
  | .osc => c.nosc
  | .nz => c.nnz
  | .fn => 0

/-- The unit a command goes to (R84). -/
def Instr.unit : Instr → UnitKind
  | .sysNop | .sysStatus | .sysSeed _ | .sysPrbs => .sys
  | .linInit _ | .linSetblk _ _ | .linCfg _ _ | .linSettgt _ _ => .lin
  | .linAdv _ | .linSnap _ | .linGetcur _ | .linGettgt _ => .lin
  | .lagInit _ | .lagSetk _ _ | .lagSettgt _ _ | .lagSetimm _ _ => .lag
  | .lagAdv _ | .lagSnap _ | .lagGetcur _ | .lagGettgt _ => .lag
  | .oscInit _ | .oscSetrate _ _ | .oscSetphase _ _ => .osc
  | .oscAdv _ | .oscGetr _ | .oscGeti _ => .osc
  | .nzInit _ | .nzRst _ | .nzSetcorr _ _ => .nz
  | .nzStep1 _ | .nzStep1x _ _ | .nzStep2 _ | .nzStep2x _ _ => .nz
  | .fnFlush _ | .fnClamp01 _ | .fnClamp1bp _ | .fnTanhf _ | .fnTanhp _ => .fn
  | .fnA2l _ | .fnL2a _ | .fnA2db _ | .fnDb2a _ => .fn

/-- The instance index of a command whose INST column is `idx` (R84). -/
def Instr.inst? : Instr → Option (BitVec 8)
  | .sysNop | .sysStatus | .sysSeed _ | .sysPrbs => none
  | .linInit n | .linSetblk n _ | .linCfg n _ | .linSettgt n _ => some n
  | .linAdv n | .linSnap n | .linGetcur n | .linGettgt n => some n
  | .lagInit n | .lagSetk n _ | .lagSettgt n _ | .lagSetimm n _ => some n
  | .lagAdv n | .lagSnap n | .lagGetcur n | .lagGettgt n => some n
  | .oscInit n | .oscSetrate n _ | .oscSetphase n _ => some n
  | .oscAdv n | .oscGetr n | .oscGeti n => some n
  | .nzInit n | .nzRst n | .nzSetcorr n _ => some n
  | .nzStep1 n | .nzStep1x n _ | .nzStep2 n | .nzStep2x n _ => some n
  | .fnFlush _ | .fnClamp01 _ | .fnClamp1bp _ | .fnTanhf _ | .fnTanhp _ => none
  | .fnA2l _ | .fnL2a _ | .fnA2db _ | .fnDb2a _ => none

/-- A command is well formed for a block with these counts: its instance index, where it has one, is
below the count of its unit (R85, R90 clause 4). -/
def Instr.wellFormed (c : Counts) (i : Instr) : Bool :=
  match i.inst? with
  | none => true
  | some n => decide (n.toNat < c.of i.unit)

end Sys2Proof
end

