-- ==== Sys2Proof/Decode.lean ====
section
/-! DEFINITION. The command encoding (`spec/30_encoding.md`): the fields of `CMD` (R80), the operand
kinds (R81), the decoder (R84, R85, R90, R91) with its refusals by name, the encoder, and the byte
serialisation of a command (`spec/20_memory.md` R63, R64). -/

namespace Sys2Proof

/-! ### The fields of a command word (R80) -/

/-- `CMD[31:16]`, RSV, reserved. -/
def rsvField (cmd : Word) : BitVec 16 := cmd.extractLsb' 16 16

/-- `CMD[15:8]`, INST, the instance index. -/
def instField (cmd : Word) : BitVec 8 := cmd.extractLsb' 8 8

/-- `CMD[7:0]`, the opcode byte OP, UNIT in its high half and FUNC in its low half. -/
def opField (cmd : Word) : BitVec 8 := cmd.extractLsb' 0 8

/-- A command word from its instance index and its opcode byte, RSV zero (R80). -/
def cmdWord (n op : BitVec 8) : Word := 0#16 ++ n ++ op

/-! ### The operand kinds of `ARG` (R81) -/

/-- Kind B: `ARG[0]` is the flag, `ARG[31:1]` are ignored. -/
def argFlag (arg : Word) : Bool := arg.getLsbD 0

/-- The `ARG` a kind B command is assembled with: 0 or 1 (R93). -/
def flagArg (b : Bool) : Word := if b then 1#32 else 0#32

/-! ### The decoder (R91) -/

/-- Why bits are no command, by the clause of R90; `partialRecord` is R64's, bytes that are not one
whole `(CMD, ARG)` record. The remaining clause, an instance index at or above the unit's count, is
`Instr.wellFormed`'s: it needs the counts. -/
inductive DecodeError where
  | reservedNotZero
  | unassignedOp
  | instNotZero
  | instOutOfRange
  | partialRecord
deriving DecidableEq, Repr

/-- A command whose INST column is `0` (R84, R90 clause 3). -/
def decodeGlobal (n : BitVec 8) (i : Instr) : Except DecodeError Instr :=
  if n = 0#8 then .ok i else .error .instNotZero

/-- The command an opcode byte names, with its operands (R84). -/
def decodeOp (op n : BitVec 8) (arg : Word) : Except DecodeError Instr :=
  match op.toNat with
  | 0x00 => decodeGlobal n .sysNop
  | 0x01 => decodeGlobal n .sysStatus
  | 0x02 => decodeGlobal n (.sysSeed arg)
  | 0x03 => decodeGlobal n .sysPrbs
  | 0x10 => .ok (.linInit n)
  | 0x11 => .ok (.linSetblk n arg)
  | 0x12 => .ok (.linCfg n (argFlag arg))
  | 0x13 => .ok (.linSettgt n arg)
  | 0x14 => .ok (.linAdv n)
  | 0x15 => .ok (.linSnap n)
  | 0x16 => .ok (.linGetcur n)
  | 0x17 => .ok (.linGettgt n)
  | 0x20 => .ok (.lagInit n)
  | 0x21 => .ok (.lagSetk n arg)
  | 0x22 => .ok (.lagSettgt n arg)
  | 0x23 => .ok (.lagSetimm n arg)
  | 0x24 => .ok (.lagAdv n)
  | 0x25 => .ok (.lagSnap n)
  | 0x26 => .ok (.lagGetcur n)
  | 0x27 => .ok (.lagGettgt n)
  | 0x30 => .ok (.oscInit n)
  | 0x31 => .ok (.oscSetrate n arg)
  | 0x32 => .ok (.oscSetphase n arg)
  | 0x33 => .ok (.oscAdv n)
  | 0x34 => .ok (.oscGetr n)
  | 0x35 => .ok (.oscGeti n)
  | 0x40 => .ok (.nzInit n)
  | 0x41 => .ok (.nzRst n)
  | 0x42 => .ok (.nzSetcorr n arg)
  | 0x43 => .ok (.nzStep1 n)
  | 0x44 => .ok (.nzStep1x n arg)
  | 0x45 => .ok (.nzStep2 n)
  | 0x46 => .ok (.nzStep2x n arg)
  | 0x50 => decodeGlobal n (.fnFlush arg)
  | 0x51 => decodeGlobal n (.fnClamp01 arg)
  | 0x52 => decodeGlobal n (.fnClamp1bp arg)
  | 0x53 => decodeGlobal n (.fnTanhf arg)
  | 0x54 => decodeGlobal n (.fnTanhp arg)
  | 0x55 => decodeGlobal n (.fnA2l arg)
  | 0x56 => decodeGlobal n (.fnL2a arg)
  | 0x57 => decodeGlobal n (.fnA2db arg)
  | 0x58 => decodeGlobal n (.fnDb2a arg)
  | _ => .error .unassignedOp

/-- The command a pair `(CMD, ARG)` selects by match and mask (R85): the decode procedure of R91
without the count check, which reads the state and stands in `decodeFor` and in every meaning. -/
def decode (cmd arg : Word) : Except DecodeError Instr :=
  if rsvField cmd = 0#16 then decodeOp (opField cmd) (instField cmd) arg
  else .error .reservedNotZero

/-- The decode procedure of R91 whole, for a block with the given instance counts. -/
def decodeFor (c : Counts) (cmd arg : Word) : Except DecodeError Instr :=
  match decode cmd arg with
  | .error e => .error e
  | .ok i => if i.wellFormed c then .ok i else .error .instOutOfRange

/-! ### The encoder (R80, R84, R93) -/

/-- The opcode byte of a command (R84). -/
def Instr.op : Instr → BitVec 8
  | .sysNop => 0x00#8
  | .sysStatus => 0x01#8
  | .sysSeed _ => 0x02#8
  | .sysPrbs => 0x03#8
  | .linInit _ => 0x10#8
  | .linSetblk _ _ => 0x11#8
  | .linCfg _ _ => 0x12#8
  | .linSettgt _ _ => 0x13#8
  | .linAdv _ => 0x14#8
  | .linSnap _ => 0x15#8
  | .linGetcur _ => 0x16#8
  | .linGettgt _ => 0x17#8
  | .lagInit _ => 0x20#8
  | .lagSetk _ _ => 0x21#8
  | .lagSettgt _ _ => 0x22#8
  | .lagSetimm _ _ => 0x23#8
  | .lagAdv _ => 0x24#8
  | .lagSnap _ => 0x25#8
  | .lagGetcur _ => 0x26#8
  | .lagGettgt _ => 0x27#8
  | .oscInit _ => 0x30#8
  | .oscSetrate _ _ => 0x31#8
  | .oscSetphase _ _ => 0x32#8
  | .oscAdv _ => 0x33#8
  | .oscGetr _ => 0x34#8
  | .oscGeti _ => 0x35#8
  | .nzInit _ => 0x40#8
  | .nzRst _ => 0x41#8
  | .nzSetcorr _ _ => 0x42#8
  | .nzStep1 _ => 0x43#8
  | .nzStep1x _ _ => 0x44#8
  | .nzStep2 _ => 0x45#8
  | .nzStep2x _ _ => 0x46#8
  | .fnFlush _ => 0x50#8
  | .fnClamp01 _ => 0x51#8
  | .fnClamp1bp _ => 0x52#8
  | .fnTanhf _ => 0x53#8
  | .fnTanhp _ => 0x54#8
  | .fnA2l _ => 0x55#8
  | .fnL2a _ => 0x56#8
  | .fnA2db _ => 0x57#8
  | .fnDb2a _ => 0x58#8

/-- The `ARG` a command is assembled with: its operand, or zero for the kind N (R81, R93). -/
def Instr.arg : Instr → Word
  | .sysNop | .sysStatus | .sysPrbs => 0#32
  | .sysSeed w => w
  | .linInit _ | .linAdv _ | .linSnap _ | .linGetcur _ | .linGettgt _ => 0#32
  | .linSetblk _ len => len
  | .linCfg _ b => flagArg b
  | .linSettgt _ v => v
  | .lagInit _ | .lagAdv _ | .lagSnap _ | .lagGetcur _ | .lagGettgt _ => 0#32
  | .lagSetk _ k => k
  | .lagSettgt _ v => v
  | .lagSetimm _ v => v
  | .oscInit _ | .oscAdv _ | .oscGetr _ | .oscGeti _ => 0#32
  | .oscSetrate _ w => w
  | .oscSetphase _ p => p
  | .nzInit _ | .nzRst _ | .nzStep1 _ | .nzStep2 _ => 0#32
  | .nzSetcorr _ rho => rho
  | .nzStep1x _ u => u
  | .nzStep2x _ u => u
  | .fnFlush x | .fnClamp01 x | .fnClamp1bp x | .fnTanhf x | .fnTanhp x => x
  | .fnA2l x | .fnL2a x | .fnA2db x | .fnDb2a x => x

/-- The command word of a command: RSV zero, INST its index or zero, OP its opcode byte (R80). -/
def Instr.cmd (i : Instr) : Word := cmdWord (i.inst?.getD 0#8) i.op

/-- The pair `(CMD, ARG)` of a command. -/
def encode (i : Instr) : Word × Word := (i.cmd, i.arg)

/-- The mask of a command's row (R85): the INST field is free where it is an index. -/
def Instr.mask (i : Instr) : Word :=
  match i.inst? with
  | none => 0xFFFFFFFF#32
  | some _ => 0xFFFF00FF#32

/-- The match of a command's row (R85): `zext_32(OP)`. -/
def Instr.matchBits (i : Instr) : Word := i.op.setWidth 32

/-! ### Bytes (R63, R64) -/

/-- A word from its four bytes, least significant first (R63). -/
def wordOfBytes (b0 b1 b2 b3 : Byte) : Word := b3 ++ b2 ++ b1 ++ b0

/-- The four bytes of a word, least significant first (R63). -/
def bytesOfWord (w : Word) : List Byte :=
  [w.extractLsb' 0 8, w.extractLsb' 8 8, w.extractLsb' 16 8, w.extractLsb' 24 8]

/-- The eight bytes of a command: `CMD`, then `ARG` (R63). -/
def bytesOfCommand (cmd arg : Word) : List Byte := bytesOfWord cmd ++ bytesOfWord arg

/-- A stored command sequence, a whole number of 8-byte records (R63, R64); none for any other
number of bytes. -/
def commandsOfBytes : List Byte → Option (List (Word × Word))
  | [] => some []
  | c0 :: c1 :: c2 :: c3 :: a0 :: a1 :: a2 :: a3 :: rest =>
    match commandsOfBytes rest with
    | none => none
    | some cs => some ((wordOfBytes c0 c1 c2 c3, wordOfBytes a0 a1 a2 a3) :: cs)
  | _ => none

/-- The command in one 8-byte record. -/
def decodeBytes (bs : List Byte) : Except DecodeError Instr :=
  match commandsOfBytes bs with
  | some [(cmd, arg)] => decode cmd arg
  | _ => .error .partialRecord

/-- The `(CMD, ARG)` pair whose bits are `w`, of which the opcode table numbers the first `nbits`;
the bits above them are zero. -/
def commandOfTableWord (nbits w : Nat) : Word × Word :=
  let v := w % 2 ^ nbits
  (BitVec.ofNat 32 v, BitVec.ofNat 32 (v / 2 ^ 32))

/-- The instruction the decoder reads from a row's bits, laid out as a record of bytes. -/
def decodeTableWord (nbits w : Nat) : Option Instr :=
  let c := commandOfTableWord nbits w
  (decodeBytes (bytesOfCommand c.1 c.2)).toOption

end Sys2Proof
end

