-- ==== Sys2Proof/Machine/Elementary.lean ====
section
/-! DEFINITION. The configuration functions `fcos fsin flog2 fexp2 fcbrt` of `spec/40_numerics.md`
R122 to R126.

The spec fixes their special values and symmetries and that a finite result is faithful: one of the
two binary32 values that bracket the exact one, or the exact value itself where it is representable;
which of the two is the implementation's (D25). Each function here handles the special values, then
computes the two candidates from an enclosure of the exact value, and lets an opaque constant of
Config choose between them. The enclosures use fixed-point arithmetic with 256 fractional bits; that
they are right and always narrow enough to single out two neighbours is argued in log entry 3
(DEDUCED), not proved, but for `fcbrt`, whose candidates are computed exactly. -/

namespace Sys2Proof.Machine

/-! ### Fixed point -/

/-- The fractional bits of the fixed-point numbers below. -/
def fixBits : Nat := 256

/-- One, in fixed point. -/
def fixOne : Nat := 2 ^ fixBits

/-- The bound on the error of the fixed-point series, 2^-240. -/
def fixSlack : Nat := 2 ^ 16

/-! ### Cosine and sine (R122, R123) -/

/-- The whole part of `(pi/2) * 2^400`. -/
def halfPi400 : Nat :=
  0x1921FB54442D18469898CC51701B839A252049C1114CF98E804177D4C76273644A29410F31C6809BBDF2A33679A7486366056

/-- `1 - z/(a(a+1)) * (1 - z/((a+2)(a+3)) * ...)` with `n` factors, in fixed point. -/
def alternatingSeries (z : Nat) : Nat → Nat → Nat
  | 0, _ => fixOne
  | n + 1, a => fixOne - z * alternatingSeries z n (a + 2) / (fixOne * (a * (a + 1)))

/-- An argument of `u` units as `k * pi/2 + r` with `|r|` at most about `pi/4`: `(k mod 4, r)`, `r` in
fixed point. -/
def reduceAngle (u : Nat) : Nat × Int :=
  let x := u * 2 ^ 251
  let k := (2 * x + halfPi400) / (2 * halfPi400)
  (k % 4, ((x : Int) - (k * halfPi400 : Nat)) / 2 ^ 144)

/-- The cosine of a reduced angle, in fixed point. -/
def cosReduced (r : Int) : Int :=
  (alternatingSeries (r.natAbs * r.natAbs / fixOne) 32 1 : Nat)

/-- The sine of a reduced angle, in fixed point. -/
def sinReduced (r : Int) : Int :=
  r * (alternatingSeries (r.natAbs * r.natAbs / fixOne) 32 2 : Nat) / (fixOne : Int)

/-- An approximation, in fixed point, of the cosine of `u` units, by the quadrant. -/
def cosApprox (u : Nat) : Int :=
  match reduceAngle u with
  | (0, r) => cosReduced r
  | (1, r) => -sinReduced r
  | (2, r) => -cosReduced r
  | (_, r) => sinReduced r

/-- An approximation, in fixed point, of the sine of `u` units, by the quadrant. -/
def sinApprox (u : Nat) : Int :=
  match reduceAngle u with
  | (0, r) => sinReduced r
  | (1, r) => cosReduced r
  | (2, r) => -sinReduced r
  | (_, r) => -cosReduced r

/-- The two candidate magnitudes for a fixed-point approximation of a number between 0 and 1: those
that bracket it with its error, none above 1.0. -/
def unitCandidates (x : Nat) : Nat × Nat :=
  (min (roundDown (x - fixSlack) (2 ^ 107)) (mag one),
    min (roundUp (x + fixSlack) (2 ^ 107)) (mag one))

/-- The two candidate magnitudes of `fcos` at the magnitude `m`. -/
def cosCandidates (m : Nat) : Nat × Nat :=
  unitCandidates (cosApprox (unitsOfMag m)).natAbs

/-- The two candidate magnitudes of `fsin` at the magnitude `m`. Up to 2^-11 the exact sine lies
between the argument and its lower neighbour (`x - x^3/6 < sin x < x`). -/
def sinCandidates (m : Nat) : Nat × Nat :=
  if m ≤ 0x3A000000 then (m - 1, m)
  else unitCandidates (sinApprox (unitsOfMag m)).natAbs

/-- `fcos` (R122). -/
def fcos (x : Word) : Word :=
  if !isFinite x then cNaN
  else if isZero x then one
  else
    let c := cosCandidates (mag x)
    let neg := decide (cosApprox (unitsOfMag (mag x)) < 0)
    if Config.cosRoundsUp (fabs x) != neg then pack neg c.2 else pack neg c.1

/-- `fsin` (R123). Where the lower candidate is a zero (the arguments `+2^-149` and `-2^-149`, whose
brackets are 0 and themselves) R123 does not fix which zero it is: its sign is free, DESIGN CHOICE of
log entry 3. -/
def fsin (x : Word) : Word :=
  if !isFinite x then cNaN
  else if isZero x then x
  else
    let c := sinCandidates (mag x)
    let neg := signBit x != decide (sinApprox (unitsOfMag (mag x)) < 0)
    if Config.sinRoundsUp (fabs x) then pack neg c.2
    else pack (neg != (Config.sinZeroFlips && decide (c.1 = 0))) c.1

/-! ### Binary logarithm (R124) -/

/-- The first bits after the point of the binary logarithm of `y`, a fixed-point number from 1 to 2,
by repeated squaring: a bit is 1 where the square reaches 2. -/
def logBits : Nat → Nat → Nat → Nat
  | 0, _, acc => acc
  | k + 1, y, acc =>
    let s := y * y / fixOne
    if s < 2 * fixOne then logBits k s (2 * acc) else logBits k (s / 2) (2 * acc + 1)

/-- The binary logarithm of `u` units, `u` not 0, as a multiple of 2^-128, rounded down; the exact
value lies from it to two units above it. -/
def logApprox (u : Nat) : Int :=
  ((Nat.log2 u : Int) - 149) * 2 ^ 128
    + (logBits 128 (u * 2 ^ fixBits / 2 ^ Nat.log2 u) 0 : Nat)

/-- The lower and the upper candidate of `flog2` for a positive value of `u` units that is no power
of two. -/
def logCandidates (u : Nat) : Word × Word :=
  let t := logApprox u
  if 0 ≤ t then
    (pack false (roundDown (t.toNat * 2 ^ 21) 1), pack false (roundUp ((t.toNat + 2) * 2 ^ 21) 1))
  else
    (pack true (roundUp (t.natAbs * 2 ^ 21) 1), pack true (roundDown ((t.natAbs - 2) * 2 ^ 21) 1))

/-- `flog2` (R124); a power of two has the whole number as its exact logarithm. -/
def flog2 (x : Word) : Word :=
  if isNaN x then cNaN
  else if isZero x then negInf
  else if signBit x then cNaN
  else if isInf x then posInf
  else
    let u := unitsOfMag (mag x)
    let e : Int := (Nat.log2 u : Int) - 149
    if u = 2 ^ Nat.log2 u then pack (decide (e < 0)) (wholeMag e.natAbs)
    else
      let c := logCandidates u
      if Config.log2Threshold c.1 ≤ orderKey x then c.2 else c.1

/-! ### Powers of two (R125) -/

/-- The whole part of `ln 2 * 2^256`. -/
def lnTwo256 : Nat := 0xB17217F7D1CF79ABC9E3B39803F2F6AF40F343267298B62D8A0D175B8BAAFA2B

/-- `1 + t/a * (1 + t/(a+1) * ...)` with `n` factors, in fixed point. -/
def expSeries (t : Nat) : Nat → Nat → Nat
  | 0, _ => fixOne
  | n + 1, a => fixOne + t * expSeries t n (a + 1) / (fixOne * a)

/-- The two candidate magnitudes of `fexp2` at `v` units, from -150 to 128 and not whole: with whole
part `n` and fraction `f` the value is `2^n * 2^f`. -/
def expCandidates (v : Int) : Nat × Nat :=
  let n := v / 2 ^ 149
  let f := (v % 2 ^ 149).toNat * 2 ^ 107
  let w := expSeries (f * lnTwo256 / fixOne) 60 1
  let scale := 2 ^ (n + 150).toNat
  (roundDown ((w - fixSlack) * scale) (2 * fixOne), roundUp ((w + fixSlack) * scale) (2 * fixOne))

/-- `fexp2` (R125); a whole argument has an exact power as its result. -/
def fexp2 (x : Word) : Word :=
  if isNaN x then cNaN
  else if isInf x then (if signBit x then posZero else posInf)
  else
    let v := units x
    if 128 * 2 ^ 149 ≤ v then posInf
    else if v ≤ -(150 * 2 ^ 149) then posZero
    else if v % 2 ^ 149 = 0 then pack false (roundNearest (2 ^ (v / 2 ^ 149 + 149).toNat) 1)
    else
      let c := expCandidates v
      if Config.exp2Threshold (pack false c.1) ≤ orderKey x then pack false c.2
      else pack false c.1

/-! ### Cube root (R126) -/

/-- The integer cube root, one result bit per unit of fuel. -/
def icbrt : Nat → Nat → Nat
  | 0, _ => 0
  | fuel + 1, n =>
    let r := 2 * icbrt fuel (n / 8)
    if (r + 1) * (r + 1) * (r + 1) ≤ n then r + 1 else r

/-- The two candidate magnitudes of `fcbrt` for `u` units: a value of `u` units has the cube root
`cbrt(u * 2^298)` units. They are one where the root is a binary32 value. -/
def cbrtCandidates (u : Nat) : Nat × Nat :=
  let n := u * 2 ^ 298
  let r := icbrt 193 n
  (roundDown r 1, if r * r * r = n then roundUp r 1 else roundUp (r + 1) 1)

/-- `fcbrt` (R126). -/
def fcbrt (x : Word) : Word :=
  if isNaN x then cNaN
  else if isInf x || isZero x then x
  else
    let c := cbrtCandidates (unitsOfMag (mag x))
    if Config.cbrtThreshold (pack false c.1) ≤ (mag x : Int) then pack (signBit x) c.2
    else pack (signBit x) c.1

end Sys2Proof.Machine
end

