-- ==== Sys2Proof/Machine/State.lean ====
section
/-! DEFINITION. The state of SDP-1 (`spec/10_state.md` R20, R36) and what the host has given it and
not yet taken from it (`spec/20_memory.md` R62, `spec/70_reset_and_hazards.md` R301). -/

namespace Sys2Proof.Machine

/-- One LIN instance, the linear-ramp smoother (R20, R27). -/
structure LinUnit where
  cur : Word
  tgt : Word
  inc : Word
  ibl : Word
  first : Bool
  skip : Bool
deriving DecidableEq, Repr

/-- One LAG instance, the exponential-lag smoother (R20, R29). -/
structure LagUnit where
  cur : Word
  tgt : Word
  k : Word
  km : Word
deriving DecidableEq, Repr

/-- One OSC instance, the quadrature oscillator (R20, R30). -/
structure OscUnit where
  r : Word
  i : Word
  dr : Word
  di : Word
deriving DecidableEq, Repr

/-- One NZ instance, the correlated-noise generator (R20, R31). -/
structure NzUnit where
  h1 : Word
  h2 : Word
  rho : Word
deriving DecidableEq, Repr

/-- The response to one command: `ERR` and `RES` (`spec/30_encoding.md` R82). -/
structure Response where
  err : Bool
  res : Word
deriving DecidableEq, Repr

/-- What the host can do (`spec/00_scope.md` R18, R301): assert reset, issue a command `(CMD, ARG)`,
take a response. -/
inductive HostAction where
  | reset
  | command (cmd arg : Word)
  | take
deriving DecidableEq, Repr

/-- The state of the block.

`status`, `prbs` and the four lists of instances are the architectural state of R20; the length of a
list is the unit's instance count (NLIN, NLAG, NOSC, NNZ of R6), which no step changes. `tanhA` and
`ampEps` are the OPEN parameters TANH_A and AMP_EPS of R6 this block was built with, which no step
changes. `inputs` is the host's sequence of actions still to come, oldest first, and `responses` the
responses the host has not yet taken, oldest first: the command port and the response port in the
transaction view of R62 (log entries 1, 2, 4 and 5). -/
structure State where
  status : Word
  prbs : Word
  lin : List LinUnit
  lag : List LagUnit
  osc : List OscUnit
  nz : List NzUnit
  tanhA : Word
  ampEps : Word
  inputs : List HostAction
  responses : List Response
deriving DecidableEq, Repr

/-- Nothing stops this machine: "The block never traps, hangs or produces an undefined result"
(R15), and the one exception, IllegalCommand, has a next state (R281, R282). So there is no fault:
the type has no constructor. -/
inductive Fault where
deriving DecidableEq, Repr

/-- Why the model answers with a refusal. -/
inductive Refusal where
  /-- `exec` would raise it for a command without a meaning, naming it; no arm does. Safe. -/
  | notModelled (mnemonic : String)
  /-- `boot` raises it for a configuration the spec tells a model to refuse: an instance count of 0
  or above 256 (U12), or an AMP_EPS that is not positive (U9). Safe. -/
  | badParameters
deriving DecidableEq, Repr

/-! ### Reset values (R36) -/

/-- The reset value of a LIN instance (R36, R300). -/
def LinUnit.reset : LinUnit :=
  { cur := 0#32, tgt := 0#32, inc := 0#32, ibl := 0x3F800000#32, first := true, skip := false }

/-- The reset value of a LAG instance (R36, R300). -/
def LagUnit.reset : LagUnit :=
  { cur := 0#32, tgt := 0#32, k := 0#32, km := 0x3F800000#32 }

/-- The reset value of an OSC instance (R36, R300). -/
def OscUnit.reset : OscUnit :=
  { r := 0x3F800000#32, i := 0#32, dr := 0x3F800000#32, di := 0#32 }

/-- The reset value of an NZ instance (R36, R300). -/
def NzUnit.reset : NzUnit :=
  { h1 := 0#32, h2 := 0#32, rho := 0#32 }

/-- A block built with the given parameters, right after reset: every element at its value of R36,
nothing issued and nothing to take. -/
def State.resetWith (p : Config.Params) : State :=
  { status := 0#32
    prbs := 0x00000001#32
    lin := List.replicate p.nlin LinUnit.reset
    lag := List.replicate p.nlag LagUnit.reset
    osc := List.replicate p.nosc OscUnit.reset
    nz := List.replicate p.nnz NzUnit.reset
    tanhA := p.tanhA
    ampEps := p.ampEps
    inputs := []
    responses := [] }

/-- The machine right after reset, at the parameters of `Config.defaultParams`. -/
def State.reset : State := State.resetWith Config.defaultParams

end Sys2Proof.Machine
end

