-- ==== Sys2Proof/Machine/Flags.lean ====
section
/-! DEFINITION. The one flag of SDP-1, `STATUS.ILL` (`spec/10_state.md` R23, R24). There are no
condition codes and no arithmetic flags (R23, `spec/40_numerics.md` R115), so no other flag
computation exists. -/

namespace Sys2Proof.Machine

/-- `STATUS[0]`, ILL. -/
def illBit : Word := 0x00000001#32

/-- What a read of `STATUS` gives: ILL, and zero in the hardwired bits 31:1 (R24). -/
def readStatus (s : State) : Word := s.status &&& illBit

/-- `STATUS.ILL <- 1`, sticky (R24, R281). -/
def setIll (s : State) : State := { s with status := s.status ||| illBit }

end Sys2Proof.Machine
end

