-- ==== Sys2Proof/Machine/Ops.lean ====
section
/-! DEFINITION. The operations every meaning is made of: answering the host, the one exception of the
block, and the access to one instance of a unit.

There is no memory, hence no operation on it (`spec/20_memory.md` R60), and no return from an
exception: "There is no return-from-trap command, because there is nothing to return from"
(`spec/60_exceptions.md` R286). -/

namespace Sys2Proof.Machine

/-- The answer of a meaning. -/
abbrev Result := Host.Outcome State Fault Refusal

/-! ### Responses (`spec/00_scope.md` R10, `spec/20_memory.md` R62) -/

/-- The response joins those the host has not yet taken; they leave in the order of the commands. -/
def pushResponse (s : State) (r : Response) : State := { s with responses := s.responses ++ [r] }

/-- `respond(v)`: `ERR = 0`, `RES = v` (R10). -/
def respond (s : State) (v : Word) : State := pushResponse s { err := false, res := v }

/-- The result of a command that returns nothing (kind Z, R82). -/
def zeroRes : Word := 0x00000000#32

/-! ### The exception (`spec/60_exceptions.md` R281) -/

/-- `raise IllegalCommand`: `STATUS.ILL` is set, the response is `ERR = 1`, `RES = 0`, and no other
element is touched (R281). It saves no state, changes no mode and transfers control nowhere (R283). -/
def raiseIllegal (s : State) : State :=
  pushResponse (setIll s) { err := true, res := 0x00000000#32 }

/-! ### Instances (`spec/10_state.md` R34, `spec/30_encoding.md` R90 clause 4) -/

/-- The instance counts of the block (R6): how many instances its state holds. -/
def State.counts (s : State) : Counts :=
  { nlin := s.lin.length, nlag := s.lag.length, nosc := s.osc.length, nnz := s.nz.length }

/-- A command on `LIN[n]`: `f` gives the instance after it and the result. An index at or above NLIN
makes the command illegal. -/
def onLin (n : BitVec 8) (f : LinUnit → LinUnit × Word) (s : State) : Result :=
  match s.lin[n.toNat]? with
  | none => .next (raiseIllegal s)
  | some u => .next (respond { s with lin := s.lin.set n.toNat (f u).1 } (f u).2)

/-- A command on `LAG[n]`, as `onLin`. -/
def onLag (n : BitVec 8) (f : LagUnit → LagUnit × Word) (s : State) : Result :=
  match s.lag[n.toNat]? with
  | none => .next (raiseIllegal s)
  | some u => .next (respond { s with lag := s.lag.set n.toNat (f u).1 } (f u).2)

/-- A command on `OSC[n]`, as `onLin`. -/
def onOsc (n : BitVec 8) (f : OscUnit → OscUnit × Word) (s : State) : Result :=
  match s.osc[n.toNat]? with
  | none => .next (raiseIllegal s)
  | some u => .next (respond { s with osc := s.osc.set n.toNat (f u).1 } (f u).2)

/-- A command on `NZ[n]` that leaves `PRBS` alone, as `onLin`. -/
def onNz (n : BitVec 8) (f : NzUnit → NzUnit × Word) (s : State) : Result :=
  match s.nz[n.toNat]? with
  | none => .next (raiseIllegal s)
  | some u => .next (respond { s with nz := s.nz.set n.toNat (f u).1 } (f u).2)

end Sys2Proof.Machine
end

