-- ==== Sys2Proof/Machine/AmplitudeCurve.lean ====
section
/-! DEFINITION. The amplitude-curve functions, UNIT 5, FUNC 5 to 8 (`spec/45_amplitude_curve.md`).
They touch no state; the result depends on `ARG` and, for `fn.l2a`, on AMP_EPS. -/

namespace Sys2Proof.Machine

/-- `amp_to_linear` (R211): clamp to non-negative, then the cube from left to right. -/
def ampToLinear (x : Word) : Word :=
  let x0 := if flt x posZero then posZero else x
  fmul (fmul x0 x0) x0

/-- `fn.a2l x` (R211). -/
def execFnA2l (x : Word) (s : State) : Result := .next (respond s (ampToLinear x))

/-- `linear_to_amp` with the lower clamp `eps` (R212). -/
def linearToAmp (eps x : Word) : Word := fcbrt (if flt x eps then eps else x)

/-- `fn.l2a x` (R212), with the block's AMP_EPS. -/
def execFnL2a (x : Word) (s : State) : Result := .next (respond s (linearToAmp s.ampEps x))

/-- `clampout(v, lo, hi)` (R213): a NaN gives `lo`. -/
def clampout (v lo hi : Word) : Word :=
  if fgt v hi then hi else if fge v lo then v else lo

/-- `amp_to_db` (R214). -/
def ampToDb (x : Word) : Word := clampout (fmul eighteen (flog2 x)) dbLow dbHigh

/-- `fn.a2db x` (R214). -/
def execFnA2db (x : Word) (s : State) : Result := .next (respond s (ampToDb x))

/-- `db_to_amp` (R215). -/
def dbToAmp (x : Word) : Word := clampout (fexp2 (fdiv x eighteen)) posZero two

/-- `fn.db2a x` (R215). -/
def execFnDb2a (x : Word) (s : State) : Result := .next (respond s (dbToAmp x))

end Sys2Proof.Machine
end

