-- ==== Sys2Proof/Machine/ExpLag.lean ====
section
/-! DEFINITION. LAG, the exponential-lag smoother, UNIT 2 (`spec/43_exp_lag.md`). -/

namespace Sys2Proof.Machine

/-- `lag.init n` (R170): the reset values. -/
def execLagInit (n : BitVec 8) (s : State) : Result :=
  onLag n (fun _ => ({ cur := posZero, tgt := posZero, k := posZero, km := one }, zeroRes)) s

/-- `lag.setk n, k` (R171): the coefficient unchecked, and its complement rounded once. -/
def execLagSetk (n : BitVec 8) (k : Word) (s : State) : Result :=
  onLag n (fun u => ({ u with k := k, km := fsub one k }, zeroRes)) s

/-- `lag.settgt n, v` (R173): `cur` is never altered. -/
def execLagSettgt (n : BitVec 8) (v : Word) (s : State) : Result :=
  onLag n (fun u => ({ u with tgt := v }, zeroRes)) s

/-- `lag.setimm n, v` (R174). -/
def execLagSetimm (n : BitVec 8) (v : Word) (s : State) : Result :=
  onLag n (fun u => ({ u with cur := v, tgt := v }, zeroRes)) s

/-- The one-pole blend: two rounded products, then their rounded sum (R175). -/
def lagBlend (u : LagUnit) : Word := fadd (fmul u.cur u.km) (fmul u.tgt u.k)

/-- `lag.adv n` (R175): returns the new `cur`. -/
def execLagAdv (n : BitVec 8) (s : State) : Result :=
  onLag n (fun u => ({ u with cur := lagBlend u }, lagBlend u)) s

/-- `lag.snap n` (R176). -/
def execLagSnap (n : BitVec 8) (s : State) : Result :=
  onLag n (fun u => ({ u with cur := u.tgt }, zeroRes)) s

/-- `lag.getcur n` (R177). -/
def execLagGetcur (n : BitVec 8) (s : State) : Result :=
  onLag n (fun u => (u, u.cur)) s

/-- `lag.gettgt n` (R178). -/
def execLagGettgt (n : BitVec 8) (s : State) : Result :=
  onLag n (fun u => (u, u.tgt)) s

end Sys2Proof.Machine
end

