-- ==== Sys2Proof/Machine/LinearRamp.lean ====
section
/-! DEFINITION. LIN, the linear-ramp smoother, UNIT 1 (`spec/42_linear_ramp.md`). Every right side
reads the instance as it was before the command (`spec/00_scope.md` R9). -/

namespace Sys2Proof.Machine

/-- `lin.init n` (R150): the reset values. -/
def execLinInit (n : BitVec 8) (s : State) : Result :=
  onLin n (fun _ =>
    ({ cur := posZero, tgt := posZero, inc := posZero, ibl := one, first := true, skip := false },
      zeroRes)) s

/-- `lin.setblk n, N` (R151): the stored reciprocal; a ramp in progress keeps its increment. -/
def execLinSetblk (n : BitVec 8) (len : Word) (s : State) : Result :=
  onLin n (fun u => ({ u with ibl := fdiv one len }, zeroRes)) s

/-- `lin.cfg n, b` (R153). -/
def execLinCfg (n : BitVec 8) (skip : Bool) (s : State) : Result :=
  onLin n (fun u => ({ u with skip := skip }, zeroRes)) s

/-- `setTarget` on one instance: the first-update jump where both bits are 1, else a new increment
from the present value; `first` is cleared either way (R152, R154). -/
def linSetTarget (v : Word) (u : LinUnit) : LinUnit :=
  if u.first && u.skip then
    { u with cur := v, tgt := v, inc := posZero, first := false }
  else
    { u with tgt := v, inc := fmul (fsub v u.cur) u.ibl, first := false }

/-- `lin.settgt n, v` (R154). -/
def execLinSettgt (n : BitVec 8) (v : Word) (s : State) : Result :=
  onLin n (fun u => (linSetTarget v u, zeroRes)) s

/-- `lin.adv n` (R155): always adds, and returns the new `cur`. -/
def execLinAdv (n : BitVec 8) (s : State) : Result :=
  onLin n (fun u => let c := fadd u.cur u.inc; ({ u with cur := c }, c)) s

/-- `lin.snap n` (R156). -/
def execLinSnap (n : BitVec 8) (s : State) : Result :=
  onLin n (fun u => ({ u with cur := u.tgt, inc := posZero }, zeroRes)) s

/-- `lin.getcur n` (R157). -/
def execLinGetcur (n : BitVec 8) (s : State) : Result :=
  onLin n (fun u => (u, u.cur)) s

/-- `lin.gettgt n` (R158). -/
def execLinGettgt (n : BitVec 8) (s : State) : Result :=
  onLin n (fun u => (u, u.tgt)) s

end Sys2Proof.Machine
end

