-- ==== Sys2Proof/Machine/Noise.lean ====
section
/-! DEFINITION. The shared PRBS and NZ, the correlated-noise generator, UNIT 4 (`spec/46_noise.md`). -/

namespace Sys2Proof.Machine

/-! ### The random source -/

/-- PRBS_POLY, the feedback mask (`spec/00_scope.md` R6). -/
def prbsPoly : Word := 0x80200003#32

/-- One shift of the Galois shift register (R231). -/
def prbsStep (s : Word) : Word :=
  if s.getLsbD 0 then (s >>> 1) ^^^ prbsPoly else s >>> 1

/-- A number of shifts. -/
def prbsSteps : Nat → Word → Word
  | 0, s => s
  | n + 1, s => prbsSteps n (prbsStep s)

/-- The shift register after one draw: thirty-two shifts (R232). -/
def prbsNext (s : Word) : Word := prbsSteps 32 s

/-- The draw that a register state after its shifts stands for: bits 31:8 as a signed number, times
2^-23 (R232, `spec/40_numerics.md` R127). -/
def prbsValue (s : Word) : Word := scale23 (s.extractLsb' 8 24)

/-! ### The filter core -/

/-- The first-order stage (R233). -/
def blend1 (u h1 rho : Word) : Word :=
  let c := fsub one rho
  fadd (fmul u c) (fmul h1 rho)

/-- The second-order core, two stages in cascade: `(y, s)`, the new `h1` and the new `h2` (R234). -/
def blend2 (u h1 h2 rho : Word) : Word × Word :=
  let c := fsub one rho
  let s := fadd (fmul u c) (fmul h2 rho)
  let y := fadd (fmul s c) (fmul h1 rho)
  (y, s)

/-- A first-order step of one instance with the draw `u`: the instance after it and the output. -/
def nzFirstOrder (u : Word) (z : NzUnit) : NzUnit × Word :=
  let y := blend1 u z.h1 z.rho
  ({ z with h1 := y }, y)

/-- A second-order step of one instance with the draw `u`: the instance after it and the output. -/
def nzSecondOrder (u : Word) (z : NzUnit) : NzUnit × Word :=
  let p := blend2 u z.h1 z.h2 z.rho
  ({ z with h1 := p.1, h2 := p.2 }, p.1)

/-- A step with a draw from the shared source (R230): where the instance exists, `PRBS` makes its
thirty-two shifts and `f` has the draw. -/
def onNzDraw (n : BitVec 8) (f : Word → NzUnit → NzUnit × Word) (s : State) : Result :=
  match s.nz[n.toNat]? with
  | none => .next (raiseIllegal s)
  | some z =>
    let p := prbsNext s.prbs
    let o := f (prbsValue p) z
    .next (respond { s with prbs := p, nz := s.nz.set n.toNat o.1 } o.2)

/-! ### The commands -/

/-- `nz.init n` (R235): the reset values; `PRBS` is kept. -/
def execNzInit (n : BitVec 8) (s : State) : Result :=
  onNz n (fun _ => ({ h1 := posZero, h2 := posZero, rho := posZero }, zeroRes)) s

/-- `nz.rst n` (R236): the history only. -/
def execNzRst (n : BitVec 8) (s : State) : Result :=
  onNz n (fun z => ({ z with h1 := posZero, h2 := posZero }, zeroRes)) s

/-- `nz.setcorr n, rho` (R237): no range check. -/
def execNzSetcorr (n : BitVec 8) (rho : Word) (s : State) : Result :=
  onNz n (fun z => ({ z with rho := rho }, zeroRes)) s

/-- `nz.step1 n` (R238). -/
def execNzStep1 (n : BitVec 8) (s : State) : Result := onNzDraw n nzFirstOrder s

/-- `nz.step1x n, u` (R239). -/
def execNzStep1x (n : BitVec 8) (u : Word) (s : State) : Result := onNz n (nzFirstOrder u) s

/-- `nz.step2 n` (R240). -/
def execNzStep2 (n : BitVec 8) (s : State) : Result := onNzDraw n nzSecondOrder s

/-- `nz.step2x n, u` (R241). -/
def execNzStep2x (n : BitVec 8) (u : Word) (s : State) : Result := onNz n (nzSecondOrder u) s

end Sys2Proof.Machine
end

