-- ==== Sys2Proof/Machine/NumericGuards.lean ====
section
/-! DEFINITION. The numeric guards, UNIT 5, FUNC 0 to 4 (`spec/47_numeric_guards.md`). They touch no
state; the result depends on `ARG` and, for `fn.tanhf`, on TANH_A. -/

namespace Sys2Proof.Machine

/-- `flush_denormal` (R261): strictly below the threshold gives `+0`. -/
def flush (x : Word) : Word := if flt (fabs x) flushThr then posZero else x

/-- `fn.flush x` (R261). -/
def execFnFlush (x : Word) (s : State) : Result := .next (respond s (flush x))

/-- `clamp01` (R262): the upper comparison, then the lower; a NaN passes. -/
def clamp01 (x : Word) : Word :=
  if fgt x one then one else if flt x posZero then posZero else x

/-- `fn.clamp01 x` (R262). -/
def execFnClamp01 (x : Word) (s : State) : Result := .next (respond s (clamp01 x))

/-- `clamp1bp` (R263). -/
def clamp1bp (x : Word) : Word :=
  if fgt x one then one else if flt x minusOne then minusOne else x

/-- `fn.clamp1bp x` (R263). -/
def execFnClamp1bp (x : Word) (s : State) : Result := .next (respond s (clamp1bp x))

/-- `tanh_fast` with the cubic coefficient `a` (R264). -/
def tanhFast (a x : Word) : Word :=
  let ax := fabs x
  let xx := fmul ax ax
  let d := fadd (fadd (fadd one ax) xx) (fmul (fmul a ax) xx)
  let q := fsub one (fdiv one d)
  copysign q x

/-- `fn.tanhf x` (R264), with the block's TANH_A. -/
def execFnTanhf (x : Word) (s : State) : Result := .next (respond s (tanhFast s.tanhA x))

/-- `tanh_faster1` (R265). -/
def tanhPoly (x : Word) : Word :=
  let xs := fmul x x
  let y := fadd (fadd one (fmul xs tanhpA)) (fmul (fmul xs xs) tanhpB)
  fmul y x

/-- `fn.tanhp x` (R265). -/
def execFnTanhp (x : Word) (s : State) : Result := .next (respond s (tanhPoly x))

end Sys2Proof.Machine
end

