-- ==== Sys2Proof/Machine/Oscillator.lean ====
section
/-! DEFINITION. OSC, the quadrature oscillator, UNIT 3 (`spec/44_oscillator.md`). -/

namespace Sys2Proof.Machine

/-- `osc.init n` (R190): the reset values, phase 0 and rate 0. -/
def execOscInit (n : BitVec 8) (s : State) : Result :=
  onOsc n (fun _ => ({ r := one, i := posZero, dr := one, di := posZero }, zeroRes)) s

/-- `renorm(r, i)` (R193). -/
def renorm (r i : Word) : Word × Word :=
  let m := fadd (fmul r r) (fmul i i)
  let s := fdiv one (fsqrt m)
  (fmul r s, fmul i s)

/-- `osc.setrate n, omega` (R191): the rotation, and the mandatory renormalisation of the point. -/
def execOscSetrate (n : BitVec 8) (omega : Word) (s : State) : Result :=
  onOsc n (fun u =>
    let p := renorm u.r u.i
    ({ r := p.1, i := p.2, dr := fcos omega, di := fsin omega }, zeroRes)) s

/-- `osc.setphase n, phi` (R192): the point, no renormalisation; the rotation is kept. -/
def execOscSetphase (n : BitVec 8) (phi : Word) (s : State) : Result :=
  onOsc n (fun u => ({ u with r := fcos phi, i := fsin phi }, zeroRes)) s

/-- One rotation step of the point (R194). -/
def rotate (u : OscUnit) : Word × Word :=
  (fsub (fmul u.dr u.r) (fmul u.di u.i), fadd (fmul u.dr u.i) (fmul u.di u.r))

/-- `osc.adv n` (R194): both components from the old point; returns the new `r`. -/
def execOscAdv (n : BitVec 8) (s : State) : Result :=
  onOsc n (fun u => ({ u with r := (rotate u).1, i := (rotate u).2 }, (rotate u).1)) s

/-- `osc.getr n` (R195). -/
def execOscGetr (n : BitVec 8) (s : State) : Result :=
  onOsc n (fun u => (u, u.r)) s

/-- `osc.geti n` (R196). -/
def execOscGeti (n : BitVec 8) (s : State) : Result :=
  onOsc n (fun u => (u, u.i)) s

end Sys2Proof.Machine
end

