-- ==== Sys2Proof/Machine/System.lean ====
section
/-! DEFINITION. The system commands, UNIT 0 (`spec/41_system.md`). -/

namespace Sys2Proof.Machine

/-- `sys.nop` (R141): no element is read or written. -/
def execSysNop (s : State) : Result := .next (respond s zeroRes)

/-- `sys.status` (R142). -/
def execSysStatus (s : State) : Result := .next (respond s (readStatus s))

/-- The state of the shift register a seed gives: a zero seed is replaced by 1 (R143). -/
def seedValue (w : Word) : Word := if w = 0x00000000#32 then 0x00000001#32 else w

/-- `sys.seed w` (R143). -/
def execSysSeed (w : Word) (s : State) : Result :=
  .next (respond { s with prbs := seedValue w } zeroRes)

/-- `sys.prbs` (R144): the shift register is not advanced. -/
def execSysPrbs (s : State) : Result := .next (respond s s.prbs)

end Sys2Proof.Machine
end

