-- ==== Sys2Proof/Machine/Dispatch.lean ====
section
/-! DEFINITION. One arm per command of `spec/30_encoding.md` R84. -/

namespace Sys2Proof.Machine

def exec (i : Instr) (s : State) : Host.Outcome State Fault Refusal :=
  match i with
  | .sysNop => Sys2Proof.Machine.execSysNop s
  | .sysStatus => Sys2Proof.Machine.execSysStatus s
  | .sysSeed w => Sys2Proof.Machine.execSysSeed w s
  | .sysPrbs => Sys2Proof.Machine.execSysPrbs s
  | .linInit n => Sys2Proof.Machine.execLinInit n s
  | .linSetblk n len => Sys2Proof.Machine.execLinSetblk n len s
  | .linCfg n skip => Sys2Proof.Machine.execLinCfg n skip s
  | .linSettgt n v => Sys2Proof.Machine.execLinSettgt n v s
  | .linAdv n => Sys2Proof.Machine.execLinAdv n s
  | .linSnap n => Sys2Proof.Machine.execLinSnap n s
  | .linGetcur n => Sys2Proof.Machine.execLinGetcur n s
  | .linGettgt n => Sys2Proof.Machine.execLinGettgt n s
  | .lagInit n => Sys2Proof.Machine.execLagInit n s
  | .lagSetk n k => Sys2Proof.Machine.execLagSetk n k s
  | .lagSettgt n v => Sys2Proof.Machine.execLagSettgt n v s
  | .lagSetimm n v => Sys2Proof.Machine.execLagSetimm n v s
  | .lagAdv n => Sys2Proof.Machine.execLagAdv n s
  | .lagSnap n => Sys2Proof.Machine.execLagSnap n s
  | .lagGetcur n => Sys2Proof.Machine.execLagGetcur n s
  | .lagGettgt n => Sys2Proof.Machine.execLagGettgt n s
  | .oscInit n => Sys2Proof.Machine.execOscInit n s
  | .oscSetrate n omega => Sys2Proof.Machine.execOscSetrate n omega s
  | .oscSetphase n phi => Sys2Proof.Machine.execOscSetphase n phi s
  | .oscAdv n => Sys2Proof.Machine.execOscAdv n s
  | .oscGetr n => Sys2Proof.Machine.execOscGetr n s
  | .oscGeti n => Sys2Proof.Machine.execOscGeti n s
  | .nzInit n => Sys2Proof.Machine.execNzInit n s
  | .nzRst n => Sys2Proof.Machine.execNzRst n s
  | .nzSetcorr n rho => Sys2Proof.Machine.execNzSetcorr n rho s
  | .nzStep1 n => Sys2Proof.Machine.execNzStep1 n s
  | .nzStep1x n u => Sys2Proof.Machine.execNzStep1x n u s
  | .nzStep2 n => Sys2Proof.Machine.execNzStep2 n s
  | .nzStep2x n u => Sys2Proof.Machine.execNzStep2x n u s
  | .fnFlush x => Sys2Proof.Machine.execFnFlush x s
  | .fnClamp01 x => Sys2Proof.Machine.execFnClamp01 x s
  | .fnClamp1bp x => Sys2Proof.Machine.execFnClamp1bp x s
  | .fnTanhf x => Sys2Proof.Machine.execFnTanhf x s
  | .fnTanhp x => Sys2Proof.Machine.execFnTanhp x s
  | .fnA2l x => Sys2Proof.Machine.execFnA2l x s
  | .fnL2a x => Sys2Proof.Machine.execFnL2a x s
  | .fnA2db x => Sys2Proof.Machine.execFnA2db x s
  | .fnDb2a x => Sys2Proof.Machine.execFnDb2a x s

end Sys2Proof.Machine
end

