-- ==== Sys2Proof/Machine/Reset.lean ====
section
/-! DEFINITION. Reset as an action of the host (`spec/70_reset_and_hazards.md` R300, R301), and the
building of a block with given parameters (`spec/93_implementation_defined.md` U9, U12). -/

namespace Sys2Proof.Machine

/-- The parameters the block was built with (R6). -/
def State.params (s : State) : Config.Params :=
  { nlin := s.lin.length, nlag := s.lag.length, nosc := s.osc.length, nnz := s.nz.length,
    tanhA := s.tanhA, ampEps := s.ampEps }

/-- Reset: every element at its reset value (R300); the responses the host has not taken are lost
(R301). What the host does next, and the parameters, are not the reset's to change. -/
def hostReset (s : State) : State := { State.resetWith s.params with inputs := s.inputs }

/-- A block built with the given parameters and reset, or a refusal where the spec tells a model to
refuse them (U9, U12). -/
def boot (p : Config.Params) : Result :=
  if p.accepted then .next (State.resetWith p) else .refused .badParameters

end Sys2Proof.Machine
end

