-- ==== Sys2Proof/Machine/Command.lean ====
section
/-! DEFINITION. One action of the host (`spec/00_scope.md` R18): a command through the decoder to its
meaning or to IllegalCommand (`spec/60_exceptions.md` R281), a reset, the taking of a response. -/

namespace Sys2Proof.Machine

/-- One command, whole (`spec/20_memory.md` R62): decoded from the pair alone (R90), then run; a pair
that is no command raises IllegalCommand. -/
def runCommand (cmd arg : Word) (s : State) : Result :=
  match decode cmd arg with
  | .ok i => exec i s
  | .error _ => .next (raiseIllegal s)

/-- The host takes the oldest response (R61, R301); with none there, nothing happens. -/
def takeResponse (s : State) : State := { s with responses := s.responses.tail }

/-- One action of the host. -/
def hostAct (a : HostAction) (s : State) : Result :=
  match a with
  | .reset => .next (hostReset s)
  | .command cmd arg => runCommand cmd arg s
  | .take => .next (takeResponse s)

end Sys2Proof.Machine
end

