-- ==== Sys2Proof/Machine/Step.lean ====
section
/-! DEFINITION. One step of the block: the host's next action, or nothing (`spec/20_memory.md` R62:
"Between commands the state does not change"). -/

namespace Sys2Proof.Machine

/-- One step. With no action to come the block is idle and keeps its state (R62, R295). -/
def step (s : State) : Host.Outcome State Fault Refusal :=
  match s.inputs with
  | [] => .next s
  | a :: rest => hostAct a { s with inputs := rest }

/-- `s` with the command whose bits are `w` as the host's next action, so that the next step runs it.
The opcode table numbers the bits of `CMD`; `ARG` above them is zero. -/
def State.withFetchWord (s : State) (nbits w : Nat) : State :=
  { s with
    inputs := .command (commandOfTableWord nbits w).1 (commandOfTableWord nbits w).2 :: s.inputs }

end Sys2Proof.Machine
end

