-- ==== Sys2Proof/Machine/Operands.lean ====
section
/-! DEFINITION. The operand and result kinds of the commands (`spec/30_encoding.md` R81, R82, R84).
A command has at most one operand, `ARG` taken whole or its bit 0 (R83), which the decoder reads
(Decode.lean); the instance index is read by the operations of Ops.lean. -/

namespace Sys2Proof.Machine

/-- The kinds of `ARG` (R81): a binary32 value, a raw word, a flag in bit 0, ignored. -/
inductive ArgKind where
  | f | w | b | n
deriving DecidableEq, Repr

/-- The kinds of `RES` (R82): a binary32 value, a raw word, nothing. -/
inductive ResKind where
  | f | w | z
deriving DecidableEq, Repr

/-- The ARG column of R84. -/
def argKind : Instr → ArgKind
  | .sysNop | .sysStatus | .sysPrbs => .n
  | .sysSeed _ => .w
  | .linInit _ | .linAdv _ | .linSnap _ | .linGetcur _ | .linGettgt _ => .n
  | .linSetblk _ _ | .linSettgt _ _ => .f
  | .linCfg _ _ => .b
  | .lagInit _ | .lagAdv _ | .lagSnap _ | .lagGetcur _ | .lagGettgt _ => .n
  | .lagSetk _ _ | .lagSettgt _ _ | .lagSetimm _ _ => .f
  | .oscInit _ | .oscAdv _ | .oscGetr _ | .oscGeti _ => .n
  | .oscSetrate _ _ | .oscSetphase _ _ => .f
  | .nzInit _ | .nzRst _ | .nzStep1 _ | .nzStep2 _ => .n
  | .nzSetcorr _ _ | .nzStep1x _ _ | .nzStep2x _ _ => .f
  | .fnFlush _ | .fnClamp01 _ | .fnClamp1bp _ | .fnTanhf _ | .fnTanhp _ => .f
  | .fnA2l _ | .fnL2a _ | .fnA2db _ | .fnDb2a _ => .f

/-- The RES column of R84. -/
def resKind : Instr → ResKind
  | .sysNop | .sysSeed _ => .z
  | .sysStatus | .sysPrbs => .w
  | .linInit _ | .linSetblk _ _ | .linCfg _ _ | .linSettgt _ _ | .linSnap _ => .z
  | .linAdv _ | .linGetcur _ | .linGettgt _ => .f
  | .lagInit _ | .lagSetk _ _ | .lagSettgt _ _ | .lagSetimm _ _ | .lagSnap _ => .z
  | .lagAdv _ | .lagGetcur _ | .lagGettgt _ => .f
  | .oscInit _ | .oscSetrate _ _ | .oscSetphase _ _ => .z
  | .oscAdv _ | .oscGetr _ | .oscGeti _ => .f
  | .nzInit _ | .nzRst _ | .nzSetcorr _ _ => .z
  | .nzStep1 _ | .nzStep1x _ _ | .nzStep2 _ | .nzStep2x _ _ => .f
  | .fnFlush _ | .fnClamp01 _ | .fnClamp1bp _ | .fnTanhf _ | .fnTanhp _ => .f
  | .fnA2l _ | .fnL2a _ | .fnA2db _ | .fnDb2a _ => .f

/-- The part of `ARG` a command of this kind reads (R81): all of it, bit 0, or nothing. -/
def argUsed (k : ArgKind) (arg : Word) : Word :=
  match k with
  | .f | .w => arg
  | .b => flagArg (argFlag arg)
  | .n => 0#32

end Sys2Proof.Machine
end

