-- ==== Sys2Proof/Machine/Assembler.lean ====
section
/-! DEFINITION. The textual form of commands (`spec/30_encoding.md` R93, R94): an assembler from one
line of text to the pair `(CMD, ARG)`, and the text of a command. The block itself reads no text; the
file is here so that the spec's worked texts can be checked against the decoder. Log entry 12. -/

namespace Sys2Proof.Machine

/-- The mnemonics of R84: opcode byte, whether INST is an index, kind of `ARG`. -/
def mnemonicTable : List (String × BitVec 8 × Bool × ArgKind) :=
  [("sys.nop",     0x00#8, false, .n),
   ("sys.status",  0x01#8, false, .n),
   ("sys.seed",    0x02#8, false, .w),
   ("sys.prbs",    0x03#8, false, .n),
   ("lin.init",    0x10#8, true, .n),
   ("lin.setblk",  0x11#8, true, .f),
   ("lin.cfg",     0x12#8, true, .b),
   ("lin.settgt",  0x13#8, true, .f),
   ("lin.adv",     0x14#8, true, .n),
   ("lin.snap",    0x15#8, true, .n),
   ("lin.getcur",  0x16#8, true, .n),
   ("lin.gettgt",  0x17#8, true, .n),
   ("lag.init",    0x20#8, true, .n),
   ("lag.setk",    0x21#8, true, .f),
   ("lag.settgt",  0x22#8, true, .f),
   ("lag.setimm",  0x23#8, true, .f),
   ("lag.adv",     0x24#8, true, .n),
   ("lag.snap",    0x25#8, true, .n),
   ("lag.getcur",  0x26#8, true, .n),
   ("lag.gettgt",  0x27#8, true, .n),
   ("osc.init",    0x30#8, true, .n),
   ("osc.setrate", 0x31#8, true, .f),
   ("osc.setphase", 0x32#8, true, .f),
   ("osc.adv",     0x33#8, true, .n),
   ("osc.getr",    0x34#8, true, .n),
   ("osc.geti",    0x35#8, true, .n),
   ("nz.init",     0x40#8, true, .n),
   ("nz.rst",      0x41#8, true, .n),
   ("nz.setcorr",  0x42#8, true, .f),
   ("nz.step1",    0x43#8, true, .n),
   ("nz.step1x",   0x44#8, true, .f),
   ("nz.step2",    0x45#8, true, .n),
   ("nz.step2x",   0x46#8, true, .f),
   ("fn.flush",    0x50#8, false, .f),
   ("fn.clamp01",  0x51#8, false, .f),
   ("fn.clamp1bp", 0x52#8, false, .f),
   ("fn.tanhf",    0x53#8, false, .f),
   ("fn.tanhp",    0x54#8, false, .f),
   ("fn.a2l",      0x55#8, false, .f),
   ("fn.l2a",      0x56#8, false, .f),
   ("fn.a2db",     0x57#8, false, .f),
   ("fn.db2a",     0x58#8, false, .f)]

/-! ### Characters and numbers -/

/-- The line up to its comment, which `;` starts. -/
def stripComment (cs : List Char) : List Char := cs.takeWhile fun c => decide (c ≠ ';')

/-- The words of a line, which blanks part; a comma parts them too (DESIGN CHOICE, log entry 12). -/
def lineWords : List Char → List Char → List (List Char)
  | [], w => if w = [] then [] else [w.reverse]
  | c :: cs, w =>
    if c = ' ' || c = ',' then
      if w = [] then lineWords cs [] else w.reverse :: lineWords cs []
    else lineWords cs (c :: w)

/-- The value of a decimal digit. -/
def decDigit (c : Char) : Option Nat :=
  if '0'.toNat ≤ c.toNat && c.toNat ≤ '9'.toNat then some (c.toNat - '0'.toNat) else none

/-- The value of a hexadecimal digit. -/
def hexDigit (c : Char) : Option Nat :=
  if 'A'.toNat ≤ c.toNat && c.toNat ≤ 'F'.toNat then some (c.toNat - 'A'.toNat + 10)
  else if 'a'.toNat ≤ c.toNat && c.toNat ≤ 'f'.toNat then some (c.toNat - 'a'.toNat + 10)
  else decDigit c

/-- A string of digits in a base, most significant first, on top of a value read before it. -/
def digitsValue (digit : Char → Option Nat) (base : Nat) : List Char → Nat → Option Nat
  | [], acc => some acc
  | c :: cs, acc =>
    match digit c with
    | none => none
    | some d => digitsValue digit base cs (acc * base + d)

/-- A decimal number, at least one digit. -/
def decNumber (cs : List Char) : Option Nat :=
  if cs = [] then none else digitsValue decDigit 10 cs 0

/-- `0x` and exactly eight hexadecimal digits. -/
def hexWord (cs : List Char) : Option Word :=
  match cs with
  | '0' :: 'x' :: ds =>
    if ds.length = 8 then (digitsValue hexDigit 16 ds 0).map (BitVec.ofNat 32) else none
  | _ => none

/-- The magnitude nearest to `d * 10^e`, ties to even. -/
def decimalMag (d : Nat) (e : Int) : Nat :=
  if 0 ≤ e then roundNearest (d * 10 ^ e.toNat * 2 ^ 149) 1
  else roundNearest (d * 2 ^ 149) (10 ^ e.natAbs)

/-- A whole number with an optional sign. -/
def signedNumber (cs : List Char) : Option Int :=
  match cs with
  | '-' :: ds => (decNumber ds).map fun n => -(n : Int)
  | '+' :: ds => (decNumber ds).map fun n => (n : Int)
  | ds => (decNumber ds).map fun n => (n : Int)

/-- A decimal real without its sign: it has a decimal point or an exponent (R93). R93 gives three
examples and no grammar; DESIGN CHOICE of log entry 12: the exponent letter is `e` or `E`, its sign is
optional, digits may be missing on one side of the point (`.5`, `5.`) but not on both. -/
def decimalReal (cs : List Char) : Option Nat :=
  let isExp := fun c : Char => decide (c = 'e') || decide (c = 'E')
  let mantissa := cs.takeWhile fun c => !isExp c
  let expPart := cs.drop mantissa.length
  let whole := mantissa.takeWhile fun c => decide (c ≠ '.')
  let frac := (mantissa.drop whole.length).drop 1
  let e? : Option Int := if expPart = [] then some 0 else signedNumber (expPart.drop 1)
  if expPart = [] && mantissa = whole then none
  else
    match decNumber (whole ++ frac), e? with
    | some d, some e => some (decimalMag d (e - frac.length))
    | _, _ => none

/-- A number argument (R93): the eight hexadecimal digits of a word, an infinity, `nan`, or a decimal
real, meaning the binary32 value nearest to it. DESIGN CHOICE of log entry 12: a decimal real may have a
leading `-` and no leading `+`; `-` inverts the sign bit, so `-0.0` is `-0`. -/
def numberArg (cs : List Char) : Option Word :=
  match hexWord cs with
  | some w => some w
  | none =>
    if cs = "+inf".toList then some posInf
    else if cs = "-inf".toList then some negInf
    else if cs = "nan".toList then some cNaN
    else
      match cs with
      | '-' :: ds => (decimalReal ds).map (pack true)
      | ds => (decimalReal ds).map (pack false)

/-- The argument of a kind (R93). -/
def kindArg (k : ArgKind) (cs : List Char) : Option Word :=
  match k with
  | .f => numberArg cs
  | .w => hexWord cs
  | .b =>
    if cs = ['0'] then some 0#32 else if cs = ['1'] then some 1#32 else hexWord cs
  | .n => none

/-- A decimal instance index that fits the INST field; leading zeros are taken (DESIGN CHOICE, log
entry 12). -/
def indexArg (cs : List Char) : Option (BitVec 8) :=
  match decNumber cs with
  | none => none
  | some n => if n < 256 then some (BitVec.ofNat 8 n) else none

/-! ### Lines -/

/-- One line of text as `(CMD, ARG)`; none where it is not of the form of R93. A command of kind N
has `ARG` zero. -/
def assemble (line : String) : Option (Word × Word) :=
  match lineWords (stripComment line.toList) [] with
  | [] => none
  | m :: ops =>
    match mnemonicTable.find? fun row => decide (row.1.toList = m) with
    | none => none
    | some (_, op, idx, kind) =>
      match idx, decide (kind = .n), ops with
      | false, true, [] => some (cmdWord 0#8 op, 0#32)
      | false, false, [a] => (kindArg kind a).map fun w => (cmdWord 0#8 op, w)
      | true, true, [n] => (indexArg n).map fun n => (cmdWord n op, 0#32)
      | true, false, [n, a] =>
        match indexArg n, kindArg kind a with
        | some n, some w => some (cmdWord n op, w)
        | _, _ => none
      | _, _, _ => none

/-- The mnemonic of a command (R84). -/
def mnemonic (i : Instr) : String :=
  match mnemonicTable.find? fun row => decide (row.2.1 = i.op) with
  | some row => row.1
  | none => ""

/-- One hexadecimal digit. -/
def hexChar (d : Nat) : Char :=
  if d < 10 then Char.ofNat ('0'.toNat + d) else Char.ofNat ('A'.toNat + (d - 10))

/-- A word in the `0x` form (R93). -/
def hexText (w : Word) : String :=
  String.ofList ('0' :: 'x' :: ([28, 24, 20, 16, 12, 8, 4, 0].map fun k =>
    hexChar (w.toNat / 2 ^ k % 16)))

/-- The argument of a command as text. -/
def argText (i : Instr) : String :=
  match argKind i with
  | .n => ""
  | .b => if i.arg = 0#32 then "0" else "1"
  | .f | .w => hexText i.arg

/-- The text of a command (R93), numbers in the `0x` form. -/
def text (i : Instr) : String :=
  match i.inst?, decide (argKind i = .n) with
  | none, true => mnemonic i
  | none, false => mnemonic i ++ " " ++ argText i
  | some n, true => mnemonic i ++ " " ++ toString n.toNat
  | some n, false => mnemonic i ++ " " ++ toString n.toNat ++ ", " ++ argText i

end Sys2Proof.Machine
end

