-- ==== Sys2Proof/Safety.lean ====
section
/-! DEFINITION. What the claims call a legal command, a good state and a run. -/

namespace Sys2Proof.Machine

/-! ### Legality, by the four clauses of `spec/30_encoding.md` R90 -/

/-- How many functions a UNIT value has (R84, R90 clause 2). -/
def funcCount (unit : Nat) : Nat :=
  match unit with
  | 0 => 4
  | 1 => 8
  | 2 => 8
  | 3 => 6
  | 4 => 7
  | 5 => 9
  | _ => 0

/-- The instance count of a UNIT value whose commands take an index (R85); none for SYS, FN and the
unassigned values. -/
def instanceCount (c : Counts) (unit : Nat) : Option Nat :=
  match unit with
  | 1 => some c.nlin
  | 2 => some c.nlag
  | 3 => some c.nosc
  | 4 => some c.nnz
  | _ => none

/-- `CMD` is illegal (R90), in the words of its four clauses, for these instance counts. -/
def isIllegal (c : Counts) (cmd : Word) : Bool :=
  let unit := (cmd.extractLsb' 4 4).toNat
  let func := (cmd.extractLsb' 0 4).toNat
  let inst := (cmd.extractLsb' 8 8).toNat
  decide (cmd.extractLsb' 16 16 ≠ 0#16) || decide (funcCount unit ≤ func) ||
    match instanceCount c unit with
    | none => decide (inst ≠ 0)
    | some count => decide (count ≤ inst)

/-- A command sequence with no illegal command (R282: "a fault the model can prove absent from a given
command sequence"). -/
def legalSequence (c : Counts) (cmds : List (Word × Word)) : Bool :=
  cmds.all fun p => !isIllegal c p.1

/-! ### Good states -/

/-- What every state a block can reach has in common. -/
structure State.Inv (s : State) : Prop where
  /-- `STATUS[31:1]` is hardwired zero (R24). -/
  statusReserved : s.status.extractLsb' 1 31 = 0#31
  /-- The shift register is never zero (R25). -/
  prbsNonzero : s.prbs ≠ 0#32
  /-- `km = fsub(1.0, k)` in every LAG instance (R29, R172). -/
  complement : ∀ u ∈ s.lag, u.km = fsub one u.k
  /-- The block has parameters the model accepts (U9, U12). -/
  accepted : s.params.accepted = true

/-! ### Runs -/

/-- The host's commands, in order, as its actions. -/
def commandActions (cmds : List (Word × Word)) : List HostAction :=
  cmds.map fun p => .command p.1 p.2

/-- A state some run of steps from `s` reaches. -/
inductive Reaches : State → State → Prop where
  | refl (s : State) : Reaches s s
  | step {s t u : State} : Reaches s t → Sys2Proof.Machine.step t = .next u → Reaches s u

end Sys2Proof.Machine
end

