-- ==== Sys2Proof/Certificates/Slice0/Obligations.lean ====
section
/-! DEFINITION. The statements for the provers, from the numbered rules of `spec/`. The first part gives
the words the statements use; they are written from the spec's own descriptions, not from the model's
definitions of the same things. -/

namespace Sys2Proof.Claim

open Sys2Proof.Machine

/-! ### Answers -/

/-- The state after a legal command that answers `v` and changes nothing else. -/
def answered (s : State) (v : Word) : State :=
  { s with responses := s.responses ++ [{ err := false, res := v }] }

/-- The state after an illegal command (R281): `STATUS.ILL`, `ERR = 1`, `RES = 0`, nothing else. -/
def illegalAnswer (s : State) : State :=
  { s with status := s.status ||| 1#32, responses := s.responses ++ [{ err := true, res := 0#32 }] }

/-- A command of LIN (R80, R84, R90): `op` is its opcode byte, whatever `ARG` holds it decodes to
`i n arg`; where `LIN[n]` exists, `eff arg` gives the instance after the command and `RES`, and no other
element changes; where it does not, the command is illegal. -/
def LinCommand (op : BitVec 8) (i : BitVec 8 → Word → Instr)
    (eff : Word → LinUnit → LinUnit × Word) : Prop :=
  ∀ (n : BitVec 8) (arg : Word) (s : State),
    decode (0#16 ++ n ++ op) arg = .ok (i n arg) ∧
    (∀ u, s.lin[n.toNat]? = some u →
      exec (i n arg) s =
        .next (answered { s with lin := s.lin.set n.toNat (eff arg u).1 } (eff arg u).2)) ∧
    (s.lin.length ≤ n.toNat → exec (i n arg) s = .next (illegalAnswer s))

/-- A command of LAG, as `LinCommand`. -/
def LagCommand (op : BitVec 8) (i : BitVec 8 → Word → Instr)
    (eff : Word → LagUnit → LagUnit × Word) : Prop :=
  ∀ (n : BitVec 8) (arg : Word) (s : State),
    decode (0#16 ++ n ++ op) arg = .ok (i n arg) ∧
    (∀ u, s.lag[n.toNat]? = some u →
      exec (i n arg) s =
        .next (answered { s with lag := s.lag.set n.toNat (eff arg u).1 } (eff arg u).2)) ∧
    (s.lag.length ≤ n.toNat → exec (i n arg) s = .next (illegalAnswer s))

/-- A command of OSC, as `LinCommand`. -/
def OscCommand (op : BitVec 8) (i : BitVec 8 → Word → Instr)
    (eff : Word → OscUnit → OscUnit × Word) : Prop :=
  ∀ (n : BitVec 8) (arg : Word) (s : State),
    decode (0#16 ++ n ++ op) arg = .ok (i n arg) ∧
    (∀ u, s.osc[n.toNat]? = some u →
      exec (i n arg) s =
        .next (answered { s with osc := s.osc.set n.toNat (eff arg u).1 } (eff arg u).2)) ∧
    (s.osc.length ≤ n.toNat → exec (i n arg) s = .next (illegalAnswer s))

/-- A command of NZ, as `LinCommand`; `prbs` gives the shift register after a legal command. -/
def NzCommand (op : BitVec 8) (i : BitVec 8 → Word → Instr) (prbs : Word → Word)
    (eff : Word → Word → NzUnit → NzUnit × Word) : Prop :=
  ∀ (n : BitVec 8) (arg : Word) (s : State),
    decode (0#16 ++ n ++ op) arg = .ok (i n arg) ∧
    (∀ z, s.nz[n.toNat]? = some z →
      exec (i n arg) s =
        .next (answered
          { s with prbs := prbs s.prbs, nz := s.nz.set n.toNat (eff (prbs s.prbs) arg z).1 }
          (eff (prbs s.prbs) arg z).2)) ∧
    (s.nz.length ≤ n.toNat → exec (i n arg) s = .next (illegalAnswer s))

/-- A command without an instance (R80, R84, R90): INST must be zero; `eff arg s` gives the state
before the response joins it, and `RES`. -/
def GlobalCommand (op : BitVec 8) (i : Word → Instr) (eff : Word → State → State × Word) : Prop :=
  ∀ (arg : Word) (s : State),
    decode (0#16 ++ 0#8 ++ op) arg = .ok (i arg) ∧
    (∀ n : BitVec 8, n ≠ 0#8 → decode (0#16 ++ n ++ op) arg = .error .instNotZero) ∧
    exec (i arg) s = .next (answered (eff arg s).1 (eff arg s).2)

/-- A command of FN: no element is read or written (R33), the parameters apart. -/
def FnCommand (op : BitVec 8) (i : Word → Instr) (f : Word → State → Word) : Prop :=
  GlobalCommand op i fun arg s => (s, f arg s)

/-! ### binary32 data, from the table of R110 -/

/-- The exponent field of a word. -/
def expField (a : Word) : Nat := (a.extractLsb' 23 8).toNat

/-- The fraction field of a word. -/
def fracField (a : Word) : Nat := (a.extractLsb' 0 23).toNat

/-- The word is a NaN. -/
def IsNaN (a : Word) : Prop := expField a = 255 ∧ fracField a ≠ 0

/-- The word is an infinity. -/
def IsInf (a : Word) : Prop := expField a = 255 ∧ fracField a = 0

/-- The word is finite: a zero, a subnormal or a normal number. -/
def IsFinite (a : Word) : Prop := expField a < 255

/-- The value of a finite word (the column 'value' of R110). -/
def value (a : Word) : ℚ :=
  (if a.msb then -1 else 1) *
    (if expField a = 0 then (fracField a : ℚ) * 2 ^ (-149 : ℤ)
     else (1 + (fracField a : ℚ) * 2 ^ (-23 : ℤ)) * 2 ^ ((expField a : ℤ) - 127))

/-- The word that an exact real result is rounded to (R112): the infinity of its sign where the
rounded magnitude is above the largest finite one; else the nearest finite value, the even one of two
equally near. -/
def IsRounded (q : ℝ) (r : Word) : Prop :=
  if (2 : ℝ) ^ 128 - 2 ^ 103 ≤ |q| then r = if q < 0 then 0xFF800000#32 else 0x7F800000#32
  else
    IsFinite r ∧ (∀ y, IsFinite y → |(value r : ℝ) - q| ≤ |(value y : ℝ) - q|) ∧
      (∀ y, IsFinite y → |(value y : ℝ) - q| = |(value r : ℝ) - q| → value y ≠ value r →
        r.getLsbD 0 = false)

/-- The place of a word that is no NaN among the real numbers extended with the infinities (R121). -/
def place (a : Word) : WithBot (WithTop ℚ) :=
  if expField a = 255 then (if a.msb then ⊥ else ((⊤ : WithTop ℚ) : WithBot (WithTop ℚ)))
  else ((value a : WithTop ℚ) : WithBot (WithTop ℚ))

/-- The word with its sign bit inverted. -/
def negated (a : Word) : Word := a ^^^ 0x80000000#32

/-- The output clamp of R213. -/
def clamped (v lo hi : Word) : Word :=
  if fgt v hi = true then hi else if fge v lo = true then v else lo

/-! ### Which commands touch what -/

/-- The command addresses instance `m` of the unit. -/
def Addresses (i : Instr) (u : UnitKind) (m : Nat) : Prop :=
  i.unit = u ∧ ∃ n, i.inst? = some n ∧ n.toNat = m

/-- The four commands that touch `PRBS` (R69). -/
def usesPrbs : Instr → Bool
  | .sysSeed _ | .sysPrbs | .nzStep1 _ | .nzStep2 _ => true
  | _ => false

/-- The commands with no side effect (R65). -/
def isSilent : Instr → Bool
  | .sysNop | .sysStatus | .sysPrbs => true
  | .linGetcur _ | .linGettgt _ | .lagGetcur _ | .lagGettgt _ | .oscGetr _ | .oscGeti _ => true
  | .fnFlush _ | .fnClamp01 _ | .fnClamp1bp _ | .fnTanhf _ | .fnTanhp _ => true
  | .fnA2l _ | .fnL2a _ | .fnA2db _ | .fnDb2a _ => true
  | _ => false

/-- The commands that R65 calls idempotent besides the silent ones. -/
def isSetter : Instr → Bool
  | .sysSeed _ | .linInit _ | .lagInit _ | .oscInit _ | .nzInit _ | .nzRst _ => true
  | .linSetblk _ _ | .linCfg _ _ | .linSnap _ => true
  | .lagSetk _ _ | .lagSettgt _ _ | .lagSetimm _ _ | .lagSnap _ => true
  | .oscSetphase _ _ | .nzSetcorr _ _ => true
  | _ => false

/-- Two states that agree on all a command reads: its instance, and the global elements and parameters
it uses (R33). -/
structure AgreeFor (i : Instr) (s s' : State) : Prop where
  lin : ∀ m, Addresses i .lin m → s.lin[m]? = s'.lin[m]?
  lag : ∀ m, Addresses i .lag m → s.lag[m]? = s'.lag[m]?
  osc : ∀ m, Addresses i .osc m → s.osc[m]? = s'.osc[m]?
  nz : ∀ m, Addresses i .nz m → s.nz[m]? = s'.nz[m]?
  prbs : usesPrbs i = true → s.prbs = s'.prbs
  status : i = .sysStatus → s.status = s'.status
  tanhA : (∃ x, i = .fnTanhf x) → s.tanhA = s'.tanhA
  ampEps : (∃ x, i = .fnL2a x) → s.ampEps = s'.ampEps

end Sys2Proof.Claim

open Sys2Proof Sys2Proof.Machine Sys2Proof.Claim

/-! ## Encoding -/

/-- Decoding the words of any command gives the command back, every operand included (R80 to R84). -/
def Obligations.DecodeInvertsEncode : Prop :=
  ∀ i : Instr, decode (encode i).1 (encode i).2 = .ok i

/-- An accepted pair is the encoding of the command it decodes to: no bit of `CMD` is dropped, `CMD`
under the mask of the command's row is the row's match (R85), and of `ARG` exactly the part its kind
uses is read (R81). -/
def Obligations.AcceptedWordIsItsEncoding : Prop :=
  ∀ (cmd arg : Word) (i : Instr), decode cmd arg = .ok i →
    i.cmd = cmd ∧ i.arg = argUsed (argKind i) arg ∧ cmd &&& i.mask = i.matchBits

/-- R90 and R91: the decode procedure rejects exactly the words of the four clauses, whatever `ARG`
holds. -/
def Obligations.LegalExactlyByTheFourClauses : Prop :=
  ∀ (c : Counts) (cmd arg : Word),
    ((∃ i, decodeFor c cmd arg = .ok i) ↔ isIllegal c cmd = false) ∧
    (rsvField cmd ≠ 0#16 → decodeFor c cmd arg = .error .reservedNotZero)

/-- The table of R95: every text assembles to its words, and the four illegal words are illegal. -/
def Obligations.EncodingExamplesOfTheSpec : Prop :=
  assemble "sys.nop" = some (0x00000000#32, 0x00000000#32) ∧
  assemble "sys.seed 0xDEADBEEF" = some (0x00000002#32, 0xDEADBEEF#32) ∧
  assemble "lin.setblk 0, 4.0" = some (0x00000011#32, 0x40800000#32) ∧
  assemble "lin.settgt 3, 1.0" = some (0x00000313#32, 0x3F800000#32) ∧
  assemble "lin.adv 3" = some (0x00000314#32, 0x00000000#32) ∧
  assemble "lag.setk 1, 0.5" = some (0x00000121#32, 0x3F000000#32) ∧
  assemble "osc.setrate 0, 0.1" = some (0x00000031#32, 0x3DCCCCCD#32) ∧
  assemble "nz.step2x 2, -1.0" = some (0x00000246#32, 0xBF800000#32) ∧
  assemble "fn.flush 1e-30" = some (0x00000050#32, 0x0DA24260#32) ∧
  assemble "fn.tanhf 1.0" = some (0x00000053#32, 0x3F800000#32) ∧
  ∀ arg : Word,
    decode 0x00000313#32 arg = .ok (.linSettgt 3#8 arg) ∧
    decode 0x00000121#32 arg = .ok (.lagSetk 1#8 arg) ∧
    decode 0x00000246#32 arg = .ok (.nzStep2x 2#8 arg) ∧
    decode 0x00000053#32 arg = .ok (.fnTanhf arg) ∧
    decode 0x00010000#32 arg = .error .reservedNotZero ∧
    decode 0x00000018#32 arg = .error .unassignedOp ∧
    decode 0x00000150#32 arg = .error .instNotZero ∧
    ∀ c : Counts, c.nlin = 4 → decodeFor c 0x00000414#32 arg = .error .instOutOfRange

/-- R63 and R64: a stored sequence is 8-byte records, `CMD` first, each word least significant byte
first; it is read back whole, and other numbers of bytes are no command sequence. -/
def Obligations.CommandSequencesAreEightByteRecords : Prop :=
  (∀ cmd arg : Word, bytesOfCommand cmd arg =
    [cmd.extractLsb' 0 8, cmd.extractLsb' 8 8, cmd.extractLsb' 16 8, cmd.extractLsb' 24 8,
     arg.extractLsb' 0 8, arg.extractLsb' 8 8, arg.extractLsb' 16 8, arg.extractLsb' 24 8]) ∧
  (∀ cmds : List (Word × Word),
    commandsOfBytes (cmds.flatMap fun p => bytesOfCommand p.1 p.2) = some cmds) ∧
  (∀ bs : List Byte, (∃ cmds, commandsOfBytes bs = some cmds) ↔ bs.length % 8 = 0) ∧
  (∀ cmd arg : Word, decodeBytes (bytesOfCommand cmd arg) = decode cmd arg)

/-! ## The machine -/

/-- A step runs the decoded command: where the host's next action is a command that decodes to `i`, the
step is `exec i` at the state with that action taken off the host's sequence. -/
def Obligations.StepRunsTheDecodedCommand : Prop :=
  ∀ (s : State) (cmd arg : Word) (rest : List HostAction) (i : Instr),
    s.inputs = .command cmd arg :: rest → decode cmd arg = .ok i →
      step s = exec i { s with inputs := rest }

/-- R282, R62: the step function is total; every command, legal or not, gives a next state and exactly
one response, after all earlier ones, and leaves the rest of the host's sequence as it was; a decoded
command whose instance does not exist is illegal like a word that decodes to nothing. -/
def Obligations.EveryCommandGetsOneResponse : Prop :=
  ∀ (s : State) (cmd arg : Word) (rest : List HostAction),
    s.inputs = .command cmd arg :: rest →
      ∃ t r, step s = .next t ∧ t.inputs = rest ∧ t.responses = s.responses ++ [r] ∧
        (r.err = true ↔ ∀ i, decodeFor s.counts cmd arg ≠ .ok i)

/-- R281: an illegal command sets `STATUS.ILL`, responds `ERR = 1, RES = 0` and has no other effect, so
that the next command runs as if it had been a `sys.nop` but for the bit and the response. -/
def Obligations.IllegalCommandEffect : Prop :=
  ∀ (s : State) (cmd arg : Word) (rest : List HostAction),
    s.inputs = .command cmd arg :: rest → isIllegal s.counts cmd = true →
      step s =
        .next
          { s with
            status := s.status ||| 1#32
            inputs := rest
            responses := s.responses ++ [{ err := true, res := 0x00000000#32 }] }

/-- R82: `ERR = 1` exactly for an illegal command, then with `RES = 0`; a legal command of result kind Z
has `RES = 0`. -/
def Obligations.ErrExactlyForIllegalCommands : Prop :=
  ∀ (s t : State) (cmd arg : Word) (rest : List HostAction) (r : Response),
    s.inputs = .command cmd arg :: rest → step s = .next t → t.responses = s.responses ++ [r] →
      (r.err = isIllegal s.counts cmd) ∧ (r.err = true → r.res = 0#32) ∧
      (∀ i, decode cmd arg = .ok i → resKind i = .z → r.res = 0#32)

/-- Every step keeps a good state good: reserved `STATUS` bits zero (R24), `PRBS` not zero (R25),
`km = fsub(1.0, k)` in every LAG instance (R29, R172), accepted parameters (R6). -/
def Obligations.GoodStatesStayGood : Prop :=
  ∀ s t : State, s.Inv → step s = .next t → t.Inv

/-- The state right after reset is good, for all accepted parameters. -/
def Obligations.ResetStateIsGood : Prop :=
  (∀ p : Config.Params, p.accepted = true → (State.resetWith p).Inv) ∧ State.reset.Inv

/-- R300: a reset gives every element its value of R36, from every state, for every instance. That the
counts of instances, TANH_A and AMP_EPS, which the state carries, stay as they were is the model's
choice (log entries 2 and 14). -/
def Obligations.ResetGivesEveryElementItsValue : Prop :=
  ∀ (s : State) (rest : List HostAction), s.inputs = .reset :: rest →
    ∃ t, step s = .next t ∧ t.status = 0x00000000#32 ∧ t.prbs = 0x00000001#32 ∧
      t.lin.length = s.lin.length ∧ t.lag.length = s.lag.length ∧
      t.osc.length = s.osc.length ∧ t.nz.length = s.nz.length ∧
      (∀ u ∈ t.lin, u.cur = 0x00000000#32 ∧ u.tgt = 0x00000000#32 ∧ u.inc = 0x00000000#32 ∧
        u.ibl = 0x3F800000#32 ∧ u.first = true ∧ u.skip = false) ∧
      (∀ u ∈ t.lag, u.cur = 0x00000000#32 ∧ u.tgt = 0x00000000#32 ∧ u.k = 0x00000000#32 ∧
        u.km = 0x3F800000#32) ∧
      (∀ u ∈ t.osc, u.r = 0x3F800000#32 ∧ u.i = 0x00000000#32 ∧ u.dr = 0x3F800000#32 ∧
        u.di = 0x00000000#32) ∧
      (∀ z ∈ t.nz, z.h1 = 0x00000000#32 ∧ z.h2 = 0x00000000#32 ∧ z.rho = 0x00000000#32) ∧
      t.tanhA = s.tanhA ∧ t.ampEps = s.ampEps

/-- The host's actions besides commands: a reset loses the responses not yet taken (R301) and keeps the
host's sequence; a take removes the oldest response and nothing else; with no action the state does not
change (R62). How untaken responses and actions to come are held is the model's choice (log entries 4
and 5). -/
def Obligations.HostActionsBesideCommands : Prop :=
  (∀ (s : State) (rest : List HostAction), s.inputs = .reset :: rest →
    ∃ t, step s = .next t ∧ t.responses = [] ∧ t.inputs = rest) ∧
  (∀ (s : State) (rest : List HostAction), s.inputs = .take :: rest →
    step s = .next { s with inputs := rest, responses := s.responses.tail }) ∧
  (∀ s : State, s.inputs = [] → step s = .next s)

/-- A configuration is refused exactly where an instance count is 0 or above 256 (U12) or AMP_EPS is
not positive (U9). -/
def Obligations.BootRefusesBadParameters : Prop :=
  ∀ p : Config.Params,
    (boot p = .refused .badParameters ↔
      (p.nlin = 0 ∨ 256 < p.nlin) ∨ (p.nlag = 0 ∨ 256 < p.nlag) ∨ (p.nosc = 0 ∨ 256 < p.nosc) ∨
        (p.nnz = 0 ∨ 256 < p.nnz) ∨ flt 0x00000000#32 p.ampEps = false) ∧
    (boot p ≠ .refused .badParameters → boot p = .next (State.resetWith p))

/-- R15: from the state right after reset, for every accepted configuration and every sequence of host
actions, every state that a run reaches is good and has a next state: nothing traps and nothing
hangs. -/
def Obligations.EveryReachableStateIsGoodAndGoesOn : Prop :=
  ∀ (p : Config.Params) (acts : List HostAction) (s : State), p.accepted = true →
    Reaches { State.resetWith p with inputs := acts } s → s.Inv ∧ ∃ t, step s = .next t

/-- No step changes the parameters of R6 that the state carries: the instance counts, TANH_A and
AMP_EPS (R14). -/
def Obligations.ParametersNeverChange : Prop :=
  ∀ s t : State, step s = .next t →
    t.lin.length = s.lin.length ∧ t.lag.length = s.lag.length ∧ t.osc.length = s.osc.length ∧
      t.nz.length = s.nz.length ∧ t.tanhA = s.tanhA ∧ t.ampEps = s.ampEps

/-- R24, R281: `STATUS.ILL` is set by an illegal command and by nothing else, and only a reset clears
it. -/
def Obligations.IllFlagIsSticky : Prop :=
  ∀ s t : State, step s = .next t →
    (s.status.getLsbD 0 = true → s.inputs.head? ≠ some .reset → t.status.getLsbD 0 = true) ∧
    (s.status.getLsbD 0 = false → t.status.getLsbD 0 = true →
      ∃ cmd arg, s.inputs.head? = some (.command cmd arg) ∧ isIllegal s.counts cmd = true) ∧
    (s.inputs.head? = some .reset → t.status.getLsbD 0 = false)

/-- R32, the writes: a command changes no instance but the one it addresses, `PRBS` only if it is
`sys.seed` or draws from it, `STATUS` only if it is illegal. -/
def Obligations.InstancesAreNotDisturbed : Prop :=
  ∀ (i : Instr) (s t : State), exec i s = .next t →
    (∀ m, ¬ Addresses i .lin m → t.lin[m]? = s.lin[m]?) ∧
    (∀ m, ¬ Addresses i .lag m → t.lag[m]? = s.lag[m]?) ∧
    (∀ m, ¬ Addresses i .osc m → t.osc[m]? = s.osc[m]?) ∧
    (∀ m, ¬ Addresses i .nz m → t.nz[m]? = s.nz[m]?) ∧
    ((∀ w, i ≠ .sysSeed w) → (∀ n, i ≠ .nzStep1 n) → (∀ n, i ≠ .nzStep2 n) → t.prbs = s.prbs) ∧
    (i.wellFormed s.counts = true → t.status = s.status) ∧ t.inputs = s.inputs

/-- R32, the reads: two states that agree on what a command reads give the same response and the same
instance after it, whatever else differs between them. -/
def Obligations.ResponseDependsOnOwnInstanceOnly : Prop :=
  ∀ (i : Instr) (s s' : State), AgreeFor i s s' →
    ∃ r t t', exec i s = .next t ∧ exec i s' = .next t' ∧
      t.responses = s.responses ++ [r] ∧ t'.responses = s'.responses ++ [r] ∧
      (∀ m, Addresses i .lin m → t.lin[m]? = t'.lin[m]?) ∧
      (∀ m, Addresses i .lag m → t.lag[m]? = t'.lag[m]?) ∧
      (∀ m, Addresses i .osc m → t.osc[m]? = t'.osc[m]?) ∧
      (∀ m, Addresses i .nz m → t.nz[m]? = t'.nz[m]?) ∧
      (usesPrbs i = true → t.prbs = t'.prbs)

/-- R69: two commands on different instances or different units commute, with the same two responses,
but for two that both touch `PRBS`, and an illegal command with `sys.status`. -/
def Obligations.IndependentCommandsCommute : Prop :=
  ∀ (i j : Instr) (s : State), (i.unit ≠ j.unit ∨ i.inst? ≠ j.inst?) →
    ¬(usesPrbs i = true ∧ usesPrbs j = true) →
    ¬(i = .sysStatus ∧ j.wellFormed s.counts = false) →
    ¬(j = .sysStatus ∧ i.wellFormed s.counts = false) →
      ∃ ri rj ti tj tij tji,
        exec i s = .next ti ∧ exec j ti = .next tij ∧ exec j s = .next tj ∧ exec i tj = .next tji ∧
        tij.responses = s.responses ++ [ri, rj] ∧ tji.responses = s.responses ++ [rj, ri] ∧
        { tij with responses := [] } = { tji with responses := [] }

/-- R65: a legal command without a side effect only answers, so that it may be repeated or dropped;
a command R65 calls idempotent leaves, executed twice, the state it leaves executed once, with the same
response both times. -/
def Obligations.SilentAndIdempotentCommands : Prop :=
  (∀ (i : Instr) (s : State), isSilent i = true → i.wellFormed s.counts = true →
    ∃ v, exec i s = .next (answered s v)) ∧
  (∀ (i : Instr) (s : State), isSilent i = true ∨ isSetter i = true →
    i.wellFormed s.counts = true →
    ∃ t v, exec i s = .next t ∧ t.responses = s.responses ++ [{ err := false, res := v }] ∧
      exec i t = .next (answered t v))

/-- R62, R282: a sequence of commands, run from any state, is answered command by command in order,
with `ERR = 1` exactly at the illegal ones, and with none of them it leaves `STATUS` as it was. -/
def Obligations.SequenceIsAnsweredInOrder : Prop :=
  ∀ (cmds : List (Word × Word)) (s : State), s.inputs = commandActions cmds →
    ∃ (t : State) (rs : List Response),
      Host.Core.run Sys2Proof.core cmds.length s = .next t ∧ t.inputs = [] ∧
      t.responses = s.responses ++ rs ∧
      rs.map Response.err = cmds.map (fun p => isIllegal s.counts p.1) ∧
      (legalSequence s.counts cmds = true → t.status = s.status)

/-! ## The commands: result, completion and frame, the encoding and the illegal index with them -/

/-- R141 to R144: `sys.nop` answers zero, `sys.status` the status register (its reserved bits read as
zero: R24, log entry 8), `sys.prbs` the shift register, and none of these three changes an element; `sys.seed` stores its word,
and 1 for the word zero. -/
def Obligations.SysCommands : Prop :=
  GlobalCommand 0x00#8 (fun _ => .sysNop) (fun _ s => (s, 0x00000000#32)) ∧
  GlobalCommand 0x01#8 (fun _ => .sysStatus)
    (fun _ s => (s, if s.status.getLsbD 0 then 0x00000001#32 else 0x00000000#32)) ∧
  GlobalCommand 0x03#8 (fun _ => .sysPrbs) (fun _ s => (s, s.prbs)) ∧
  GlobalCommand 0x02#8 (fun w => .sysSeed w)
    (fun w s => ({ s with prbs := if w = 0x00000000#32 then 0x00000001#32 else w }, 0x00000000#32))

/-- R150, R170, R190, R235: the `*.init` commands give one instance its reset values (R36) and change
nothing else. -/
def Obligations.InitCommands : Prop :=
  LinCommand 0x10#8 (fun n _ => .linInit n)
    (fun _ _ => ({ cur := 0x00000000#32, tgt := 0x00000000#32, inc := 0x00000000#32,
                   ibl := 0x3F800000#32, first := true, skip := false }, 0x00000000#32)) ∧
  LagCommand 0x20#8 (fun n _ => .lagInit n)
    (fun _ _ => ({ cur := 0x00000000#32, tgt := 0x00000000#32, k := 0x00000000#32,
                   km := 0x3F800000#32 }, 0x00000000#32)) ∧
  OscCommand 0x30#8 (fun n _ => .oscInit n)
    (fun _ _ => ({ r := 0x3F800000#32, i := 0x00000000#32, dr := 0x3F800000#32,
                   di := 0x00000000#32 }, 0x00000000#32)) ∧
  NzCommand 0x40#8 (fun n _ => .nzInit n) id
    (fun _ _ _ => ({ h1 := 0x00000000#32, h2 := 0x00000000#32, rho := 0x00000000#32 },
      0x00000000#32))

/-- R157, R158, R177, R178, R195, R196: the reads return the element unchanged and change nothing. -/
def Obligations.ReadCommands : Prop :=
  LinCommand 0x16#8 (fun n _ => .linGetcur n) (fun _ u => (u, u.cur)) ∧
  LinCommand 0x17#8 (fun n _ => .linGettgt n) (fun _ u => (u, u.tgt)) ∧
  LagCommand 0x26#8 (fun n _ => .lagGetcur n) (fun _ u => (u, u.cur)) ∧
  LagCommand 0x27#8 (fun n _ => .lagGettgt n) (fun _ u => (u, u.tgt)) ∧
  OscCommand 0x34#8 (fun n _ => .oscGetr n) (fun _ u => (u, u.r)) ∧
  OscCommand 0x35#8 (fun n _ => .oscGeti n) (fun _ u => (u, u.i))

/-- R151, R153: `lin.setblk` stores the reciprocal of its operand and leaves a ramp in progress alone;
`lin.cfg` stores `ARG[0]`. -/
def Obligations.LinSetblkAndCfgCommands : Prop :=
  LinCommand 0x11#8 (fun n v => .linSetblk n v)
    (fun v u => ({ u with ibl := fdiv 0x3F800000#32 v }, 0x00000000#32)) ∧
  LinCommand 0x12#8 (fun n v => .linCfg n (v.getLsbD 0))
    (fun v u => ({ u with skip := v.getLsbD 0 }, 0x00000000#32))

/-- R154: `lin.settgt` jumps where `first` and `skip` are both 1, else stores the target and the
increment from the present value; `first` is cleared. -/
def Obligations.LinSettgtCommand : Prop :=
  LinCommand 0x13#8 (fun n v => .linSettgt n v)
    (fun v u =>
      (if u.first = true ∧ u.skip = true then
        { cur := v, tgt := v, inc := 0x00000000#32, ibl := u.ibl, first := false, skip := u.skip }
       else
        { cur := u.cur, tgt := v, inc := fmul (fsub v u.cur) u.ibl, ibl := u.ibl, first := false,
          skip := u.skip },
       0x00000000#32))

/-- R155, R156: `lin.adv` adds the increment and returns the new value; `lin.snap` copies the target
bit for bit and zeroes the increment. -/
def Obligations.LinAdvAndSnapCommands : Prop :=
  LinCommand 0x14#8 (fun n _ => .linAdv n)
    (fun _ u => ({ u with cur := fadd u.cur u.inc }, fadd u.cur u.inc)) ∧
  LinCommand 0x15#8 (fun n _ => .linSnap n)
    (fun _ u => ({ u with cur := u.tgt, inc := 0x00000000#32 }, 0x00000000#32))

/-- R171, R173, R174, R176: `lag.setk` stores its operand unchecked and the complement rounded once;
`lag.settgt` writes the target alone, `lag.setimm` value and target, `lag.snap` the value from the
target, all bit for bit. -/
def Obligations.LagSetCommands : Prop :=
  LagCommand 0x21#8 (fun n v => .lagSetk n v)
    (fun v u => ({ u with k := v, km := fsub 0x3F800000#32 v }, 0x00000000#32)) ∧
  LagCommand 0x22#8 (fun n v => .lagSettgt n v)
    (fun v u => ({ u with tgt := v }, 0x00000000#32)) ∧
  LagCommand 0x23#8 (fun n v => .lagSetimm n v)
    (fun v u => ({ u with cur := v, tgt := v }, 0x00000000#32)) ∧
  LagCommand 0x25#8 (fun n _ => .lagSnap n)
    (fun _ u => ({ u with cur := u.tgt }, 0x00000000#32))

/-- R175: `lag.adv` adds the two rounded products and returns the new value. -/
def Obligations.LagAdvCommand : Prop :=
  LagCommand 0x24#8 (fun n _ => .lagAdv n)
    (fun _ u =>
      let c := fadd (fmul u.cur u.km) (fmul u.tgt u.k)
      ({ u with cur := c }, c))

/-- R191 with R193: `osc.setrate` stores the rotation and renormalises the point. R192: `osc.setphase`
writes the point and keeps the rotation. -/
def Obligations.OscSetCommands : Prop :=
  OscCommand 0x31#8 (fun n v => .oscSetrate n v)
    (fun v u =>
      let m := fadd (fmul u.r u.r) (fmul u.i u.i)
      let s := fdiv 0x3F800000#32 (fsqrt m)
      ({ r := fmul u.r s, i := fmul u.i s, dr := fcos v, di := fsin v }, 0x00000000#32)) ∧
  OscCommand 0x32#8 (fun n v => .oscSetphase n v)
    (fun v u => ({ r := fcos v, i := fsin v, dr := u.dr, di := u.di }, 0x00000000#32))

/-- R194: `osc.adv` computes both components from the old point and returns the new `r`. -/
def Obligations.OscAdvCommand : Prop :=
  OscCommand 0x33#8 (fun n _ => .oscAdv n)
    (fun _ u =>
      let r1 := fsub (fmul u.dr u.r) (fmul u.di u.i)
      let i1 := fadd (fmul u.dr u.i) (fmul u.di u.r)
      ({ r := r1, i := i1, dr := u.dr, di := u.di }, r1))

/-- R236, R237: `nz.rst` zeroes the history and keeps the coefficient; `nz.setcorr` stores the
coefficient unchecked; neither touches `PRBS`. -/
def Obligations.NzRstAndSetcorrCommands : Prop :=
  NzCommand 0x41#8 (fun n _ => .nzRst n) id
    (fun _ _ z => ({ h1 := 0x00000000#32, h2 := 0x00000000#32, rho := z.rho }, 0x00000000#32)) ∧
  NzCommand 0x42#8 (fun n v => .nzSetcorr n v) id
    (fun _ v z => ({ z with rho := v }, 0x00000000#32))

/-- R238, R239 with R233: the first-order steps, the one with a draw from `PRBS` after its thirty-two
shifts, the other with the draw in `ARG` and `PRBS` untouched. -/
def Obligations.NzFirstOrderSteps : Prop :=
  NzCommand 0x43#8 (fun n _ => .nzStep1 n) (fun p => prbsStep^[32] p)
    (fun p _ z =>
      let u := scale23 (p.extractLsb' 8 24)
      let y := fadd (fmul u (fsub 0x3F800000#32 z.rho)) (fmul z.h1 z.rho)
      ({ z with h1 := y }, y)) ∧
  NzCommand 0x44#8 (fun n v => .nzStep1x n v) id
    (fun _ u z =>
      let y := fadd (fmul u (fsub 0x3F800000#32 z.rho)) (fmul z.h1 z.rho)
      ({ z with h1 := y }, y))

/-- R240, R241 with R234: the second-order steps, as the first-order ones. -/
def Obligations.NzSecondOrderSteps : Prop :=
  NzCommand 0x45#8 (fun n _ => .nzStep2 n) (fun p => prbsStep^[32] p)
    (fun p _ z =>
      let u := scale23 (p.extractLsb' 8 24)
      let c := fsub 0x3F800000#32 z.rho
      let s := fadd (fmul u c) (fmul z.h2 z.rho)
      let y := fadd (fmul s c) (fmul z.h1 z.rho)
      ({ z with h1 := y, h2 := s }, y)) ∧
  NzCommand 0x46#8 (fun n v => .nzStep2x n v) id
    (fun _ u z =>
      let c := fsub 0x3F800000#32 z.rho
      let s := fadd (fmul u c) (fmul z.h2 z.rho)
      let y := fadd (fmul s c) (fmul z.h1 z.rho)
      ({ z with h1 := y, h2 := s }, y))

/-- R261, R262, R263: the denormal flush and the two clamps. -/
def Obligations.FlushAndClampCommands : Prop :=
  FnCommand 0x50#8 (fun x => .fnFlush x)
    (fun x _ => if flt (fabs x) 0x0DA24260#32 then 0x00000000#32 else x) ∧
  FnCommand 0x51#8 (fun x => .fnClamp01 x)
    (fun x _ =>
      if fgt x 0x3F800000#32 then 0x3F800000#32
      else if flt x 0x00000000#32 then 0x00000000#32 else x) ∧
  FnCommand 0x52#8 (fun x => .fnClamp1bp x)
    (fun x _ =>
      if fgt x 0x3F800000#32 then 0x3F800000#32
      else if flt x 0xBF800000#32 then 0xBF800000#32 else x)

/-- R264, R265: the two tanh approximations, `fn.tanhf` with the block's TANH_A. -/
def Obligations.TanhCommands : Prop :=
  FnCommand 0x53#8 (fun x => .fnTanhf x)
    (fun x s =>
      let ax := fabs x
      let xx := fmul ax ax
      let d := fadd (fadd (fadd 0x3F800000#32 ax) xx) (fmul (fmul s.tanhA ax) xx)
      copysign (fsub 0x3F800000#32 (fdiv 0x3F800000#32 d)) x) ∧
  FnCommand 0x54#8 (fun x => .fnTanhp x)
    (fun x _ =>
      let xs := fmul x x
      let y := fadd (fadd 0x3F800000#32 (fmul xs 0xBEAAAAAB#32))
        (fmul (fmul xs xs) 0x3E088889#32)
      fmul y x)

/-- R211, R212: amp to linear and back, `fn.l2a` with the block's AMP_EPS. -/
def Obligations.AmpLinearCommands : Prop :=
  FnCommand 0x55#8 (fun x => .fnA2l x)
    (fun x _ =>
      let x0 := if flt x 0x00000000#32 then 0x00000000#32 else x
      fmul (fmul x0 x0) x0) ∧
  FnCommand 0x56#8 (fun x => .fnL2a x)
    (fun x s => fcbrt (if flt x s.ampEps then s.ampEps else x))

/-- R213, R214, R215: amp to decibels and back, through the output clamp. -/
def Obligations.DecibelCommands : Prop :=
  FnCommand 0x57#8 (fun x => .fnA2db x)
    (fun x _ => clamped (fmul 0x41900000#32 (flog2 x)) 0xC3400000#32 0x42C00000#32) ∧
  FnCommand 0x58#8 (fun x => .fnDb2a x)
    (fun x _ => clamped (fexp2 (fdiv x 0x41900000#32)) 0x00000000#32 0x40000000#32)

/-! ## What the commands amount to -/

/-- R152: `first` goes from 0 to 1 by `lin.init` of that instance alone, `lin.settgt` clears it, and
no other command changes it. -/
def Obligations.FirstUpdateBitChanges : Prop :=
  ∀ (i : Instr) (s t : State) (m : Nat) (u u' : LinUnit), exec i s = .next t →
    s.lin[m]? = some u → t.lin[m]? = some u' →
      (u'.first ≠ u.first →
        (∃ n : BitVec 8, i = .linInit n ∧ n.toNat = m) ∨
          ∃ (n : BitVec 8) (v : Word), i = .linSettgt n v ∧ n.toNat = m) ∧
      (∀ (n : BitVec 8) (v : Word), i = .linSettgt n v → n.toNat = m → u'.first = false) ∧
      (∀ n : BitVec 8, i = .linInit n → n.toNat = m → u'.first = true)

/-- R159: an advance of the linear ramp never moves against its increment, and a run of advances is
monotone: from finite values, `cur` is at most (at least) its successor where the increment is not
negative (not positive). -/
def Obligations.LinRampIsMonotone : Prop :=
  ∀ (n : BitVec 8) (s : State) (u : LinUnit), s.lin[n.toNat]? = some u → IsFinite u.cur →
    IsFinite u.inc →
      ∃ t u', exec (.linAdv n) s = .next t ∧ t.lin[n.toNat]? = some u' ∧
        (0 ≤ value u.inc → fle u.cur u'.cur = true) ∧
        (value u.inc ≤ 0 → fle u'.cur u.cur = true)

/-- R156: after `lin.snap`, `lin.adv` returns the target and leaves `cur` at it, for every target but
`-0` (which becomes `+0`) and a NaN (which becomes cNaN). -/
def Obligations.SnapHoldsTheTarget : Prop :=
  ∀ (n : BitVec 8) (s : State) (u : LinUnit), s.lin[n.toNat]? = some u →
    ∃ t t' u', exec (.linSnap n) s = .next t ∧ exec (.linAdv n) t = .next t' ∧
      t'.lin[n.toNat]? = some u' ∧
      u'.cur = (if isNaN u.tgt then 0x7FC00000#32
        else if u.tgt = 0x80000000#32 then 0x00000000#32 else u.tgt) ∧
      t'.responses = s.responses ++ [{ err := false, res := 0#32 }, { err := false, res := u'.cur }]

/-- R175 (a), (b): with `k = +0` and its complement `lag.adv` leaves a finite `cur` other than zero where
it is, for every finite target; with `k = 1.0` and its complement it takes the target at once. -/
def Obligations.LagDegenerateCoefficients : Prop :=
  ∀ (n : BitVec 8) (s : State) (u : LagUnit), s.lag[n.toNat]? = some u → IsFinite u.cur →
    IsFinite u.tgt →
      (u.k = 0x00000000#32 → u.km = 0x3F800000#32 → value u.cur ≠ 0 →
        exec (.lagAdv n) s = .next (answered s u.cur)) ∧
      (u.k = 0x3F800000#32 → u.km = 0x00000000#32 → value u.tgt ≠ 0 →
        exec (.lagAdv n) s =
          .next (answered { s with lag := s.lag.set n.toNat { u with cur := u.tgt } } u.tgt))

/-- R194 (c): at rate zero, `(dr, di) = (1.0, +0)`, `osc.adv` leaves a finite point without a zero
component where it is. -/
def Obligations.OscAtRateZeroStandsStill : Prop :=
  ∀ (n : BitVec 8) (s : State) (u : OscUnit), s.osc[n.toNat]? = some u → u.dr = 0x3F800000#32 →
    u.di = 0x00000000#32 → IsFinite u.r → IsFinite u.i → value u.r ≠ 0 → value u.i ≠ 0 →
      exec (.oscAdv n) s = .next (answered s u.r)

/-- R242: with `rho = 1.0` a step with a finite draw answers the history, whatever the draw; with
`rho = +0` it answers the draw, whatever the finite history. -/
def Obligations.NoiseAtTheEndsOfCorrelation : Prop :=
  ∀ (n : BitVec 8) (s : State) (z : NzUnit) (x : Word), s.nz[n.toNat]? = some z → IsFinite x →
    IsFinite z.h1 →
      (z.rho = 0x3F800000#32 → value z.h1 ≠ 0 →
        exec (.nzStep1x n x) s = .next (answered s z.h1)) ∧
      (z.rho = 0x00000000#32 → value x ≠ 0 →
        exec (.nzStep1x n x) s =
          .next (answered { s with nz := s.nz.set n.toNat { z with h1 := x } } x))

/-- R230, R239: a storage-bound step does to its instance, and answers, what the supplied-draw step does
with the draw `PRBS` gives; they differ in `PRBS` alone. -/
def Obligations.StorageBoundEqualsSuppliedDraw : Prop :=
  ∀ (n : BitVec 8) (s t1 t2 tx1 tx2 : State),
    exec (.nzStep1 n) s = .next t1 → exec (.nzStep2 n) s = .next t2 →
    exec (.nzStep1x n (prbsValue (prbsNext s.prbs))) s = .next tx1 →
    exec (.nzStep2x n (prbsValue (prbsNext s.prbs))) s = .next tx2 →
      { t1 with prbs := s.prbs } = tx1 ∧ { t2 with prbs := s.prbs } = tx2 ∧ t1.prbs = t2.prbs

/-! ## The random source -/

/-- R231: one shift of the register, its fixed point zero, that it is a bijection (so a state that is not
zero never becomes zero), and its first steps from 1. -/
def Obligations.PrbsStepIsABijection : Prop :=
  (∀ s : Word, prbsStep s =
    if s.getLsbD 0 then (s >>> 1) ^^^ 0x80200003#32 else s >>> 1) ∧
  prbsStep 0x00000000#32 = 0x00000000#32 ∧ Function.Bijective prbsStep ∧
  (∀ s : Word, s ≠ 0#32 → prbsStep s ≠ 0#32) ∧
  prbsStep 0x00000001#32 = 0x80200003#32 ∧ prbsStep 0x80200003#32 = 0xC0300002#32 ∧
  prbsStep 0xC0300002#32 = 0x60180001#32 ∧ prbsStep 0x60180001#32 = 0xB02C0003#32 ∧
  prbsStep 0xB02C0003#32 = 0xD8360002#32

/-- R232, R127: a draw is exactly the signed number in bits 31:8 of the shifted register times 2^-23, so
it lies in [-1, 1) on the grid of 2^-23; the conversion of a 24-bit number is exact. -/
def Obligations.DrawsAreExact : Prop :=
  i2f24 0#24 = 0x00000000#32 ∧
  (∀ v : BitVec 24, IsFinite (i2f24 v) ∧ value (i2f24 v) = v.toInt ∧
    scale23 v = fmul (i2f24 v) 0x34000000#32 ∧
    IsFinite (scale23 v) ∧ value (scale23 v) = (v.toInt : ℚ) / 2 ^ 23) ∧
  (∀ s : Word, value (prbsValue s) = ((s.extractLsb' 8 24).toInt : ℚ) / 2 ^ 23 ∧
    -1 ≤ value (prbsValue s) ∧ value (prbsValue s) < 1)

/-! ## The numeric format and the primitives -/

/-- R110: the classes of words, and the value of the finite ones. -/
def Obligations.FormatClassesAndValues : Prop :=
  ∀ a : Word,
    (isNaN a = true ↔ IsNaN a) ∧ (isInf a = true ↔ IsInf a) ∧ (isFinite a = true ↔ IsFinite a) ∧
    (isZero a = true ↔ expField a = 0 ∧ fracField a = 0) ∧ (signBit a = a.getLsbD 31) ∧
    (IsFinite a → (units a : ℚ) = value a * 2 ^ 149)

/-- R116: `fadd` and `fsub`: NaNs, infinities, the sign of a zero sum, and one rounding of the exact sum
(R112). -/
def Obligations.AdditionRoundsOnce : Prop :=
  ∀ a b : Word,
    fsub a b = fadd a (negated b) ∧
    (IsNaN a ∨ IsNaN b → fadd a b = 0x7FC00000#32) ∧
    (IsInf a → IsInf b → a ≠ b → fadd a b = 0x7FC00000#32) ∧
    (IsInf a → (IsFinite b ∨ b = a) → fadd a b = a ∧ fadd b a = a) ∧
    (IsFinite a → IsFinite b → value a + value b = 0 →
      fadd a b = if a = 0x80000000#32 ∧ b = 0x80000000#32 then 0x80000000#32 else 0x00000000#32) ∧
    (IsFinite a → IsFinite b → value a + value b ≠ 0 →
      IsRounded ((value a + value b : ℚ) : ℝ) (fadd a b))

/-- R117: `fmul`: NaNs, zero times infinity, the sign, and one rounding of the exact product (R112). -/
def Obligations.MultiplicationRoundsOnce : Prop :=
  ∀ a b : Word,
    (IsNaN a ∨ IsNaN b → fmul a b = 0x7FC00000#32) ∧
    (IsInf a → IsFinite b → value b = 0 → fmul a b = 0x7FC00000#32 ∧ fmul b a = 0x7FC00000#32) ∧
    (IsInf a → (IsInf b ∨ IsFinite b ∧ value b ≠ 0) →
      IsInf (fmul a b) ∧ fmul b a = fmul a b ∧ (fmul a b).msb = (a.msb ^^ b.msb)) ∧
    (IsFinite a → IsFinite b →
      IsRounded ((value a * value b : ℚ) : ℝ) (fmul a b) ∧ (fmul a b).msb = (a.msb ^^ b.msb))

/-- R118: `fdiv`: NaNs, the invalid quotients, zeros and infinities, the sign, and one rounding of the
exact quotient (R112). -/
def Obligations.DivisionRoundsOnce : Prop :=
  ∀ a b : Word,
    (IsNaN a ∨ IsNaN b → fdiv a b = 0x7FC00000#32) ∧
    (IsInf a → IsInf b → fdiv a b = 0x7FC00000#32) ∧
    (IsFinite a → IsFinite b → value a = 0 → value b = 0 → fdiv a b = 0x7FC00000#32) ∧
    (IsInf a → IsFinite b → IsInf (fdiv a b) ∧ (fdiv a b).msb = (a.msb ^^ b.msb)) ∧
    (IsFinite a → value a ≠ 0 → IsFinite b → value b = 0 →
      IsInf (fdiv a b) ∧ (fdiv a b).msb = (a.msb ^^ b.msb)) ∧
    (IsFinite a → IsInf b →
      IsFinite (fdiv a b) ∧ value (fdiv a b) = 0 ∧ (fdiv a b).msb = (a.msb ^^ b.msb)) ∧
    (IsFinite a → IsFinite b → value b ≠ 0 →
      IsRounded ((value a / value b : ℚ) : ℝ) (fdiv a b) ∧ (fdiv a b).msb = (a.msb ^^ b.msb))

/-- R119: `fsqrt`: NaNs and negative values, zeros and the infinity, and one rounding of the exact square
root (R112). -/
def Obligations.SquareRootRoundsOnce : Prop :=
  ∀ a : Word,
    (IsNaN a → fsqrt a = 0x7FC00000#32) ∧
    (a.msb = true → ¬ IsNaN a → a ≠ 0x80000000#32 → fsqrt a = 0x7FC00000#32) ∧
    fsqrt 0x00000000#32 = 0x00000000#32 ∧ fsqrt 0x80000000#32 = 0x80000000#32 ∧
    fsqrt 0x7F800000#32 = 0x7F800000#32 ∧
    (IsFinite a → 0 < value a → IsRounded (Real.sqrt (value a : ℝ)) (fsqrt a))

/-- R113: whenever one of the ten operations returns a NaN, it is the canonical one. -/
def Obligations.NaNResultsAreCanonical : Prop :=
  ∀ a b : Word,
    (IsNaN (fadd a b) → fadd a b = 0x7FC00000#32) ∧
    (IsNaN (fsub a b) → fsub a b = 0x7FC00000#32) ∧
    (IsNaN (fmul a b) → fmul a b = 0x7FC00000#32) ∧
    (IsNaN (fdiv a b) → fdiv a b = 0x7FC00000#32) ∧
    (IsNaN (fsqrt a) → fsqrt a = 0x7FC00000#32) ∧
    (IsNaN (fcos a) → fcos a = 0x7FC00000#32) ∧
    (IsNaN (fsin a) → fsin a = 0x7FC00000#32) ∧
    (IsNaN (flog2 a) → flog2 a = 0x7FC00000#32) ∧
    (IsNaN (fexp2 a) → fexp2 a = 0x7FC00000#32) ∧
    (IsNaN (fcbrt a) → fcbrt a = 0x7FC00000#32)

/-- R121: the comparisons order the real numbers extended with the infinities, and are false where an
operand is a NaN. -/
def Obligations.ComparisonsOrderTheExtendedReals : Prop :=
  ∀ a b : Word,
    (flt a b = true ↔ ¬ IsNaN a ∧ ¬ IsNaN b ∧ place a < place b) ∧
    (fle a b = true ↔ ¬ IsNaN a ∧ ¬ IsNaN b ∧ place a ≤ place b) ∧
    fgt a b = flt b a ∧ fge a b = fle b a

/-! ## The configuration functions -/

/-- R126, all of its named properties: exact cubes, zeros, infinities, NaNs, oddness, monotonicity, and
a finite result that is the greatest value not above the real cube root or the least not below it. -/
def Obligations.CubeRootProperties : Prop :=
  (∀ x y : Word, IsFinite x → IsFinite y → value y ^ 3 = value x → value x ≠ 0 → fcbrt x = y) ∧
  fcbrt 0x00000000#32 = 0x00000000#32 ∧ fcbrt 0x80000000#32 = 0x80000000#32 ∧
  fcbrt 0x7F800000#32 = 0x7F800000#32 ∧ fcbrt 0xFF800000#32 = 0xFF800000#32 ∧
  (∀ x, IsNaN x → fcbrt x = 0x7FC00000#32) ∧
  (∀ x, ¬ IsNaN x → fcbrt (negated x) = negated (fcbrt x)) ∧
  (∀ a b, fle a b = true → fle (fcbrt a) (fcbrt b) = true) ∧
  (∀ x, IsFinite x → IsFinite (fcbrt x) ∧
    ((value (fcbrt x) ^ 3 ≤ value x ∧
        ∀ y, IsFinite y → value (fcbrt x) < value y → value x < value y ^ 3) ∨
      (value x ≤ value (fcbrt x) ^ 3 ∧
        ∀ y, IsFinite y → value y < value (fcbrt x) → value y ^ 3 < value x)))

/-- R122, R123, all named properties but the faithfulness and what is derived from it: zero arguments,
range, symmetry, arguments that are not finite. -/
def Obligations.CosineAndSineProperties : Prop :=
  fcos 0x00000000#32 = 0x3F800000#32 ∧ fcos 0x80000000#32 = 0x3F800000#32 ∧
  fsin 0x00000000#32 = 0x00000000#32 ∧ fsin 0x80000000#32 = 0x80000000#32 ∧
  (∀ x, IsFinite x → ¬ IsNaN (fcos x) ∧ fle (fabs (fcos x)) 0x3F800000#32 = true ∧
    ¬ IsNaN (fsin x) ∧ fle (fabs (fsin x)) 0x3F800000#32 = true) ∧
  (∀ x, fcos (negated x) = fcos x) ∧
  (∀ x, IsFinite x → fsin (negated x) = negated (fsin x)) ∧
  (∀ x, ¬ IsFinite x → fcos x = 0x7FC00000#32 ∧ fsin x = 0x7FC00000#32)

/-- R124, the named properties with an exact value: powers of two, zeros, negative arguments, the
infinity, NaNs. -/
def Obligations.LogarithmExactValues : Prop :=
  (∀ (k : ℤ) (x : Word), -149 ≤ k → k ≤ 127 → IsFinite x → value x = 2 ^ k →
    IsFinite (flog2 x) ∧ value (flog2 x) = k ∧ (k = 0 → flog2 x = 0x00000000#32)) ∧
  flog2 0x00000000#32 = 0xFF800000#32 ∧ flog2 0x80000000#32 = 0xFF800000#32 ∧
  (∀ x : Word, x.msb = true → x ≠ 0x80000000#32 → flog2 x = 0x7FC00000#32) ∧
  flog2 0x7F800000#32 = 0x7F800000#32 ∧ (∀ x, IsNaN x → flog2 x = 0x7FC00000#32)

/-- R125, the named properties but monotonicity and faithfulness: whole arguments, overflow, underflow,
the sign, NaNs. -/
def Obligations.PowerOfTwoExactValues : Prop :=
  (∀ (k : ℤ) (x : Word), -149 ≤ k → k ≤ 127 → IsFinite x → value x = k →
    IsFinite (fexp2 x) ∧ value (fexp2 x) = 2 ^ k) ∧
  (∀ x, fge x 0x43000000#32 = true → fexp2 x = 0x7F800000#32) ∧
  (∀ x, fle x 0xC3160000#32 = true → fexp2 x = 0x00000000#32) ∧
  (∀ x, ¬ IsNaN x → (fexp2 x).msb = false ∧ ¬ IsNaN (fexp2 x)) ∧
  (∀ x, IsNaN x → fexp2 x = 0x7FC00000#32)

/-- R213: the output clamp saturates to its bounds, maps a NaN to the lower one and passes what lies
between bit for bit; so `fn.a2db` answers from -192 to 96 and `fn.db2a` from 0 to 2, never a NaN or an
infinity (R312), for every `ARG`. -/
def Obligations.OutputClampGuardsTheDecibelPair : Prop :=
  (∀ v lo hi : Word, fle lo hi = true →
    fle lo (clampout v lo hi) = true ∧ fle (clampout v lo hi) hi = true ∧
    (IsNaN v → clampout v lo hi = lo) ∧ (fgt v hi = true → clampout v lo hi = hi) ∧
    (flt v lo = true → clampout v lo hi = lo) ∧
    (fle lo v = true → fle v hi = true → clampout v lo hi = v)) ∧
  (∀ (x : Word) (s t : State), exec (.fnA2db x) s = .next t →
    ∃ r, t = answered s r ∧ fle 0xC3400000#32 r = true ∧ fle r 0x42C00000#32 = true) ∧
  (∀ (x : Word) (s t : State), exec (.fnDb2a x) s = .next t →
    ∃ r, t = answered s r ∧ fle 0x00000000#32 r = true ∧ fle r 0x40000000#32 = true)
end

