-- ==== Sys2Proof/Laws/Decode.lean ====
section
/-! SUPPORT. The fields of a command word put together and taken apart again (`spec/30_encoding.md`
R80), and the reading of an assembled operand (R81). -/

namespace Sys2Proof

/-- One bit of a command word, by the field it lies in (R80). -/
theorem getLsbD_cmdWord (n op : BitVec 8) (i : Nat) :
    (cmdWord n op).getLsbD i =
      if i < 8 then op.getLsbD i else if i < 16 then n.getLsbD (i - 8) else false := by
  have h : (cmdWord n op).getLsbD i = (0#16 ++ n ++ op : BitVec (16 + 8 + 8)).getLsbD i := rfl
  rw [h, BitVec.getLsbD_append, BitVec.getLsbD_append]
  by_cases h8 : i < 8
  · simp [h8]
  · by_cases h16 : i < 16
    · have : i - 8 < 8 := by omega
      simp [h8, h16, this]
    · have : ¬ i - 8 < 8 := by omega
      simp [h8, h16, this]

@[simp] theorem rsvField_cmdWord (n op : BitVec 8) : rsvField (cmdWord n op) = 0#16 := by
  unfold rsvField
  ext i hi
  rw [BitVec.getElem_extractLsb', getLsbD_cmdWord]
  have h8 : ¬ 16 + i < 8 := by omega
  simp [h8]

@[simp] theorem instField_cmdWord (n op : BitVec 8) : instField (cmdWord n op) = n := by
  unfold instField
  ext i hi
  rw [BitVec.getElem_extractLsb', getLsbD_cmdWord]
  have : 8 + i < 16 := by omega
  simp [this, BitVec.getLsbD_eq_getElem hi]

@[simp] theorem opField_cmdWord (n op : BitVec 8) : opField (cmdWord n op) = op := by
  unfold opField
  ext i hi
  rw [BitVec.getElem_extractLsb', getLsbD_cmdWord]
  simp [hi]

/-- A word with RSV zero is put together from its INST and OP fields. -/
theorem cmdWord_fields {cmd : Word} (h : rsvField cmd = 0#16) :
    cmdWord (instField cmd) (opField cmd) = cmd := by
  apply BitVec.eq_of_getLsbD_eq
  intro i hi
  rw [getLsbD_cmdWord]
  have hr : (rsvField cmd).getLsbD (i - 16) = false := by rw [h]; simp
  unfold rsvField at hr
  unfold instField opField
  rw [BitVec.getLsbD_extractLsb'] at hr ⊢
  rw [BitVec.getLsbD_extractLsb']
  split
  · simp [*]
  · split
    · have : i - 8 < 8 := by omega
      have e : 8 + (i - 8) = i := by omega
      simp [this, e]
    · have : i - 16 < 16 := by omega
      have e : 16 + (i - 16) = i := by omega
      simpa [this, e] using hr.symm

@[simp] theorem argFlag_flagArg (b : Bool) : argFlag (flagArg b) = b := by
  cases b <;> decide

/-- Decoding a word put together from its fields reads them. -/
theorem decode_cmdWord (n op : BitVec 8) (arg : Word) :
    decode (cmdWord n op) arg = decodeOp op n arg := by
  simp [decode]

/-- What the decoder accepts has RSV zero and is read by its opcode byte. -/
theorem decode_ok {cmd arg : Word} {i : Instr} (h : decode cmd arg = .ok i) :
    rsvField cmd = 0#16 ∧ decodeOp (opField cmd) (instField cmd) arg = .ok i := by
  unfold decode at h
  split at h
  · exact ⟨‹_›, h⟩
  · cases h

end Sys2Proof
end

