-- ==== Sys2Proof/Laws/Elementary.lean ====
section
/-! SUPPORT. What the configuration functions can answer (`spec/40_numerics.md` R122 to R126), said
once for each: on the ordinary arguments the result is one of two candidates, whichever the opaque
constants pick; where the candidates are one, the result is it. -/

namespace Sys2Proof.Machine

/-- The sign of `fcos` at a finite argument that is no zero. -/
def cosNeg (x : Word) : Bool := decide (cosApprox (unitsOfMag (mag x)) < 0)

/-- The sign of `fsin` at a finite argument that is no zero. -/
def sinNeg (x : Word) : Bool := signBit x != decide (sinApprox (unitsOfMag (mag x)) < 0)

theorem fcos_candidates {x : Word} (hf : isFinite x = true) (hz : isZero x = false) :
    fcos x = pack (cosNeg x) (cosCandidates (mag x)).1 ∨
      fcos x = pack (cosNeg x) (cosCandidates (mag x)).2 := by
  simp only [fcos, hf, hz, cosNeg]
  split
  · contradiction
  · split
    · contradiction
    · split
      · exact .inr rfl
      · exact .inl rfl

/-- A zero candidate may come with either sign (log entry 3). -/
theorem fsin_candidates {x : Word} (hf : isFinite x = true) (hz : isZero x = false) :
    fsin x = pack (sinNeg x) (sinCandidates (mag x)).1 ∨
      fsin x = pack (sinNeg x) (sinCandidates (mag x)).2 ∨
      (sinCandidates (mag x)).1 = 0 ∧ fsin x = pack (!sinNeg x) 0 := by
  have e : (signBit x != decide (sinApprox (unitsOfMag (mag x)) < 0)) = sinNeg x := rfl
  simp only [fsin, hf, hz, Bool.not_true, Bool.false_eq_true, if_false, e]
  split
  · exact .inr (.inl rfl)
  · by_cases h : (sinCandidates (mag x)).1 = 0
    · cases Config.sinZeroFlips
      · exact .inl (by simp)
      · exact .inr (.inr ⟨h, by simp [h]⟩)
    · exact .inl (by simp [h])

/-- Where the lower candidate is no zero, the sign is the exact sine's. -/
theorem fsin_candidates_of_ne_zero {x : Word} (hf : isFinite x = true) (hz : isZero x = false)
    (h : (sinCandidates (mag x)).1 ≠ 0) :
    fsin x = pack (sinNeg x) (sinCandidates (mag x)).1 ∨
      fsin x = pack (sinNeg x) (sinCandidates (mag x)).2 := by
  rcases fsin_candidates hf hz with h1 | h2 | ⟨h3, -⟩
  · exact .inl h1
  · exact .inr h2
  · exact absurd h3 h

theorem flog2_candidates {x : Word} (hn : isNaN x = false) (hz : isZero x = false)
    (hs : signBit x = false) (hi : isInf x = false)
    (hp : unitsOfMag (mag x) ≠ 2 ^ Nat.log2 (unitsOfMag (mag x))) :
    flog2 x = (logCandidates (unitsOfMag (mag x))).1 ∨
      flog2 x = (logCandidates (unitsOfMag (mag x))).2 := by
  simp only [flog2, hn, hz, hs, hi, if_neg hp, Bool.false_eq_true, if_false]
  split
  · exact .inr rfl
  · exact .inl rfl

theorem fexp2_candidates {x : Word} (hn : isNaN x = false) (hi : isInf x = false)
    (h1 : units x < 128 * 2 ^ 149) (h2 : -(150 * 2 ^ 149) < units x)
    (hw : units x % 2 ^ 149 ≠ 0) :
    fexp2 x = pack false (expCandidates (units x)).1 ∨
      fexp2 x = pack false (expCandidates (units x)).2 := by
  simp only [fexp2, hn, hi, if_neg (not_le.mpr h1), if_neg (not_le.mpr h2), if_neg hw,
    Bool.false_eq_true, if_false]
  split
  · exact .inr rfl
  · exact .inl rfl

theorem fcbrt_candidates {x : Word} (hn : isNaN x = false) (hi : isInf x = false)
    (hz : isZero x = false) :
    fcbrt x = pack (signBit x) (cbrtCandidates (unitsOfMag (mag x))).1 ∨
      fcbrt x = pack (signBit x) (cbrtCandidates (unitsOfMag (mag x))).2 := by
  simp only [fcbrt, hn, hi, hz, Bool.or_false, Bool.false_eq_true, if_false]
  split
  · exact .inr rfl
  · exact .inl rfl

end Sys2Proof.Machine
end

