-- ==== Sys2Proof/Laws/Float.lean ====
section
/-! SUPPORT. Signs and magnitudes of words, the magnitudes as a strictly increasing scale of values, and
what rounding to the nearest magnitude does (`spec/40_numerics.md` R110, R112). -/

namespace Sys2Proof.Machine

/-! ### Sign and magnitude -/

theorem mag_lt (a : Word) : mag a < 2 ^ 31 := Nat.mod_lt _ (by decide)

@[simp] theorem toNat_pack {neg : Bool} {m : Nat} (h : m < 2 ^ 31) :
    (pack neg m).toNat = m + if neg then 2 ^ 31 else 0 := by
  unfold pack
  rw [BitVec.toNat_ofNat, Nat.mod_eq_of_lt]
  cases neg <;> simp only [Bool.false_eq_true, if_false, if_true] <;> omega

@[simp] theorem mag_pack {neg : Bool} {m : Nat} (h : m < 2 ^ 31) : mag (pack neg m) = m := by
  unfold mag
  rw [toNat_pack h]
  cases neg
  · simp only [Bool.false_eq_true, if_false]
    omega
  · simp only [if_true]
    omega

@[simp] theorem signBit_pack {neg : Bool} {m : Nat} (h : m < 2 ^ 31) :
    signBit (pack neg m) = neg := by
  unfold signBit
  rw [BitVec.msb_eq_decide, toNat_pack h]
  cases neg <;> simp <;> omega

/-- A word is its sign and its magnitude. -/
@[simp] theorem pack_signBit_mag (a : Word) : pack (signBit a) (mag a) = a := by
  have hl := a.isLt
  have hs : signBit a = decide (2 ^ 31 ≤ a.toNat) := by
    unfold signBit; rw [BitVec.msb_eq_decide]
  apply BitVec.eq_of_toNat_eq
  rw [toNat_pack (mag_lt a), hs]
  unfold mag
  by_cases h : 2 ^ 31 ≤ a.toNat
  · rw [decide_eq_true h, if_pos rfl]
    omega
  · rw [decide_eq_false h, if_neg (by simp)]
    omega

theorem infMag_lt : infMag < 2 ^ 31 := by decide

/-! ### The scale of magnitudes -/

/-- A magnitude with last place `j` and significand `t` has the value `t * 2^j`. -/
theorem unitsOfMag_place {j t : Nat} (ht : t ≤ 2 ^ 24) (h : j = 0 ∨ 2 ^ 23 ≤ t) :
    unitsOfMag (j * 2 ^ 23 + t) = t * 2 ^ j := by
  unfold unitsOfMag
  by_cases hlow : t < 2 ^ 23
  · obtain rfl : j = 0 := by omega
    rw [if_pos (by omega)]
    simp
  · by_cases htop : t = 2 ^ 24
    · subst htop
      have h1 : (j * 2 ^ 23 + 2 ^ 24) / 2 ^ 23 = j + 2 := by omega
      have h2 : (j * 2 ^ 23 + 2 ^ 24) % 2 ^ 23 = 0 := by omega
      rw [if_neg (by omega), h1, h2, show j + 2 - 1 = j + 1 by omega, pow_succ]
      ring
    · have h1 : (j * 2 ^ 23 + t) / 2 ^ 23 = j + 1 := by omega
      have h2 : (j * 2 ^ 23 + t) % 2 ^ 23 = t - 2 ^ 23 := by omega
      rw [if_neg (by omega), h1, h2, show j + 1 - 1 = j by omega]
      rw [show 2 ^ 23 + (t - 2 ^ 23) = t by omega]

/-- Every magnitude has a last place and a significand. -/
theorem exists_place (m : Nat) :
    ∃ j t, m = j * 2 ^ 23 + t ∧ t < 2 ^ 24 ∧ (j = 0 ∨ 2 ^ 23 ≤ t) := by
  by_cases h : m < 2 ^ 24
  · exact ⟨0, m, by omega, h, .inl rfl⟩
  · exact ⟨m / 2 ^ 23 - 1, m % 2 ^ 23 + 2 ^ 23, by omega, by omega, .inr (by omega)⟩

theorem unitsOfMag_strictMono : StrictMono unitsOfMag := by
  refine strictMono_nat_of_lt_succ fun m => ?_
  obtain ⟨j, t, rfl, ht, hj⟩ := exists_place m
  rw [unitsOfMag_place ht.le hj, Nat.add_assoc, unitsOfMag_place (by omega) (by omega)]
  exact Nat.mul_lt_mul_of_pos_right (Nat.lt_succ_self t) (by positivity)

theorem unitsOfMag_zero : unitsOfMag 0 = 0 := by decide

theorem unitsOfMag_pos {m : Nat} (h : 0 < m) : 0 < unitsOfMag m := by
  have := unitsOfMag_strictMono h
  rwa [unitsOfMag_zero] at this

theorem unitsOfMag_infMag : unitsOfMag infMag = 2 ^ 277 := by decide +kernel

/-! ### Rounding -/

/-- The significand of `q` at its last place fits 24 bits, and is normalised unless the last place is
the unit. -/
theorem lastPlace_spec (q : Nat) :
    q / 2 ^ lastPlace q < 2 ^ 24 ∧ (lastPlace q = 0 ∨ 2 ^ 23 ≤ q / 2 ^ lastPlace q) := by
  unfold lastPlace
  by_cases h0 : q = 0
  · subst h0; simp
  have hlo := Nat.log2_self_le h0
  have hhi : q < 2 ^ (q.log2 + 1) := Nat.lt_log2_self
  by_cases h : q.log2 ≤ 23
  · have h1 : q.log2 - 23 = 0 := by omega
    have h2 : 2 ^ (q.log2 + 1) ≤ 2 ^ 24 := Nat.pow_le_pow_right (by decide) (by omega)
    rw [h1]
    simp
    omega
  · obtain ⟨k, hk⟩ : ∃ k, q.log2 = k + 23 := ⟨q.log2 - 23, by omega⟩
    rw [hk] at hlo hhi ⊢
    simp only [Nat.add_sub_cancel]
    constructor
    · rw [Nat.div_lt_iff_lt_mul (by positivity), ← pow_add]
      exact hhi.trans_le (Nat.pow_le_pow_right (by decide) (by omega))
    · right
      rw [Nat.le_div_iff_mul_le (by positivity), ← pow_add]
      exact (Nat.pow_le_pow_right (by decide) (by omega)).trans hlo

/-- The magnitude that `roundNearest` gives before the cut at the infinity. -/
def nearestUncut (num den : Nat) : Nat :=
  lastPlace (num / den) * 2 ^ 23 + num / (den * 2 ^ lastPlace (num / den)) +
    if decide (den * 2 ^ lastPlace (num / den) < 2 * (num % (den * 2 ^ lastPlace (num / den)))) ||
        (decide (2 * (num % (den * 2 ^ lastPlace (num / den))) = den * 2 ^ lastPlace (num / den)) &&
          decide (num / (den * 2 ^ lastPlace (num / den)) % 2 = 1)) then 1 else 0

theorem roundNearest_eq (num den : Nat) : roundNearest num den = min (nearestUncut num den) infMag :=
  rfl

/-- The two neighbouring magnitudes of `num/den` units, the value of each, and which of the two
`roundNearest` takes before the cut. -/
theorem nearestUncut_cases (num : Nat) {den : Nat} (hd : 0 < den) :
    ∃ m, unitsOfMag m * den ≤ num ∧ num < unitsOfMag (m + 1) * den ∧
      (nearestUncut num den = m ∧
          2 * num ≤ (unitsOfMag m + unitsOfMag (m + 1)) * den ∧
          (2 * num = (unitsOfMag m + unitsOfMag (m + 1)) * den → m % 2 = 0) ∨
        nearestUncut num den = m + 1 ∧
          (unitsOfMag m + unitsOfMag (m + 1)) * den ≤ 2 * num ∧
          (2 * num = (unitsOfMag m + unitsOfMag (m + 1)) * den → m % 2 = 1)) := by
  obtain ⟨ht, hj⟩ := lastPlace_spec (num / den)
  unfold nearestUncut
  generalize lastPlace (num / den) = j at ht hj ⊢
  have hdiv : num / (den * 2 ^ j) = num / den / 2 ^ j := (Nat.div_div_eq_div_mul _ _ _).symm
  rw [← hdiv] at ht hj
  have hmod := Nat.div_add_mod num (den * 2 ^ j)
  have hlt := Nat.mod_lt num (show 0 < den * 2 ^ j by positivity)
  have heq : den * 2 ^ j = 2 ^ j * den := Nat.mul_comm _ _
  rw [heq] at ht hj hmod hlt ⊢
  generalize num / (2 ^ j * den) = t at ht hj hmod ⊢
  generalize num % (2 ^ j * den) = r at hmod hlt ⊢
  have hu : unitsOfMag (j * 2 ^ 23 + t) * den = 2 ^ j * den * t := by
    rw [unitsOfMag_place ht.le hj]; ring
  have hu1 : unitsOfMag (j * 2 ^ 23 + t + 1) * den = 2 ^ j * den * t + 2 ^ j * den := by
    rw [Nat.add_assoc, unitsOfMag_place (by omega) (by omega)]; ring
  generalize 2 ^ j * den = d at hmod hlt hu hu1 ⊢
  refine ⟨j * 2 ^ 23 + t, by omega, by omega, ?_⟩
  rw [Nat.add_mul, hu, hu1]
  have hpar : (j * 2 ^ 23 + t) % 2 = t % 2 := by omega
  by_cases hup : d < 2 * r
  · right
    simp only [hup, decide_true, Bool.true_or, if_true]
    refine ⟨trivial, by omega, by omega⟩
  · by_cases htie : 2 * r = d
    · by_cases hodd : t % 2 = 1
      · right
        simp only [htie, hodd, decide_true, Bool.and_true, Bool.or_true, if_true]
        refine ⟨trivial, by omega, by omega⟩
      · left
        simp only [hup, hodd, decide_false, Bool.and_false, Bool.or_false]
        refine ⟨by simp, by omega, by omega⟩
    · left
      simp only [hup, htie, decide_false, Bool.false_and, Bool.or_false]
      refine ⟨by simp, by omega, by omega⟩

/-- A ratio that is the value of a magnitude rounds to it. -/
theorem nearestUncut_exact (m : Nat) {den : Nat} (hd : 0 < den) :
    nearestUncut (unitsOfMag m * den) den = m := by
  obtain ⟨k, h1, h2, h3⟩ := nearestUncut_cases (unitsOfMag m * den) hd
  have hk : k = m := by
    have h1' := Nat.le_of_mul_le_mul_right h1 hd
    have h2' := Nat.lt_of_mul_lt_mul_right h2
    have := unitsOfMag_strictMono.le_iff_le.mp h1'
    have := unitsOfMag_strictMono.lt_iff_lt.mp h2'
    omega
  subst hk
  rcases h3 with ⟨h, -⟩ | ⟨-, h, -⟩
  · exact h
  · exfalso
    rw [Nat.add_mul] at h
    omega

theorem roundNearest_le (num den : Nat) : roundNearest num den ≤ infMag := Nat.min_le_right _ _

/-- Rounding does not change a finite binary32 value (R112). -/
theorem roundNearest_exact {m : Nat} (hm : m ≤ infMag) {den : Nat} (hd : 0 < den) :
    roundNearest (unitsOfMag m * den) den = m := by
  rw [roundNearest_eq, nearestUncut_exact m hd, Nat.min_eq_left hm]

/-- No magnitude is nearer to `num/den` units than the rounded one (before the cut). -/
theorem nearestUncut_nearest (num : Nat) {den : Nat} (hd : 0 < den) (m' : Nat) :
    |((unitsOfMag (nearestUncut num den) * den : Nat) : Int) - num| ≤
      |((unitsOfMag m' * den : Nat) : Int) - num| := by
  obtain ⟨m, h1, h2, h3⟩ := nearestUncut_cases num hd
  have key : unitsOfMag m' * den ≤ unitsOfMag m * den ∨
      unitsOfMag (m + 1) * den ≤ unitsOfMag m' * den := by
    rcases Nat.lt_or_ge m m' with h | h
    · exact .inr (Nat.mul_le_mul_right _ (unitsOfMag_strictMono.monotone h))
    · exact .inl (Nat.mul_le_mul_right _ (unitsOfMag_strictMono.monotone h))
  rw [Nat.add_mul] at h3
  rcases h3 with ⟨h, h3, -⟩ | ⟨h, h3, -⟩ <;> rw [h] <;>
    generalize unitsOfMag m * den = x at * <;> generalize unitsOfMag (m + 1) * den = y at * <;>
    generalize unitsOfMag m' * den = z at * <;>
    rcases key with key | key <;> simp only [abs_le, le_abs, neg_sub] <;> omega

/-- Rounding keeps the order of the values. -/
theorem nearestUncut_mono {num num' den : Nat} (hd : 0 < den) (h : num ≤ num') :
    nearestUncut num den ≤ nearestUncut num' den := by
  obtain ⟨m, h1, h2, h3⟩ := nearestUncut_cases num hd
  obtain ⟨m', h1', h2', h3'⟩ := nearestUncut_cases num' hd
  have hle : m ≤ m' := by
    have := Nat.lt_of_mul_lt_mul_right ((h1.trans h).trans_lt h2')
    have := unitsOfMag_strictMono.lt_iff_lt.mp this
    omega
  rcases Nat.eq_or_lt_of_le hle with rfl | hlt
  · rcases h3 with ⟨h4, h5, h6⟩ | ⟨h4, h5, h6⟩ <;> rcases h3' with ⟨h7, h8, h9⟩ | ⟨h7, h8, h9⟩ <;>
      omega
  · rcases h3 with ⟨h4, -⟩ | ⟨h4, -⟩ <;> rcases h3' with ⟨h7, -⟩ | ⟨h7, -⟩ <;> omega

end Sys2Proof.Machine
end

