-- ==== Sys2Proof/Laws/State.lean ====
section
/-! SUPPORT. What each update of the state does to each field, so that no later proof unfolds a record
update. -/

namespace Sys2Proof.Machine

/-! ### `pushResponse` -/

@[simp] theorem pushResponse_status (s : State) (r : Response) : (pushResponse s r).status = s.status := rfl
@[simp] theorem pushResponse_prbs (s : State) (r : Response) : (pushResponse s r).prbs = s.prbs := rfl
@[simp] theorem pushResponse_lin (s : State) (r : Response) : (pushResponse s r).lin = s.lin := rfl
@[simp] theorem pushResponse_lag (s : State) (r : Response) : (pushResponse s r).lag = s.lag := rfl
@[simp] theorem pushResponse_osc (s : State) (r : Response) : (pushResponse s r).osc = s.osc := rfl
@[simp] theorem pushResponse_nz (s : State) (r : Response) : (pushResponse s r).nz = s.nz := rfl
@[simp] theorem pushResponse_tanhA (s : State) (r : Response) : (pushResponse s r).tanhA = s.tanhA := rfl
@[simp] theorem pushResponse_ampEps (s : State) (r : Response) : (pushResponse s r).ampEps = s.ampEps := rfl
@[simp] theorem pushResponse_inputs (s : State) (r : Response) : (pushResponse s r).inputs = s.inputs := rfl
@[simp] theorem pushResponse_responses (s : State) (r : Response) : (pushResponse s r).responses = s.responses ++ [r] := rfl

/-! ### `respond` -/

@[simp] theorem respond_status (s : State) (v : Word) : (respond s v).status = s.status := rfl
@[simp] theorem respond_prbs (s : State) (v : Word) : (respond s v).prbs = s.prbs := rfl
@[simp] theorem respond_lin (s : State) (v : Word) : (respond s v).lin = s.lin := rfl
@[simp] theorem respond_lag (s : State) (v : Word) : (respond s v).lag = s.lag := rfl
@[simp] theorem respond_osc (s : State) (v : Word) : (respond s v).osc = s.osc := rfl
@[simp] theorem respond_nz (s : State) (v : Word) : (respond s v).nz = s.nz := rfl
@[simp] theorem respond_tanhA (s : State) (v : Word) : (respond s v).tanhA = s.tanhA := rfl
@[simp] theorem respond_ampEps (s : State) (v : Word) : (respond s v).ampEps = s.ampEps := rfl
@[simp] theorem respond_inputs (s : State) (v : Word) : (respond s v).inputs = s.inputs := rfl
@[simp] theorem respond_responses (s : State) (v : Word) : (respond s v).responses = s.responses ++ [{ err := false, res := v }] := rfl

/-! ### `setIll` -/

@[simp] theorem setIll_status (s : State) : (setIll s).status = s.status ||| illBit := rfl
@[simp] theorem setIll_prbs (s : State) : (setIll s).prbs = s.prbs := rfl
@[simp] theorem setIll_lin (s : State) : (setIll s).lin = s.lin := rfl
@[simp] theorem setIll_lag (s : State) : (setIll s).lag = s.lag := rfl
@[simp] theorem setIll_osc (s : State) : (setIll s).osc = s.osc := rfl
@[simp] theorem setIll_nz (s : State) : (setIll s).nz = s.nz := rfl
@[simp] theorem setIll_tanhA (s : State) : (setIll s).tanhA = s.tanhA := rfl
@[simp] theorem setIll_ampEps (s : State) : (setIll s).ampEps = s.ampEps := rfl
@[simp] theorem setIll_inputs (s : State) : (setIll s).inputs = s.inputs := rfl
@[simp] theorem setIll_responses (s : State) : (setIll s).responses = s.responses := rfl

/-! ### `raiseIllegal` -/

@[simp] theorem raiseIllegal_status (s : State) : (raiseIllegal s).status = s.status ||| illBit := rfl
@[simp] theorem raiseIllegal_prbs (s : State) : (raiseIllegal s).prbs = s.prbs := rfl
@[simp] theorem raiseIllegal_lin (s : State) : (raiseIllegal s).lin = s.lin := rfl
@[simp] theorem raiseIllegal_lag (s : State) : (raiseIllegal s).lag = s.lag := rfl
@[simp] theorem raiseIllegal_osc (s : State) : (raiseIllegal s).osc = s.osc := rfl
@[simp] theorem raiseIllegal_nz (s : State) : (raiseIllegal s).nz = s.nz := rfl
@[simp] theorem raiseIllegal_tanhA (s : State) : (raiseIllegal s).tanhA = s.tanhA := rfl
@[simp] theorem raiseIllegal_ampEps (s : State) : (raiseIllegal s).ampEps = s.ampEps := rfl
@[simp] theorem raiseIllegal_inputs (s : State) : (raiseIllegal s).inputs = s.inputs := rfl
@[simp] theorem raiseIllegal_responses (s : State) : (raiseIllegal s).responses = s.responses ++ [{ err := true, res := 0#32 }] := rfl

/-! ### `takeResponse` -/

@[simp] theorem takeResponse_status (s : State) : (takeResponse s).status = s.status := rfl
@[simp] theorem takeResponse_prbs (s : State) : (takeResponse s).prbs = s.prbs := rfl
@[simp] theorem takeResponse_lin (s : State) : (takeResponse s).lin = s.lin := rfl
@[simp] theorem takeResponse_lag (s : State) : (takeResponse s).lag = s.lag := rfl
@[simp] theorem takeResponse_osc (s : State) : (takeResponse s).osc = s.osc := rfl
@[simp] theorem takeResponse_nz (s : State) : (takeResponse s).nz = s.nz := rfl
@[simp] theorem takeResponse_tanhA (s : State) : (takeResponse s).tanhA = s.tanhA := rfl
@[simp] theorem takeResponse_ampEps (s : State) : (takeResponse s).ampEps = s.ampEps := rfl
@[simp] theorem takeResponse_inputs (s : State) : (takeResponse s).inputs = s.inputs := rfl
@[simp] theorem takeResponse_responses (s : State) : (takeResponse s).responses = s.responses.tail := rfl

/-! ### `hostReset` -/

@[simp] theorem hostReset_status (s : State) : (hostReset s).status = 0#32 := rfl
@[simp] theorem hostReset_prbs (s : State) : (hostReset s).prbs = 1#32 := rfl
@[simp] theorem hostReset_lin (s : State) : (hostReset s).lin = List.replicate s.lin.length LinUnit.reset := rfl
@[simp] theorem hostReset_lag (s : State) : (hostReset s).lag = List.replicate s.lag.length LagUnit.reset := rfl
@[simp] theorem hostReset_osc (s : State) : (hostReset s).osc = List.replicate s.osc.length OscUnit.reset := rfl
@[simp] theorem hostReset_nz (s : State) : (hostReset s).nz = List.replicate s.nz.length NzUnit.reset := rfl
@[simp] theorem hostReset_tanhA (s : State) : (hostReset s).tanhA = s.tanhA := rfl
@[simp] theorem hostReset_ampEps (s : State) : (hostReset s).ampEps = s.ampEps := rfl
@[simp] theorem hostReset_inputs (s : State) : (hostReset s).inputs = s.inputs := rfl
@[simp] theorem hostReset_responses (s : State) : (hostReset s).responses = [] := rfl

/-! ### `resetWith` -/

@[simp] theorem resetWith_status (p : Config.Params) : (State.resetWith p).status = 0#32 := rfl
@[simp] theorem resetWith_prbs (p : Config.Params) : (State.resetWith p).prbs = 1#32 := rfl
@[simp] theorem resetWith_lin (p : Config.Params) : (State.resetWith p).lin = List.replicate p.nlin LinUnit.reset := rfl
@[simp] theorem resetWith_lag (p : Config.Params) : (State.resetWith p).lag = List.replicate p.nlag LagUnit.reset := rfl
@[simp] theorem resetWith_osc (p : Config.Params) : (State.resetWith p).osc = List.replicate p.nosc OscUnit.reset := rfl
@[simp] theorem resetWith_nz (p : Config.Params) : (State.resetWith p).nz = List.replicate p.nnz NzUnit.reset := rfl
@[simp] theorem resetWith_tanhA (p : Config.Params) : (State.resetWith p).tanhA = p.tanhA := rfl
@[simp] theorem resetWith_ampEps (p : Config.Params) : (State.resetWith p).ampEps = p.ampEps := rfl
@[simp] theorem resetWith_inputs (p : Config.Params) : (State.resetWith p).inputs = [] := rfl
@[simp] theorem resetWith_responses (p : Config.Params) : (State.resetWith p).responses = [] := rfl

/-! ### The views of the state -/

@[simp] theorem readStatus_respond (s : State) (v : Word) : readStatus (respond s v) = readStatus s := rfl
@[simp] theorem counts_respond (s : State) (v : Word) : (respond s v).counts = s.counts := rfl
@[simp] theorem counts_raiseIllegal (s : State) : (raiseIllegal s).counts = s.counts := rfl
@[simp] theorem params_respond (s : State) (v : Word) : (respond s v).params = s.params := rfl
@[simp] theorem params_raiseIllegal (s : State) : (raiseIllegal s).params = s.params := rfl
@[simp] theorem params_takeResponse (s : State) : (takeResponse s).params = s.params := rfl
@[simp] theorem params_resetWith (p : Config.Params) : (State.resetWith p).params = p := by
  simp [State.params]
@[simp] theorem params_hostReset (s : State) : (hostReset s).params = s.params := by
  simp [State.params]

end Sys2Proof.Machine
end

