-- ==== Sys2Proof/Laws/Ops.lean ====
section
/-! SUPPORT. What the shared operations over one instance can do: the equation where the instance
exists, the one where it does not, and both together as a case list (cited instead of unfolding). -/

namespace Sys2Proof.Machine

theorem onLin_some {n : BitVec 8} {f : LinUnit → LinUnit × Word} {s : State} {u : LinUnit}
    (h : s.lin[n.toNat]? = some u) :
    onLin n f s = .next (respond { s with lin := s.lin.set n.toNat (f u).1 } (f u).2) := by
  simp [onLin, h]

theorem onLin_none {n : BitVec 8} {f : LinUnit → LinUnit × Word} {s : State}
    (h : s.lin[n.toNat]? = none) : onLin n f s = .next (raiseIllegal s) := by
  simp [onLin, h]

theorem onLin_cases {n : BitVec 8} {f : LinUnit → LinUnit × Word} {s t : State}
    (h : onLin n f s = .next t) :
    (s.lin[n.toNat]? = none ∧ t = raiseIllegal s) ∨
      ∃ u, s.lin[n.toNat]? = some u ∧
        t = respond { s with lin := s.lin.set n.toNat (f u).1 } (f u).2 := by
  cases hu : s.lin[n.toNat]? with
  | none => rw [onLin_none hu] at h; cases h; exact .inl ⟨rfl, rfl⟩
  | some u => rw [onLin_some hu] at h; cases h; exact .inr ⟨u, rfl, rfl⟩

theorem onLag_some {n : BitVec 8} {f : LagUnit → LagUnit × Word} {s : State} {u : LagUnit}
    (h : s.lag[n.toNat]? = some u) :
    onLag n f s = .next (respond { s with lag := s.lag.set n.toNat (f u).1 } (f u).2) := by
  simp [onLag, h]

theorem onLag_none {n : BitVec 8} {f : LagUnit → LagUnit × Word} {s : State}
    (h : s.lag[n.toNat]? = none) : onLag n f s = .next (raiseIllegal s) := by
  simp [onLag, h]

theorem onLag_cases {n : BitVec 8} {f : LagUnit → LagUnit × Word} {s t : State}
    (h : onLag n f s = .next t) :
    (s.lag[n.toNat]? = none ∧ t = raiseIllegal s) ∨
      ∃ u, s.lag[n.toNat]? = some u ∧
        t = respond { s with lag := s.lag.set n.toNat (f u).1 } (f u).2 := by
  cases hu : s.lag[n.toNat]? with
  | none => rw [onLag_none hu] at h; cases h; exact .inl ⟨rfl, rfl⟩
  | some u => rw [onLag_some hu] at h; cases h; exact .inr ⟨u, rfl, rfl⟩

theorem onOsc_some {n : BitVec 8} {f : OscUnit → OscUnit × Word} {s : State} {u : OscUnit}
    (h : s.osc[n.toNat]? = some u) :
    onOsc n f s = .next (respond { s with osc := s.osc.set n.toNat (f u).1 } (f u).2) := by
  simp [onOsc, h]

theorem onOsc_none {n : BitVec 8} {f : OscUnit → OscUnit × Word} {s : State}
    (h : s.osc[n.toNat]? = none) : onOsc n f s = .next (raiseIllegal s) := by
  simp [onOsc, h]

theorem onOsc_cases {n : BitVec 8} {f : OscUnit → OscUnit × Word} {s t : State}
    (h : onOsc n f s = .next t) :
    (s.osc[n.toNat]? = none ∧ t = raiseIllegal s) ∨
      ∃ u, s.osc[n.toNat]? = some u ∧
        t = respond { s with osc := s.osc.set n.toNat (f u).1 } (f u).2 := by
  cases hu : s.osc[n.toNat]? with
  | none => rw [onOsc_none hu] at h; cases h; exact .inl ⟨rfl, rfl⟩
  | some u => rw [onOsc_some hu] at h; cases h; exact .inr ⟨u, rfl, rfl⟩

theorem onNz_some {n : BitVec 8} {f : NzUnit → NzUnit × Word} {s : State} {u : NzUnit}
    (h : s.nz[n.toNat]? = some u) :
    onNz n f s = .next (respond { s with nz := s.nz.set n.toNat (f u).1 } (f u).2) := by
  simp [onNz, h]

theorem onNz_none {n : BitVec 8} {f : NzUnit → NzUnit × Word} {s : State}
    (h : s.nz[n.toNat]? = none) : onNz n f s = .next (raiseIllegal s) := by
  simp [onNz, h]

theorem onNz_cases {n : BitVec 8} {f : NzUnit → NzUnit × Word} {s t : State}
    (h : onNz n f s = .next t) :
    (s.nz[n.toNat]? = none ∧ t = raiseIllegal s) ∨
      ∃ u, s.nz[n.toNat]? = some u ∧
        t = respond { s with nz := s.nz.set n.toNat (f u).1 } (f u).2 := by
  cases hu : s.nz[n.toNat]? with
  | none => rw [onNz_none hu] at h; cases h; exact .inl ⟨rfl, rfl⟩
  | some u => rw [onNz_some hu] at h; cases h; exact .inr ⟨u, rfl, rfl⟩

theorem onNzDraw_some {n : BitVec 8} {f : Word → NzUnit → NzUnit × Word} {s : State} {z : NzUnit}
    (h : s.nz[n.toNat]? = some z) :
    onNzDraw n f s =
      .next (respond
        { s with prbs := prbsNext s.prbs, nz := s.nz.set n.toNat (f (prbsValue (prbsNext s.prbs)) z).1 }
        (f (prbsValue (prbsNext s.prbs)) z).2) := by
  simp [onNzDraw, h]

theorem onNzDraw_none {n : BitVec 8} {f : Word → NzUnit → NzUnit × Word} {s : State}
    (h : s.nz[n.toNat]? = none) : onNzDraw n f s = .next (raiseIllegal s) := by
  simp [onNzDraw, h]

theorem onNzDraw_cases {n : BitVec 8} {f : Word → NzUnit → NzUnit × Word} {s t : State}
    (h : onNzDraw n f s = .next t) :
    (s.nz[n.toNat]? = none ∧ t = raiseIllegal s) ∨
      ∃ z, s.nz[n.toNat]? = some z ∧
        t = respond
          { s with
            prbs := prbsNext s.prbs
            nz := s.nz.set n.toNat (f (prbsValue (prbsNext s.prbs)) z).1 }
          (f (prbsValue (prbsNext s.prbs)) z).2 := by
  cases hz : s.nz[n.toNat]? with
  | none => rw [onNzDraw_none hz] at h; cases h; exact .inl ⟨rfl, rfl⟩
  | some z => rw [onNzDraw_some hz] at h; cases h; exact .inr ⟨z, rfl, rfl⟩

/-- What one step can do: nothing where no action is to come, else the first action. -/
theorem hostAct_cases {a : HostAction} {s t : State} (h : hostAct a s = .next t) :
    (a = .reset ∧ t = hostReset s) ∨ (a = .take ∧ t = takeResponse s) ∨
      ∃ cmd arg, a = .command cmd arg ∧ runCommand cmd arg s = .next t := by
  cases a with
  | reset => cases h; exact .inl ⟨rfl, rfl⟩
  | take => cases h; exact .inr (.inl ⟨rfl, rfl⟩)
  | command cmd arg => exact .inr (.inr ⟨cmd, arg, rfl, h⟩)

/-- What a command can do: run its meaning, or be illegal. -/
theorem runCommand_cases {cmd arg : Word} {s t : State} (h : runCommand cmd arg s = .next t) :
    (∃ i, decode cmd arg = .ok i ∧ exec i s = .next t) ∨
      ∃ e, decode cmd arg = .error e ∧ t = raiseIllegal s := by
  unfold runCommand at h
  cases hd : decode cmd arg with
  | ok i => rw [hd] at h; exact .inl ⟨i, rfl, h⟩
  | error e => rw [hd] at h; cases h; exact .inr ⟨e, rfl, rfl⟩

end Sys2Proof.Machine
end

