-- ==== Sys2Proof/Laws/PerInstr.lean ====
section
/-! SUPPORT. Laws said of each command: the word the encoder writes is selected by its row's match
and mask (`spec/30_encoding.md` R85). -/

namespace Sys2Proof.Laws

/-- The encoder's command word matches the command's row of `spec/opcode_table.json`. -/
def RowMatch.Statement (i : Instr) : Prop := (encode i).1 &&& i.mask = i.matchBits

/-- A word with INST zero and RSV zero is its opcode byte. -/
theorem cmdWord_masked_global (op : BitVec 8) :
    cmdWord 0#8 op &&& 0xFFFFFFFF#32 = op.setWidth 32 := by
  revert op
  decide

/-- Outside the INST field a command word is its opcode byte. -/
theorem cmdWord_masked_indexed (n op : BitVec 8) :
    cmdWord n op &&& 0xFFFF00FF#32 = op.setWidth 32 := by
  apply BitVec.eq_of_getLsbD_eq
  intro i hi
  rw [BitVec.getLsbD_and, getLsbD_cmdWord, BitVec.getLsbD_setWidth]
  interval_cases i <;> simp

theorem RowMatch.sysNop : RowMatch.Statement (.sysNop) :=
  cmdWord_masked_global _

theorem RowMatch.sysStatus : RowMatch.Statement (.sysStatus) :=
  cmdWord_masked_global _

theorem RowMatch.sysSeed (w : Word) : RowMatch.Statement (.sysSeed w) :=
  cmdWord_masked_global _

theorem RowMatch.sysPrbs : RowMatch.Statement (.sysPrbs) :=
  cmdWord_masked_global _

theorem RowMatch.linInit (n : BitVec 8) : RowMatch.Statement (.linInit n) :=
  cmdWord_masked_indexed n _

theorem RowMatch.linSetblk (n : BitVec 8) (len : Word) : RowMatch.Statement (.linSetblk n len) :=
  cmdWord_masked_indexed n _

theorem RowMatch.linCfg (n : BitVec 8) (skip : Bool) : RowMatch.Statement (.linCfg n skip) :=
  cmdWord_masked_indexed n _

theorem RowMatch.linSettgt (n : BitVec 8) (v : Word) : RowMatch.Statement (.linSettgt n v) :=
  cmdWord_masked_indexed n _

theorem RowMatch.linAdv (n : BitVec 8) : RowMatch.Statement (.linAdv n) :=
  cmdWord_masked_indexed n _

theorem RowMatch.linSnap (n : BitVec 8) : RowMatch.Statement (.linSnap n) :=
  cmdWord_masked_indexed n _

theorem RowMatch.linGetcur (n : BitVec 8) : RowMatch.Statement (.linGetcur n) :=
  cmdWord_masked_indexed n _

theorem RowMatch.linGettgt (n : BitVec 8) : RowMatch.Statement (.linGettgt n) :=
  cmdWord_masked_indexed n _

theorem RowMatch.lagInit (n : BitVec 8) : RowMatch.Statement (.lagInit n) :=
  cmdWord_masked_indexed n _

theorem RowMatch.lagSetk (n : BitVec 8) (k : Word) : RowMatch.Statement (.lagSetk n k) :=
  cmdWord_masked_indexed n _

theorem RowMatch.lagSettgt (n : BitVec 8) (v : Word) : RowMatch.Statement (.lagSettgt n v) :=
  cmdWord_masked_indexed n _

theorem RowMatch.lagSetimm (n : BitVec 8) (v : Word) : RowMatch.Statement (.lagSetimm n v) :=
  cmdWord_masked_indexed n _

theorem RowMatch.lagAdv (n : BitVec 8) : RowMatch.Statement (.lagAdv n) :=
  cmdWord_masked_indexed n _

theorem RowMatch.lagSnap (n : BitVec 8) : RowMatch.Statement (.lagSnap n) :=
  cmdWord_masked_indexed n _

theorem RowMatch.lagGetcur (n : BitVec 8) : RowMatch.Statement (.lagGetcur n) :=
  cmdWord_masked_indexed n _

theorem RowMatch.lagGettgt (n : BitVec 8) : RowMatch.Statement (.lagGettgt n) :=
  cmdWord_masked_indexed n _

theorem RowMatch.oscInit (n : BitVec 8) : RowMatch.Statement (.oscInit n) :=
  cmdWord_masked_indexed n _

theorem RowMatch.oscSetrate (n : BitVec 8) (omega : Word) : RowMatch.Statement (.oscSetrate n omega) :=
  cmdWord_masked_indexed n _

theorem RowMatch.oscSetphase (n : BitVec 8) (phi : Word) : RowMatch.Statement (.oscSetphase n phi) :=
  cmdWord_masked_indexed n _

theorem RowMatch.oscAdv (n : BitVec 8) : RowMatch.Statement (.oscAdv n) :=
  cmdWord_masked_indexed n _

theorem RowMatch.oscGetr (n : BitVec 8) : RowMatch.Statement (.oscGetr n) :=
  cmdWord_masked_indexed n _

theorem RowMatch.oscGeti (n : BitVec 8) : RowMatch.Statement (.oscGeti n) :=
  cmdWord_masked_indexed n _

theorem RowMatch.nzInit (n : BitVec 8) : RowMatch.Statement (.nzInit n) :=
  cmdWord_masked_indexed n _

theorem RowMatch.nzRst (n : BitVec 8) : RowMatch.Statement (.nzRst n) :=
  cmdWord_masked_indexed n _

theorem RowMatch.nzSetcorr (n : BitVec 8) (rho : Word) : RowMatch.Statement (.nzSetcorr n rho) :=
  cmdWord_masked_indexed n _

theorem RowMatch.nzStep1 (n : BitVec 8) : RowMatch.Statement (.nzStep1 n) :=
  cmdWord_masked_indexed n _

theorem RowMatch.nzStep1x (n : BitVec 8) (u : Word) : RowMatch.Statement (.nzStep1x n u) :=
  cmdWord_masked_indexed n _

theorem RowMatch.nzStep2 (n : BitVec 8) : RowMatch.Statement (.nzStep2 n) :=
  cmdWord_masked_indexed n _

theorem RowMatch.nzStep2x (n : BitVec 8) (u : Word) : RowMatch.Statement (.nzStep2x n u) :=
  cmdWord_masked_indexed n _

theorem RowMatch.fnFlush (x : Word) : RowMatch.Statement (.fnFlush x) :=
  cmdWord_masked_global _

theorem RowMatch.fnClamp01 (x : Word) : RowMatch.Statement (.fnClamp01 x) :=
  cmdWord_masked_global _

theorem RowMatch.fnClamp1bp (x : Word) : RowMatch.Statement (.fnClamp1bp x) :=
  cmdWord_masked_global _

theorem RowMatch.fnTanhf (x : Word) : RowMatch.Statement (.fnTanhf x) :=
  cmdWord_masked_global _

theorem RowMatch.fnTanhp (x : Word) : RowMatch.Statement (.fnTanhp x) :=
  cmdWord_masked_global _

theorem RowMatch.fnA2l (x : Word) : RowMatch.Statement (.fnA2l x) :=
  cmdWord_masked_global _

theorem RowMatch.fnL2a (x : Word) : RowMatch.Statement (.fnL2a x) :=
  cmdWord_masked_global _

theorem RowMatch.fnA2db (x : Word) : RowMatch.Statement (.fnA2db x) :=
  cmdWord_masked_global _

theorem RowMatch.fnDb2a (x : Word) : RowMatch.Statement (.fnDb2a x) :=
  cmdWord_masked_global _

end Sys2Proof.Laws
end

