-- ==== Sys2Proof/Tests/Slice0.lean ====
section
/-! SUPPORT. The model's own tests. Expected values are the spec's: the encodings of R84 and R95, the
examples of the command rules and the vectors of `spec/95_test_vectors.md`. Then, for every statement
with hypotheses, a concrete state and operands that meet them. -/

namespace Sys2Proof.Tests

set_option Elab.async false

open Sys2Proof.Machine Sys2Proof.Claim

/-! ## Helpers -/

/-- The state after one command, issued alone. -/
def after (cmd arg : Word) (s : State) : State :=
  match step { s with inputs := [.command cmd arg] } with
  | .next t => t
  | .refused _ => s

/-- The response to one command, issued alone. -/
def reply (cmd arg : Word) (s : State) : Option Response := (after cmd arg s).responses.getLast?

/-- `ERR = 0`, `RES = v`. -/
def ok (v : Word) : Option Response := some { err := false, res := v }

/-- The illegal response. -/
def bad : Option Response := some { err := true, res := 0#32 }

/-- The reset state with one LIN instance. -/
def withLin (u : LinUnit) : State := { State.reset with lin := [u] }

/-- The reset state with one LAG instance. -/
def withLag (u : LagUnit) : State := { State.reset with lag := [u] }

/-- The reset state with one OSC instance. -/
def withOsc (u : OscUnit) : State := { State.reset with osc := [u] }

/-- The reset state with one NZ instance. -/
def withNz (z : NzUnit) : State := { State.reset with nz := [z] }

/-- The reset state with one command to come. -/
def withCommand (cmd arg : Word) : State := { State.reset with inputs := [.command cmd arg] }

/-! ## WellFormed: each check refuses an ill-formed term -/

theorem test_wellFormed_index_checks :
    (Instr.linAdv 3#8).wellFormed State.reset.counts = true ∧
    (Instr.linAdv 4#8).wellFormed State.reset.counts = false ∧
    (Instr.lagSetk 4#8 0#32).wellFormed State.reset.counts = false ∧
    (Instr.oscGetr 255#8).wellFormed State.reset.counts = false ∧
    (Instr.nzStep2x 4#8 0#32).wellFormed State.reset.counts = false ∧
    (Instr.fnFlush 0#32).wellFormed State.reset.counts = true := by decide

theorem test_wellFormed_count_checks :
    Config.defaultParams.accepted = true ∧
    { Config.defaultParams with nlin := 0 }.accepted = false ∧
    { Config.defaultParams with nlin := 256 }.accepted = true ∧
    { Config.defaultParams with nlin := 257 }.accepted = false ∧
    { Config.defaultParams with nlag := 0 }.accepted = false ∧
    { Config.defaultParams with nosc := 257 }.accepted = false ∧
    { Config.defaultParams with nnz := 0 }.accepted = false := by decide

theorem test_wellFormed_epsilon_check :
    { Config.defaultParams with ampEps := 0x00000000#32 }.accepted = false ∧
    { Config.defaultParams with ampEps := 0x80000001#32 }.accepted = false ∧
    { Config.defaultParams with ampEps := 0x7FC00000#32 }.accepted = false ∧
    { Config.defaultParams with ampEps := 0x00000001#32 }.accepted = true := by decide

theorem test_boot_refuses_no_instances :
    (match boot { Config.defaultParams with nosc := 0 } with
      | .refused .badParameters => true
      | _ => false) = true := by decide

/-! ## Decoding: every opcode of R84, the words written out -/

theorem test_decode_sys :
    decode 0x00000000#32 0xFFFFFFFF#32 = .ok .sysNop ∧
    decode 0x00000001#32 0#32 = .ok .sysStatus ∧
    decode 0x00000002#32 0xDEADBEEF#32 = .ok (.sysSeed 0xDEADBEEF#32) ∧
    decode 0x00000003#32 0#32 = .ok .sysPrbs := by decide

theorem test_decode_lin :
    decode 0x00000010#32 0#32 = .ok (.linInit 0#8) ∧
    decode 0x00000011#32 0x40800000#32 = .ok (.linSetblk 0#8 0x40800000#32) ∧
    decode 0x00000012#32 0x3F800000#32 = .ok (.linCfg 0#8 false) ∧
    decode 0x0000FF12#32 0x00000001#32 = .ok (.linCfg 255#8 true) ∧
    decode 0x00000313#32 0x3F800000#32 = .ok (.linSettgt 3#8 0x3F800000#32) ∧
    decode 0x00000314#32 0#32 = .ok (.linAdv 3#8) ∧
    decode 0x00000115#32 0#32 = .ok (.linSnap 1#8) ∧
    decode 0x00000216#32 0#32 = .ok (.linGetcur 2#8) ∧
    decode 0x00008017#32 0#32 = .ok (.linGettgt 128#8) := by decide

theorem test_decode_lag :
    decode 0x00000020#32 0#32 = .ok (.lagInit 0#8) ∧
    decode 0x00000121#32 0x3F000000#32 = .ok (.lagSetk 1#8 0x3F000000#32) ∧
    decode 0x00000022#32 0x3F800000#32 = .ok (.lagSettgt 0#8 0x3F800000#32) ∧
    decode 0x00000223#32 0x40000000#32 = .ok (.lagSetimm 2#8 0x40000000#32) ∧
    decode 0x00000024#32 0#32 = .ok (.lagAdv 0#8) ∧
    decode 0x00000325#32 0#32 = .ok (.lagSnap 3#8) ∧
    decode 0x00000026#32 0#32 = .ok (.lagGetcur 0#8) ∧
    decode 0x00000127#32 0#32 = .ok (.lagGettgt 1#8) := by decide

theorem test_decode_osc :
    decode 0x00000030#32 0#32 = .ok (.oscInit 0#8) ∧
    decode 0x00000031#32 0x3DCCCCCD#32 = .ok (.oscSetrate 0#8 0x3DCCCCCD#32) ∧
    decode 0x00000132#32 0x3F490FDB#32 = .ok (.oscSetphase 1#8 0x3F490FDB#32) ∧
    decode 0x00000233#32 0#32 = .ok (.oscAdv 2#8) ∧
    decode 0x00000034#32 0#32 = .ok (.oscGetr 0#8) ∧
    decode 0x00000335#32 0#32 = .ok (.oscGeti 3#8) := by decide

theorem test_decode_nz :
    decode 0x00000040#32 0#32 = .ok (.nzInit 0#8) ∧
    decode 0x00000141#32 0#32 = .ok (.nzRst 1#8) ∧
    decode 0x00000042#32 0x3F000000#32 = .ok (.nzSetcorr 0#8 0x3F000000#32) ∧
    decode 0x00000043#32 0#32 = .ok (.nzStep1 0#8) ∧
    decode 0x00000344#32 0x3F800000#32 = .ok (.nzStep1x 3#8 0x3F800000#32) ∧
    decode 0x00000045#32 0#32 = .ok (.nzStep2 0#8) ∧
    decode 0x00000246#32 0xBF800000#32 = .ok (.nzStep2x 2#8 0xBF800000#32) := by decide

theorem test_decode_fn :
    decode 0x00000050#32 0x0DA24260#32 = .ok (.fnFlush 0x0DA24260#32) ∧
    decode 0x00000051#32 0x3FC00000#32 = .ok (.fnClamp01 0x3FC00000#32) ∧
    decode 0x00000052#32 0xC0400000#32 = .ok (.fnClamp1bp 0xC0400000#32) ∧
    decode 0x00000053#32 0x3F800000#32 = .ok (.fnTanhf 0x3F800000#32) ∧
    decode 0x00000054#32 0x3F000000#32 = .ok (.fnTanhp 0x3F000000#32) ∧
    decode 0x00000055#32 0x3F000000#32 = .ok (.fnA2l 0x3F000000#32) ∧
    decode 0x00000056#32 0x3E000000#32 = .ok (.fnL2a 0x3E000000#32) ∧
    decode 0x00000057#32 0x40000000#32 = .ok (.fnA2db 0x40000000#32) ∧
    decode 0x00000058#32 0xC1900000#32 = .ok (.fnDb2a 0xC1900000#32) := by decide

/-- The illegal words of V-ILL-1 (clauses 1 to 3), and those of R95. -/
theorem test_decode_illegal :
    decode 0x00010000#32 0#32 = .error .reservedNotZero ∧
    decode 0x80000014#32 0#32 = .error .reservedNotZero ∧
    decode 0x00000004#32 0#32 = .error .unassignedOp ∧
    decode 0x00000018#32 0#32 = .error .unassignedOp ∧
    decode 0x00000028#32 0#32 = .error .unassignedOp ∧
    decode 0x00000036#32 0#32 = .error .unassignedOp ∧
    decode 0x00000047#32 0#32 = .error .unassignedOp ∧
    decode 0x00000059#32 0#32 = .error .unassignedOp ∧
    decode 0x00000060#32 0#32 = .error .unassignedOp ∧
    decode 0x000000FF#32 0#32 = .error .unassignedOp ∧
    decode 0x00000100#32 0#32 = .error .instNotZero ∧
    decode 0x00000150#32 0x3F800000#32 = .error .instNotZero ∧
    decode 0x00000436#32 0#32 = .error .unassignedOp ∧
    decodeFor State.reset.counts 0x00000414#32 0#32 = .error .instOutOfRange ∧
    decodeFor State.reset.counts 0x00000314#32 0#32 = .ok (.linAdv 3#8) := by decide

/-- R63: eight bytes, `CMD` first, least significant byte first; R64: nothing else is a sequence. -/
theorem test_decode_bytes :
    decodeBytes [0x13#8, 0x03#8, 0#8, 0#8, 0x00#8, 0x00#8, 0x80#8, 0x3F#8] =
      .ok (.linSettgt 3#8 0x3F800000#32) ∧
    decodeBytes [0x13#8, 0x03#8, 0#8, 0#8] = .error .partialRecord := by decide

theorem test_decodeTableWord :
    decodeTableWord 32 0x00000346 = some (.nzStep2x 3#8 0#32) ∧
    decodeTableWord 64 0x3F80000000000313 = some (.linSettgt 3#8 0x3F800000#32) ∧
    decodeTableWord 32 0x00010014 = none := by decide

/-- The word stored for the next step is the command it runs. -/
theorem test_withFetchWord :
    (match step (State.reset.withFetchWord 32 0x00000316) with
      | .next t => (t.responses, t.inputs)
      | .refused _ => ([], [])) = ([{ err := false, res := 0#32 }], []) := by decide

theorem test_assemble :
    assemble "lin.settgt 3, 1.0" = some (0x00000313#32, 0x3F800000#32) ∧
    assemble "nz.step2x 2, -1.0 ; a draw" = some (0x00000246#32, 0xBF800000#32) ∧
    assemble "fn.flush 1e-30" = some (0x00000050#32, 0x0DA24260#32) ∧
    assemble "osc.setrate 0, nan" = some (0x00000031#32, 0x7FC00000#32) ∧
    assemble "lin.cfg 0, 1" = some (0x00000012#32, 0x00000001#32) ∧
    assemble "lin.adv" = none ∧ text (.linSettgt 3#8 0x3F800000#32) = "lin.settgt 3, 0x3F800000" := by
  decide +kernel

/-- The forms of a decimal real that log entry 12 takes and refuses, beyond the examples of R93. -/
theorem test_assemble_reals :
    assemble "fn.flush .5" = some (0x00000050#32, 0x3F000000#32) ∧
    assemble "fn.flush 5." = some (0x00000050#32, 0x40A00000#32) ∧
    assemble "fn.flush 1E-30" = some (0x00000050#32, 0x0DA24260#32) ∧
    assemble "fn.flush -0.0" = some (0x00000050#32, 0x80000000#32) ∧
    assemble "fn.flush +1.0" = none ∧ assemble "fn.flush ." = none ∧ assemble "fn.flush 5" = none ∧
    assemble "fn.flush 1e39" = some (0x00000050#32, 0x7F800000#32) := by
  decide +kernel

/-! ## The host's actions and the exception -/

theorem test_illegal_effect :
    after 0x00000414#32 0x12345678#32 State.reset =
      { State.reset with status := 1#32, responses := [{ err := true, res := 0#32 }] } := by decide

theorem test_illegal_is_sticky :
    reply 0x00000001#32 0#32 (after 0x00010014#32 0#32 State.reset) = ok 0x00000001#32 := by decide

theorem test_reset_action :
    (match step { (after 0x00000414#32 0#32 State.reset) with inputs := [.reset] } with
      | .next t => decide (t = State.reset)
      | .refused _ => false) = true := by decide

theorem test_take_action :
    (match step { (after 0x00000000#32 0#32 State.reset) with inputs := [.take] } with
      | .next t => decide (t = State.reset)
      | .refused _ => false) = true := by decide

/-! ## SYS -/

theorem test_sysNop : reply 0x00000000#32 0xFFFFFFFF#32 State.reset = ok 0#32 := by decide

theorem test_sysStatus : reply 0x00000001#32 0#32 State.reset = ok 0#32 := by decide

theorem test_sysSeed : (after 0x00000002#32 0xDEADBEEF#32 State.reset).prbs = 0xDEADBEEF#32 := by
  decide

theorem test_sysSeed_zero : (after 0x00000002#32 0#32 State.reset).prbs = 0x00000001#32 := by decide

theorem test_sysPrbs : reply 0x00000003#32 0#32 State.reset = ok 0x00000001#32 := by decide

/-! ## LIN -/

/-- Mid-ramp, as in the example of R156. -/
def midRamp : LinUnit :=
  { cur := 0x3F000000#32, tgt := 0x3F800000#32, inc := 0x3E800000#32, ibl := 0x3E800000#32,
    first := false, skip := true }

theorem test_linInit : (after 0x00000010#32 0#32 (withLin midRamp)).lin = [LinUnit.reset] := by decide

theorem test_linSetblk :
    (after 0x00000011#32 0x40400000#32 (withLin midRamp)).lin =
      [{ midRamp with ibl := 0x3EAAAAAB#32 }] := by decide +kernel

theorem test_linSetblk_zero :
    (after 0x00000011#32 0x80000000#32 (withLin midRamp)).lin =
      [{ midRamp with ibl := 0xFF800000#32 }] := by decide +kernel

theorem test_linCfg_reads_bit_zero :
    (after 0x00000012#32 0x3F800000#32 (withLin midRamp)).lin = [{ midRamp with skip := false }] := by
  decide

/-- V-LIN-4: the new ramp starts at the present value. -/
theorem test_linSettgt_ramp :
    (after 0x00000013#32 0x00000000#32 (withLin midRamp)).lin =
      [{ midRamp with tgt := 0#32, inc := 0xBE000000#32 }] := by decide +kernel

/-- V-LIN-5: the first-update jump. -/
theorem test_linSettgt_jump :
    (after 0x00000013#32 0x7FC00001#32
        (withLin { LinUnit.reset with skip := true, ibl := 0x7F800000#32 })).lin =
      [{ cur := 0x7FC00001#32, tgt := 0x7FC00001#32, inc := 0#32, ibl := 0x7F800000#32,
         first := false, skip := true }] := by decide +kernel

/-- V-LIN-3, the tenth advance. -/
theorem test_linAdv_rounds :
    reply 0x00000014#32 0#32
        (withLin { midRamp with cur := 0x3F666668#32, inc := 0x3DCCCCCD#32 }) =
      ok 0x3F800001#32 := by decide +kernel

theorem test_linAdv_moves :
    (after 0x00000014#32 0#32 (withLin midRamp)).lin = [{ midRamp with cur := 0x3F400000#32 }] := by
  decide +kernel

theorem test_linSnap :
    (after 0x00000015#32 0#32 (withLin midRamp)).lin =
      [{ midRamp with cur := 0x3F800000#32, inc := 0#32 }] := by decide

theorem test_linGetcur : reply 0x00000016#32 0#32 (withLin midRamp) = ok 0x3F000000#32 := by decide

theorem test_linGettgt : reply 0x00000017#32 0#32 (withLin midRamp) = ok 0x3F800000#32 := by decide

/-! ## LAG -/

/-- V-LAG-3 after `lag.settgt 0, -2.0`. -/
def lagging : LagUnit :=
  { cur := 0x40000000#32, tgt := 0xC0000000#32, k := 0x3E800000#32, km := 0x3F400000#32 }

theorem test_lagInit : (after 0x00000020#32 0#32 (withLag lagging)).lag = [LagUnit.reset] := by decide

theorem test_lagSetk :
    (after 0x00000021#32 0x3DCCCCCD#32 (withLag lagging)).lag =
      [{ lagging with k := 0x3DCCCCCD#32, km := 0x3F666666#32 }] := by decide +kernel

theorem test_lagSettgt :
    (after 0x00000022#32 0xFF800001#32 (withLag lagging)).lag =
      [{ lagging with tgt := 0xFF800001#32 }] := by decide

theorem test_lagSetimm :
    (after 0x00000023#32 0x3F800000#32 (withLag lagging)).lag =
      [{ lagging with cur := 0x3F800000#32, tgt := 0x3F800000#32 }] := by decide

theorem test_lagAdv : reply 0x00000024#32 0#32 (withLag lagging) = ok 0x3F800000#32 := by
  decide +kernel

/-- V-LAG-4: an infinite target with `k = +0`. -/
theorem test_lagAdv_invalid :
    reply 0x00000024#32 0#32 (withLag { LagUnit.reset with tgt := 0x7F800000#32 }) =
      ok 0x7FC00000#32 := by decide +kernel

theorem test_lagSnap :
    (after 0x00000025#32 0#32 (withLag lagging)).lag = [{ lagging with cur := 0xC0000000#32 }] := by
  decide

theorem test_lagGetcur : reply 0x00000026#32 0#32 (withLag lagging) = ok 0x40000000#32 := by decide

theorem test_lagGettgt : reply 0x00000027#32 0#32 (withLag lagging) = ok 0xC0000000#32 := by decide

/-! ## OSC -/

/-- V-OSC-2 after its first step. -/
def eighthTurn : OscUnit :=
  { r := 0x3F3504F3#32, i := 0x3F3504F3#32, dr := 0x3F3504F3#32, di := 0x3F3504F3#32 }

theorem test_oscInit : (after 0x00000030#32 0#32 (withOsc eighthTurn)).osc = [OscUnit.reset] := by
  decide

/-- V-OSC-3, the point (3, 4), by Cos-Zero and Sin-Zero. -/
theorem test_oscSetrate :
    (after 0x00000031#32 0#32
        (withOsc { eighthTurn with r := 0x40400000#32, i := 0x40800000#32 })).osc =
      [{ r := 0x3F19999A#32, i := 0x3F4CCCCD#32, dr := 0x3F800000#32, di := 0#32 }] := by
  decide +kernel

/-- V-OSC-3, both squares underflow. -/
theorem test_oscSetrate_underflow :
    (after 0x00000031#32 0#32 (withOsc { eighthTurn with r := 0x0DA24260#32, i := 0#32 })).osc =
      [{ r := 0x7F800000#32, i := 0x7FC00000#32, dr := 0x3F800000#32, di := 0#32 }] := by
  decide +kernel

theorem test_oscSetphase_zero :
    (after 0x00000032#32 0#32 (withOsc eighthTurn)).osc =
      [{ eighthTurn with r := 0x3F800000#32, i := 0#32 }] := by decide +kernel

theorem test_oscSetphase_infinite :
    (after 0x00000032#32 0x7F800000#32 (withOsc eighthTurn)).osc =
      [{ eighthTurn with r := 0x7FC00000#32, i := 0x7FC00000#32 }] := by decide +kernel

theorem test_oscAdv :
    (after 0x00000033#32 0#32 (withOsc eighthTurn)).osc =
      [{ eighthTurn with r := 0#32, i := 0x3F7FFFFF#32 }] := by decide +kernel

/-- V-OSC-1, the second step. -/
theorem test_oscAdv_signed_zero :
    (after 0x00000033#32 0#32
        (withOsc { r := 0xBF800000#32, i := 0#32, dr := 0#32, di := 0x3F800000#32 })).osc =
      [{ r := 0x80000000#32, i := 0xBF800000#32, dr := 0#32, di := 0x3F800000#32 }] := by
  decide +kernel

theorem test_oscGetr : reply 0x00000034#32 0#32 State.reset = ok 0x3F800000#32 := by decide

theorem test_oscGeti : reply 0x00000035#32 0#32 (withOsc eighthTurn) = ok 0x3F3504F3#32 := by decide

/-! ## NZ -/

/-- An instance with both histories and a coefficient. -/
def noisy : NzUnit := { h1 := 0x3E800000#32, h2 := 0x3F000000#32, rho := 0x3F000000#32 }

theorem test_nzInit : (after 0x00000040#32 0#32 (withNz noisy)).nz = [NzUnit.reset] := by decide

theorem test_nzRst :
    (after 0x00000041#32 0#32 (withNz noisy)).nz = [{ NzUnit.reset with rho := 0x3F000000#32 }] := by
  decide

theorem test_nzSetcorr :
    (after 0x00000042#32 0x3E800000#32 (withNz noisy)).nz = [{ noisy with rho := 0x3E800000#32 }] := by
  decide

/-- The first response of the example of R238. -/
theorem test_nzStep1 :
    reply 0x00000043#32 0#32 (withNz { NzUnit.reset with rho := 0x3E800000#32 }) =
      ok 0xBF30E924#32 := by decide +kernel

/-- The register after one draw (R144, R232). -/
theorem test_nzStep1_prbs :
    (after 0x00000043#32 0#32 (withNz noisy)).prbs = 0x8A0F3DB5#32 := by decide +kernel

/-- The second response of the example of R239. -/
theorem test_nzStep1x :
    reply 0x00000044#32 0x3F800000#32
        (withNz { h1 := 0x3F000000#32, h2 := 0#32, rho := 0x3F000000#32 }) =
      ok 0x3F400000#32 := by decide +kernel

/-- The first response of the example of R240. -/
theorem test_nzStep2 :
    (after 0x00000045#32 0#32 (withNz { NzUnit.reset with rho := 0x3F000000#32 })).nz =
      [{ h1 := 0xBE6BE186#32, h2 := 0xBEEBE186#32, rho := 0x3F000000#32 }] := by decide +kernel

/-- The second step of the example of R241. -/
theorem test_nzStep2x :
    (after 0x00000046#32 0x3F800000#32 (withNz noisy)).nz =
      [{ noisy with h1 := 0x3F000000#32, h2 := 0x3F400000#32 }] := by decide +kernel

/-! ## FN -/

theorem test_fnFlush_below : reply 0x00000050#32 0x8DA2425F#32 State.reset = ok 0#32 := by
  decide +kernel

theorem test_fnFlush_at : reply 0x00000050#32 0x0DA24260#32 State.reset = ok 0x0DA24260#32 := by
  decide +kernel

theorem test_fnClamp01 : reply 0x00000051#32 0x3FC00000#32 State.reset = ok 0x3F800000#32 := by
  decide +kernel

theorem test_fnClamp01_nan : reply 0x00000051#32 0xFFC00001#32 State.reset = ok 0xFFC00001#32 := by
  decide +kernel

theorem test_fnClamp1bp : reply 0x00000052#32 0xC0400000#32 State.reset = ok 0xBF800000#32 := by
  decide +kernel

theorem test_fnTanhf : reply 0x00000053#32 0xBF800000#32 State.reset = ok 0xBF3A2E8C#32 := by
  decide +kernel

theorem test_fnTanhf_degenerate :
    reply 0x00000053#32 0x3F800000#32 { State.reset with tanhA := 0#32 } = ok 0x3F2AAAAA#32 := by
  decide +kernel

theorem test_fnTanhp : reply 0x00000054#32 0x3F000000#32 State.reset = ok 0x3EECCCCD#32 := by
  decide +kernel

theorem test_fnTanhp_infinite :
    reply 0x00000054#32 0xFF800000#32 State.reset = ok 0x7FC00000#32 := by decide +kernel

theorem test_fnA2l : reply 0x00000055#32 0x3DCCCCCD#32 State.reset = ok 0x3A83126F#32 := by
  decide +kernel

theorem test_fnA2l_negative_zero :
    reply 0x00000055#32 0x80000000#32 State.reset = ok 0x80000000#32 := by decide +kernel

/-- V-AMP-2 by Cbrt-Cube: 0.125 is an exact cube, so its two candidates are one. -/
theorem test_fnL2a : fcbrt 0x3E000000#32 = 0x3F000000#32 := by
  rcases fcbrt_candidates (x := 0x3E000000#32) (by decide) (by decide) (by decide) with h | h <;>
    rw [h] <;> decide +kernel

/-- V-AMP-2: every argument below AMP_EPS is clamped to it. -/
theorem test_fnL2a_clamped :
    linearToAmp 0x2EDBE6FF#32 0xBF800000#32 = linearToAmp 0x2EDBE6FF#32 0#32 := by
  unfold linearToAmp
  rw [show flt 0xBF800000#32 0x2EDBE6FF#32 = true by decide +kernel,
    show flt 0#32 0x2EDBE6FF#32 = true by decide +kernel]
  rfl

theorem test_fnA2db : reply 0x00000057#32 0x40000000#32 State.reset = ok 0x41900000#32 := by
  decide +kernel

theorem test_fnA2db_zero : reply 0x00000057#32 0#32 State.reset = ok 0xC3400000#32 := by
  decide +kernel

theorem test_fnDb2a : reply 0x00000058#32 0xC1900000#32 State.reset = ok 0x3F000000#32 := by
  decide +kernel

theorem test_fnDb2a_nan : reply 0x00000058#32 0x7FC00000#32 State.reset = ok 0#32 := by
  decide +kernel

/-! ## The configuration functions: the correctly rounded values of `spec/95_test_vectors.md` (its CR
rows) are among the two candidates, and the candidates are neighbours -/

theorem test_cos_candidates :
    cosCandidates (mag 0x3DCCCCCD#32) = (0x3F7EB897, 0x3F7EB898) ∨
      cosCandidates (mag 0x3DCCCCCD#32) = (0x3F7EB898, 0x3F7EB899) := by decide +kernel

/-- The cosine of pi/2 rounded, 0xB33BBD2E. -/
theorem test_cos_candidates_small :
    cosNeg 0x3FC90FDB#32 = true ∧
      (cosCandidates (mag 0x3FC90FDB#32) = (0x333BBD2D, 0x333BBD2E) ∨
        cosCandidates (mag 0x3FC90FDB#32) = (0x333BBD2E, 0x333BBD2F)) := by decide +kernel

/-- The sine of pi rounded, 0xB3BBBD2E. -/
theorem test_sin_candidates :
    sinNeg 0x40490FDB#32 = true ∧
      (sinCandidates (mag 0x40490FDB#32) = (0x33BBBD2D, 0x33BBBD2E) ∨
        sinCandidates (mag 0x40490FDB#32) = (0x33BBBD2E, 0x33BBBD2F)) := by decide +kernel

/-- The least subnormal: its sine is bracketed by a zero, of either sign, and itself (R123). -/
theorem test_sin_least :
    fsin 0x00000001#32 = 0x00000000#32 ∨ fsin 0x00000001#32 = 0x00000001#32 ∨
      fsin 0x00000001#32 = 0x80000000#32 := by
  rcases fsin_candidates (x := 0x00000001#32) (by decide) (by decide) with h | h | ⟨-, h⟩ <;> rw [h] <;>
    decide +kernel

/-- `fn.db2a -192` is the power of two of -32/3 rounded, 0x3A214515. -/
theorem test_exp_candidates :
    expCandidates (units (fdiv 0xC3400000#32 0x41900000#32)) = (0x3A214514, 0x3A214515) ∨
      expCandidates (units (fdiv 0xC3400000#32 0x41900000#32)) = (0x3A214515, 0x3A214516) := by
  decide +kernel

/-- log2(3) = 1.5849625007211562 lies between two neighbours. -/
theorem test_log_candidates :
    logCandidates (unitsOfMag (mag 0x40400000#32)) = (0x3FCAE00D#32, 0x3FCAE00E#32) := by
  decide +kernel

/-- The cube root of 0.001 rounded, 0x3DCCCCCD. -/
theorem test_cbrt_candidates :
    cbrtCandidates (unitsOfMag (mag 0x3A83126F#32)) = (0x3DCCCCCC, 0x3DCCCCCD) ∨
      cbrtCandidates (unitsOfMag (mag 0x3A83126F#32)) = (0x3DCCCCCD, 0x3DCCCCCE) := by decide +kernel

/-! ## Witnesses: for every statement with hypotheses, a state and operands that meet them -/

/-! ### Encoding -/

theorem witness_AcceptedWordIsItsEncoding :
    decode 0x0000FF12#32 0x00000003#32 = .ok (.linCfg 255#8 true) := by decide

theorem witness_LegalExactlyByTheFourClauses :
    rsvField 0x80000014#32 ≠ 0#16 ∧ isIllegal State.reset.counts 0x80000014#32 = true ∧
      isIllegal State.reset.counts 0x00000314#32 = false ∧
      isIllegal State.reset.counts 0x00000414#32 = true ∧
      isIllegal State.reset.counts 0x00000058#32 = false ∧
      isIllegal State.reset.counts 0x00000059#32 = true := by decide

theorem witness_EncodingExamplesOfTheSpec : State.reset.counts.nlin = 4 := by decide

/-! ### The machine -/

theorem witness_StepRunsTheDecodedCommand :
    (withCommand 0x00000313#32 0x3F800000#32).inputs =
        .command 0x00000313#32 0x3F800000#32 :: ([] : List HostAction) ∧
      decode 0x00000313#32 0x3F800000#32 = .ok (.linSettgt 3#8 0x3F800000#32) := by decide

theorem witness_EveryCommandGetsOneResponse :
    (withCommand 0x00000014#32 0#32).inputs =
      .command 0x00000014#32 0#32 :: ([] : List HostAction) := by decide

theorem witness_IllegalCommandEffect :
    (withCommand 0x00000414#32 0#32).inputs =
        .command 0x00000414#32 0#32 :: ([] : List HostAction) ∧
      isIllegal (withCommand 0x00000414#32 0#32).counts 0x00000414#32 = true := by decide

theorem witness_ErrExactlyForIllegalCommands :
    step (withCommand 0x00000010#32 0#32) =
        .next { State.reset with responses := [{ err := false, res := 0#32 }] } ∧
      decode 0x00000010#32 0#32 = .ok (.linInit 0#8) ∧ resKind (.linInit 0#8) = .z := by
  exact ⟨rfl, by decide, by decide⟩

theorem witness_GoodStatesStayGood :
    (withCommand 0x00010014#32 0#32).Inv ∧
      step (withCommand 0x00010014#32 0#32) = .next (raiseIllegal State.reset) := by
  exact ⟨⟨by decide, by decide, by decide +kernel, by decide⟩, rfl⟩

theorem witness_ResetStateIsGood : Config.defaultParams.accepted = true := by decide

theorem witness_EveryReachableStateIsGoodAndGoesOn :
    Config.defaultParams.accepted = true ∧
      Reaches { State.resetWith Config.defaultParams with inputs := [.command 0x00010014#32 0#32] }
        (raiseIllegal State.reset) :=
  ⟨by decide, .step (.refl _) rfl⟩

theorem witness_ResetGivesEveryElementItsValue :
    { withLin midRamp with inputs := [.reset] }.inputs = .reset :: ([] : List HostAction) := by decide

theorem witness_HostActionsBesideCommands :
    { State.reset with inputs := [.take], responses := [{ err := true, res := 0#32 }] }.inputs =
        .take :: ([] : List HostAction) ∧
      { State.reset with inputs := [.reset] }.inputs = .reset :: ([] : List HostAction) ∧
      State.reset.inputs = [] := by decide

theorem witness_BootRefusesBadParameters :
    boot Config.defaultParams = .next (State.resetWith Config.defaultParams) ∧
      flt 0#32 { Config.defaultParams with ampEps := 0#32 }.ampEps = false := by
  exact ⟨rfl, by decide⟩

theorem witness_ParametersNeverChange : step State.reset = .next State.reset := rfl

theorem witness_IllFlagIsSticky :
    (raiseIllegal State.reset).status.getLsbD 0 = true ∧
      step (raiseIllegal State.reset) = .next (raiseIllegal State.reset) ∧
      (raiseIllegal State.reset).inputs.head? ≠ some .reset ∧
      (withCommand 0x00000018#32 0#32).status.getLsbD 0 = false ∧
      step (withCommand 0x00000018#32 0#32) = .next (raiseIllegal State.reset) ∧
      { State.reset with inputs := [.reset] }.inputs.head? = some .reset := by
  exact ⟨by decide, rfl, by decide, by decide, rfl, by decide⟩

theorem witness_InstancesAreNotDisturbed :
    exec (.linGetcur 3#8) State.reset =
        .next { State.reset with responses := [{ err := false, res := 0#32 }] } ∧
      ¬ Addresses (.linGetcur 3#8) .lin 2 ∧ ¬ Addresses (.linGetcur 3#8) .lag 3 ∧
      ¬ Addresses (.linGetcur 3#8) .osc 3 ∧ ¬ Addresses (.linGetcur 3#8) .nz 3 ∧
      (Instr.linGetcur 3#8).wellFormed State.reset.counts = true := by
  refine ⟨rfl, ?_, ?_, ?_, ?_, by decide⟩ <;> simp [Addresses, Instr.unit, Instr.inst?]

/-- Two states that differ in everything `lin.adv 0` does not read. -/
theorem witness_ResponseDependsOnOwnInstanceOnly :
    AgreeFor (.linAdv 0#8) State.reset
      { raiseIllegal State.reset with
        prbs := 7#32, lag := [], osc := [], nz := [], tanhA := 0#32, ampEps := 1#32 } := by
  exact { lin := fun _ _ => rfl, lag := fun _ h => absurd h.1 (by decide),
          osc := fun _ h => absurd h.1 (by decide), nz := fun _ h => absurd h.1 (by decide),
          prbs := fun h => absurd h (by decide), status := fun h => absurd h (by decide),
          tanhA := fun h => h.elim (fun _ h => by cases h), ampEps := fun h => h.elim (fun _ h => by cases h) }

theorem witness_IndependentCommandsCommute :
    ((Instr.linAdv 0#8).unit ≠ (Instr.nzStep1 0#8).unit ∨
        (Instr.linAdv 0#8).inst? ≠ (Instr.nzStep1 0#8).inst?) ∧
      ¬(usesPrbs (.linAdv 0#8) = true ∧ usesPrbs (.nzStep1 0#8) = true) ∧
      ¬(Instr.linAdv 0#8 = .sysStatus ∧ (Instr.nzStep1 0#8).wellFormed State.reset.counts = false) ∧
      ¬(Instr.nzStep1 0#8 = .sysStatus ∧
        (Instr.linAdv 0#8).wellFormed State.reset.counts = false) := by decide

theorem witness_SilentAndIdempotentCommands :
    isSilent (.lagGettgt 3#8) = true ∧ (Instr.lagGettgt 3#8).wellFormed State.reset.counts = true ∧
      isSetter (.linSnap 0#8) = true ∧ (Instr.linSnap 0#8).wellFormed State.reset.counts = true := by
  decide

theorem witness_SequenceIsAnsweredInOrder :
    (withCommand 0x00000014#32 0#32).inputs = commandActions [(0x00000014#32, 0#32)] ∧
      legalSequence (withCommand 0x00000014#32 0#32).counts [(0x00000014#32, 0#32)] = true := by
  decide

/-! ### The commands: the first and the last instance, and the first index past it -/

theorem witness_LinCommand :
    State.reset.lin[(0#8).toNat]? = some LinUnit.reset ∧
      State.reset.lin[(3#8).toNat]? = some LinUnit.reset ∧
      State.reset.lin.length ≤ (4#8).toNat ∧ State.reset.lin.length ≤ (255#8).toNat := by decide

theorem witness_LagCommand :
    State.reset.lag[(0#8).toNat]? = some LagUnit.reset ∧
      State.reset.lag[(3#8).toNat]? = some LagUnit.reset ∧
      State.reset.lag.length ≤ (4#8).toNat := by decide

theorem witness_OscCommand :
    State.reset.osc[(0#8).toNat]? = some OscUnit.reset ∧
      State.reset.osc[(3#8).toNat]? = some OscUnit.reset ∧
      State.reset.osc.length ≤ (4#8).toNat := by decide

theorem witness_NzCommand :
    State.reset.nz[(0#8).toNat]? = some NzUnit.reset ∧
      State.reset.nz[(3#8).toNat]? = some NzUnit.reset ∧
      State.reset.nz.length ≤ (4#8).toNat := by decide

theorem witness_GlobalCommand : (1#8 : BitVec 8) ≠ 0#8 := by decide

/-! ### What the commands amount to -/

theorem witness_FirstUpdateBitChanges :
    exec (.linInit 0#8) (withLin midRamp) =
        .next { withLin LinUnit.reset with responses := [{ err := false, res := 0#32 }] } ∧
      (withLin midRamp).lin[0]? = some midRamp ∧
      { withLin LinUnit.reset with responses := [{ err := false, res := 0#32 }] }.lin[0]? =
        some LinUnit.reset ∧ LinUnit.reset.first ≠ midRamp.first := by
  exact ⟨rfl, by decide, by decide, by decide⟩

theorem witness_FirstUpdateBitChanges_settgt :
    ∃ t, exec (.linSettgt 0#8 0#32) State.reset = .next t ∧
      State.reset.lin[0]? = some LinUnit.reset ∧
      t.lin[0]? = some (linSetTarget 0#32 LinUnit.reset) := by
  have h : State.reset.lin[(0#8).toNat]? = some LinUnit.reset := by decide
  refine ⟨_, onLin_some (f := fun u => (linSetTarget 0#32 u, zeroRes)) h, h, ?_⟩
  simp [respond, pushResponse, State.reset, State.resetWith, Config.defaultParams]

theorem finite_of {a : Word} (h : decide (expField a < 255) = true) : IsFinite a :=
  of_decide_eq_true (p := expField a < 255) h

theorem nan_of {a : Word} (h : decide (expField a = 255 ∧ fracField a ≠ 0) = true) : IsNaN a :=
  of_decide_eq_true (p := expField a = 255 ∧ fracField a ≠ 0) h

theorem inf_of {a : Word} (h : decide (expField a = 255 ∧ fracField a = 0) = true) : IsInf a :=
  of_decide_eq_true (p := expField a = 255 ∧ fracField a = 0) h

/-- `1.0` has the value 1. -/
theorem value_one : value 0x3F800000#32 = 1 := by
  rw [value, show expField 0x3F800000#32 = 127 by decide, show fracField 0x3F800000#32 = 0 by decide,
    show (0x3F800000#32 : Word).msb = false by decide]
  norm_num

/-- `-1.0` has the value -1. -/
theorem value_minus_one : value 0xBF800000#32 = -1 := by
  rw [value, show expField 0xBF800000#32 = 127 by decide, show fracField 0xBF800000#32 = 0 by decide,
    show (0xBF800000#32 : Word).msb = true by decide]
  norm_num

/-- `+0` has the value 0. -/
theorem value_zero : value 0x00000000#32 = 0 := by
  rw [value, show expField 0x00000000#32 = 0 by decide, show fracField 0x00000000#32 = 0 by decide]
  norm_num

/-- `-0` has the value 0. -/
theorem value_minus_zero : value 0x80000000#32 = 0 := by
  rw [value, show expField 0x80000000#32 = 0 by decide, show fracField 0x80000000#32 = 0 by decide]
  norm_num

theorem witness_LinRampIsMonotone :
    State.reset.lin[(0#8).toNat]? = some LinUnit.reset ∧ IsFinite LinUnit.reset.cur ∧
      IsFinite LinUnit.reset.inc ∧ 0 ≤ value LinUnit.reset.inc ∧ value LinUnit.reset.inc ≤ 0 :=
  ⟨by decide, finite_of (by decide), finite_of (by decide), value_zero.ge, value_zero.le⟩

theorem witness_SnapHoldsTheTarget : (withLin midRamp).lin[(0#8).toNat]? = some midRamp := by decide

theorem witness_LagDegenerateCoefficients :
    (withLag { LagUnit.reset with cur := 0x3F800000#32 }).lag[(0#8).toNat]? =
        some { LagUnit.reset with cur := 0x3F800000#32 } ∧
      IsFinite 0x3F800000#32 ∧ IsFinite LagUnit.reset.tgt ∧ LagUnit.reset.k = 0#32 ∧
      LagUnit.reset.km = 0x3F800000#32 ∧ value 0x3F800000#32 ≠ 0 :=
  ⟨by decide, finite_of (by decide), finite_of (by decide), by decide, by decide,
    by rw [value_one]; exact one_ne_zero⟩

theorem witness_LagDegenerateCoefficients_one :
    (withLag { cur := 0#32, tgt := 0x3F800000#32, k := 0x3F800000#32, km := 0#32 }).lag[(0#8).toNat]? =
        some { cur := 0#32, tgt := 0x3F800000#32, k := 0x3F800000#32, km := 0#32 } ∧
      IsFinite 0x00000000#32 ∧ IsFinite 0x3F800000#32 ∧ value 0x3F800000#32 ≠ 0 :=
  ⟨by decide, finite_of (by decide), finite_of (by decide), by rw [value_one]; exact one_ne_zero⟩

theorem witness_OscAtRateZeroStandsStill :
    (withOsc { r := 0x3F800000#32, i := 0xBF800000#32, dr := 0x3F800000#32, di := 0#32 }).osc[
        (0#8).toNat]? =
        some { r := 0x3F800000#32, i := 0xBF800000#32, dr := 0x3F800000#32, di := 0#32 } ∧
      IsFinite 0x3F800000#32 ∧ IsFinite 0xBF800000#32 ∧ value 0x3F800000#32 ≠ 0 ∧
      value 0xBF800000#32 ≠ 0 :=
  ⟨by decide, finite_of (by decide), finite_of (by decide), by rw [value_one]; exact one_ne_zero,
    by rw [value_minus_one]; norm_num⟩

theorem witness_NoiseAtTheEndsOfCorrelation :
    (withNz { h1 := 0x3F800000#32, h2 := 0#32, rho := 0x3F800000#32 }).nz[(0#8).toNat]? =
        some { h1 := 0x3F800000#32, h2 := 0#32, rho := 0x3F800000#32 } ∧
      State.reset.nz[(0#8).toNat]? = some NzUnit.reset ∧ NzUnit.reset.rho = 0#32 ∧
      IsFinite NzUnit.reset.h1 ∧ IsFinite 0x3F800000#32 ∧ value 0x3F800000#32 ≠ 0 :=
  ⟨by decide, by decide, by decide, finite_of (by decide), finite_of (by decide),
    by rw [value_one]; exact one_ne_zero⟩

theorem witness_StorageBoundEqualsSuppliedDraw :
    ∃ t1 t2 tx1 tx2, exec (.nzStep1 0#8) State.reset = .next t1 ∧
      exec (.nzStep2 0#8) State.reset = .next t2 ∧
      exec (.nzStep1x 0#8 (prbsValue (prbsNext State.reset.prbs))) State.reset = .next tx1 ∧
      exec (.nzStep2x 0#8 (prbsValue (prbsNext State.reset.prbs))) State.reset = .next tx2 := by
  have h : State.reset.nz[(0#8).toNat]? = some NzUnit.reset := by decide
  exact ⟨_, _, _, _, onNzDraw_some h, onNzDraw_some h, onNz_some h, onNz_some h⟩

/-! ### The random source and the numeric primitives -/

theorem witness_PrbsStepIsABijection : (0x00000001#32 : Word) ≠ 0#32 := by decide

/-- The first draws of R232. -/
theorem test_first_draws :
    prbsNext 0x00000001#32 = 0x8A0F3DB5#32 ∧ prbsValue 0x8A0F3DB5#32 = 0xBF6BE186#32 ∧
      prbsNext 0x8A0F3DB5#32 = 0x90BD2FA6#32 ∧ prbsValue 0x90BD2FA6#32 = 0xBF5E85A2#32 ∧
      prbsNext 0x90BD2FA6#32 = 0x44C38D95#32 ∧ prbsValue 0x44C38D95#32 = 0x3F09871A#32 := by
  decide +kernel

/-- The classes the hypotheses of the arithmetic statements name, each with a word in it. -/
theorem witness_classes :
    IsNaN 0xFF800001#32 ∧ IsNaN 0x7FC00000#32 ∧ IsInf 0x7F800000#32 ∧ IsInf 0xFF800000#32 ∧
      IsFinite 0x00000000#32 ∧ IsFinite 0x7F7FFFFF#32 ∧ ¬ IsFinite 0x7F800000#32 :=
  ⟨nan_of (by decide), nan_of (by decide), inf_of (by decide), inf_of (by decide),
    finite_of (by decide), finite_of (by decide), of_decide_eq_true (p := ¬ expField _ < 255) (by decide)⟩

theorem witness_FormatClassesAndValues : IsFinite 0x00000001#32 := finite_of (by decide)

theorem witness_AdditionRoundsOnce :
    IsNaN 0x7FC00000#32 ∧ IsInf 0x7F800000#32 ∧ IsInf 0xFF800000#32 ∧
      (0x7F800000#32 : Word) ≠ 0xFF800000#32 ∧ IsFinite 0x3F800000#32 ∧ IsFinite 0xBF800000#32 ∧
      value 0x3F800000#32 + value 0xBF800000#32 = 0 ∧
      value 0x80000000#32 + value 0x80000000#32 = 0 ∧
      value 0x3F800000#32 + value 0x00000000#32 ≠ 0 := by
  refine ⟨nan_of (by decide), inf_of (by decide), inf_of (by decide), by decide,
    finite_of (by decide), finite_of (by decide), ?_, ?_, ?_⟩ <;>
    simp [value_one, value_minus_one, value_zero, value_minus_zero]

theorem witness_MultiplicationRoundsOnce :
    IsNaN 0x7FC00000#32 ∧ IsInf 0x7F800000#32 ∧ IsFinite 0x80000000#32 ∧ value 0x80000000#32 = 0 ∧
      IsFinite 0xBF800000#32 ∧ value 0xBF800000#32 ≠ 0 :=
  ⟨nan_of (by decide), inf_of (by decide), finite_of (by decide), value_minus_zero,
    finite_of (by decide), by rw [value_minus_one]; norm_num⟩

theorem witness_DivisionRoundsOnce :
    IsNaN 0x7FC00000#32 ∧ IsInf 0xFF800000#32 ∧ IsFinite 0x80000000#32 ∧ value 0x80000000#32 = 0 ∧
      IsFinite 0x3F800000#32 ∧ value 0x3F800000#32 ≠ 0 :=
  ⟨nan_of (by decide), inf_of (by decide), finite_of (by decide), value_minus_zero,
    finite_of (by decide), by rw [value_one]; exact one_ne_zero⟩

theorem witness_SquareRootRoundsOnce :
    IsNaN 0x7FC00000#32 ∧ (0x80000001#32 : Word).msb = true ∧ ¬ IsNaN 0x80000001#32 ∧
      (0x80000001#32 : Word) ≠ 0x80000000#32 ∧ IsFinite 0x3F800000#32 ∧ 0 < value 0x3F800000#32 :=
  ⟨nan_of (by decide), by decide,
    of_decide_eq_true (p := ¬(expField _ = 255 ∧ fracField _ ≠ 0)) (by decide), by decide,
    finite_of (by decide), by rw [value_one]; exact one_pos⟩

/-- Invalid operations do return NaNs. -/
theorem witness_NaNResultsAreCanonical :
    IsNaN (fadd 0x7F800000#32 0xFF800000#32) ∧ IsNaN (fsub 0x7F800000#32 0x7F800000#32) ∧
      IsNaN (fmul 0x7F800000#32 0#32) ∧ IsNaN (fdiv 0#32 0#32) ∧ IsNaN (fsqrt 0xBF800000#32) ∧
      IsNaN (fcos 0x7F800000#32) ∧ IsNaN (fsin 0x7F800000#32) ∧ IsNaN (flog2 0xBF800000#32) ∧
      IsNaN (fexp2 0xFFC00000#32) ∧ IsNaN (fcbrt 0x7F800001#32) := by
  refine ⟨?_, ?_, ?_, ?_, ?_, ?_, ?_, ?_, ?_, ?_⟩ <;> exact nan_of (by decide +kernel)

theorem witness_CubeRootProperties :
    IsFinite 0x3F800000#32 ∧ value 0x3F800000#32 ^ 3 = value 0x3F800000#32 ∧
      value 0x3F800000#32 ≠ 0 ∧ fle 0xBF800000#32 0x3F800000#32 = true ∧ IsNaN 0x7FC00000#32 := by
  refine ⟨finite_of (by decide), ?_, ?_, by decide, nan_of (by decide)⟩ <;> simp [value_one]

theorem witness_CosineAndSineProperties : IsFinite 0x3F490FDB#32 ∧ ¬ IsFinite 0xFF800000#32 :=
  ⟨finite_of (by decide), of_decide_eq_true (p := ¬ expField _ < 255) (by decide)⟩

theorem witness_LogarithmExactValues :
    IsFinite 0x3F800000#32 ∧ value 0x3F800000#32 = 2 ^ (0 : ℤ) ∧
      (0x80000001#32 : Word).msb = true ∧ (0x80000001#32 : Word) ≠ 0x80000000#32 ∧
      IsNaN 0x7FC00000#32 :=
  ⟨finite_of (by decide), by rw [value_one]; rfl, by decide, by decide, nan_of (by decide)⟩

theorem witness_PowerOfTwoExactValues :
    IsFinite 0x3F800000#32 ∧ value 0x3F800000#32 = ((1 : ℤ) : ℚ) ∧
      fge 0x43000000#32 0x43000000#32 = true ∧ fge 0x7F800000#32 0x43000000#32 = true ∧
      fle 0xC3160000#32 0xC3160000#32 = true ∧ ¬ IsNaN 0x3F800000#32 ∧ IsNaN 0x7FC00000#32 :=
  ⟨finite_of (by decide), by rw [value_one]; rfl, by decide, by decide, by decide,
    of_decide_eq_true (p := ¬(expField _ = 255 ∧ fracField _ ≠ 0)) (by decide), nan_of (by decide)⟩

theorem witness_OutputClampGuardsTheDecibelPair :
    fle 0xC3400000#32 0x42C00000#32 = true ∧ IsNaN 0x7FC00000#32 ∧
      fgt 0x7F800000#32 0x42C00000#32 = true ∧ flt 0xFF800000#32 0xC3400000#32 = true ∧
      fle 0xC3400000#32 0xC3400000#32 = true ∧
      exec (.fnA2db 0#32) State.reset = .next (answered State.reset 0xC3400000#32) ∧
      exec (.fnDb2a 0x7FC00000#32) State.reset = .next (answered State.reset 0#32) := by
  refine ⟨by decide, nan_of (by decide), by decide, by decide, by decide, ?_, ?_⟩
  · show Host.Outcome.next (respond State.reset (ampToDb 0#32)) = _
    rw [show ampToDb 0#32 = 0xC3400000#32 by decide +kernel]
    rfl
  · show Host.Outcome.next (respond State.reset (dbToAmp 0x7FC00000#32)) = _
    rw [show dbToAmp 0x7FC00000#32 = 0#32 by decide +kernel]
    rfl

end Sys2Proof.Tests
end

-- The statements of `spec/00_scope.md`: what a step can do, what it keeps, and where `boot` refuses.
section
/-! PROOFS. Statements about the machine as a whole: O6, O14, O15 and O16. One lemma says what a command
can do to the state (`exec_completes`), one what a step can do (`step_cases`); the parameters' and the
invariant's preservation are case splits over them. -/

namespace Sys2Proof.Machine

/-! ### One step -/

theorem step_nil {s : State} (h : s.inputs = []) : step s = .next s := by
  simp [step, h]

theorem step_cons {s : State} {a : HostAction} {rest : List HostAction} (h : s.inputs = a :: rest) :
    step s = hostAct a { s with inputs := rest } := by
  simp [step, h]

theorem hostAct_command (cmd arg : Word) (s : State) :
    hostAct (.command cmd arg) s = runCommand cmd arg s := rfl

theorem runCommand_ok {cmd arg : Word} {i : Instr} (h : decode cmd arg = .ok i) (s : State) :
    runCommand cmd arg s = exec i s := by
  simp [runCommand, h]

theorem runCommand_error {cmd arg : Word} {e : DecodeError} (h : decode cmd arg = .error e) (s : State) :
    runCommand cmd arg s = .next (raiseIllegal s) := by
  simp [runCommand, h]

/-- Settles O6. -/
theorem stepRunsTheDecodedCommand : Obligations.StepRunsTheDecodedCommand := by
  intro s cmd arg rest i hinputs hdecode
  rw [step_cons hinputs, hostAct_command, runCommand_ok hdecode]

/-! ### Accepted configurations (U9, U12) -/

theorem countOk_eq_false_iff (n : Nat) : Config.countOk n = false ↔ n = 0 ∨ 256 < n := by
  simp only [Config.countOk, Bool.and_eq_false_iff, decide_eq_false_iff_not]
  omega

theorem boot_eq_refused_iff (p : Config.Params) :
    boot p = .refused .badParameters ↔ p.accepted = false := by
  cases h : p.accepted <;> simp [boot, h]

theorem boot_of_accepted {p : Config.Params} (h : p.accepted = true) :
    boot p = .next (State.resetWith p) := by
  simp [boot, h]

theorem accepted_eq_false_iff (p : Config.Params) :
    p.accepted = false ↔
      (p.nlin = 0 ∨ 256 < p.nlin) ∨ (p.nlag = 0 ∨ 256 < p.nlag) ∨ (p.nosc = 0 ∨ 256 < p.nosc) ∨
        (p.nnz = 0 ∨ 256 < p.nnz) ∨ flt posZero p.ampEps = false := by
  simp only [Config.Params.accepted, Bool.and_eq_false_iff, countOk_eq_false_iff, or_assoc]

/-- Settles O14. -/
theorem bootRefusesBadParameters : Obligations.BootRefusesBadParameters := by
  intro p
  refine ⟨(boot_eq_refused_iff p).trans (accepted_eq_false_iff p), fun hboot => ?_⟩
  rw [Ne, boot_eq_refused_iff, Bool.not_eq_false] at hboot
  exact boot_of_accepted hboot

/-! ### What a command can do -/

/-- `km` is the complement of `k` (R29, R172), the clause of `State.Inv` about one unit of LAG. -/
def LagUnit.Complement (u : LagUnit) : Prop := u.km = fsub one u.k

theorem lagReset_complement : LagUnit.reset.Complement := by
  unfold LagUnit.Complement
  decide

/-- The ways a command changes the state: one response always, and at most one unit, which in LAG
keeps `km` the complement of `k`. -/
inductive Effect (s : State) : State → Prop where
  | illegal : Effect s (raiseIllegal s)
  | answer (v : Word) : Effect s (respond s v)
  | seed (w : Word) : Effect s (respond { s with prbs := seedValue w } zeroRes)
  | lin (m : Nat) (u : LinUnit) (v : Word) : Effect s (respond { s with lin := s.lin.set m u } v)
  | lag {m : Nat} {old : LagUnit} (u : LagUnit) (v : Word) (hold : s.lag[m]? = some old)
      (hkeep : old.Complement → u.Complement) : Effect s (respond { s with lag := s.lag.set m u } v)
  | osc (m : Nat) (u : OscUnit) (v : Word) : Effect s (respond { s with osc := s.osc.set m u } v)
  | nz (m : Nat) (z : NzUnit) (v : Word) : Effect s (respond { s with nz := s.nz.set m z } v)
  | draw (m : Nat) (z : NzUnit) (v : Word) :
      Effect s (respond { s with prbs := prbsNext s.prbs, nz := s.nz.set m z } v)

/-- The result is a next state, reached from `s` by one of the effects. -/
def Completes (s : State) (r : Result) : Prop := ∃ t, r = .next t ∧ Effect s t

theorem Effect.completes {s t : State} (h : Effect s t) : Completes s (.next t) := ⟨t, rfl, h⟩

theorem onLin_completes (n : BitVec 8) (f : LinUnit → LinUnit × Word) (s : State) :
    Completes s (onLin n f s) := by
  cases hu : s.lin[n.toNat]? with
  | none => rw [onLin_none hu]; exact Effect.illegal.completes
  | some u => rw [onLin_some hu]; exact (Effect.lin ..).completes

theorem onLag_completes {n : BitVec 8} {f : LagUnit → LagUnit × Word} {s : State}
    (hf : ∀ u, u.Complement → (f u).1.Complement) : Completes s (onLag n f s) := by
  cases hu : s.lag[n.toNat]? with
  | none => rw [onLag_none hu]; exact Effect.illegal.completes
  | some u => rw [onLag_some hu]; exact (Effect.lag _ _ hu (hf u)).completes

theorem onOsc_completes (n : BitVec 8) (f : OscUnit → OscUnit × Word) (s : State) :
    Completes s (onOsc n f s) := by
  cases hu : s.osc[n.toNat]? with
  | none => rw [onOsc_none hu]; exact Effect.illegal.completes
  | some u => rw [onOsc_some hu]; exact (Effect.osc ..).completes

theorem onNz_completes (n : BitVec 8) (f : NzUnit → NzUnit × Word) (s : State) :
    Completes s (onNz n f s) := by
  cases hz : s.nz[n.toNat]? with
  | none => rw [onNz_none hz]; exact Effect.illegal.completes
  | some z => rw [onNz_some hz]; exact (Effect.nz ..).completes

theorem onNzDraw_completes (n : BitVec 8) (f : Word → NzUnit → NzUnit × Word) (s : State) :
    Completes s (onNzDraw n f s) := by
  cases hz : s.nz[n.toNat]? with
  | none => rw [onNzDraw_none hz]; exact Effect.illegal.completes
  | some z => rw [onNzDraw_some hz]; exact (Effect.draw ..).completes

/-- Every command, in every state, ends in a next state (R282). -/
theorem exec_completes (i : Instr) (s : State) : Completes s (exec i s) := by
  cases i with
  | sysNop | sysStatus | sysPrbs => exact (Effect.answer _).completes
  | sysSeed w => exact (Effect.seed w).completes
  | linInit | linSetblk | linCfg | linSettgt | linAdv | linSnap | linGetcur | linGettgt =>
    exact onLin_completes ..
  | lagInit => exact onLag_completes fun _ _ => lagReset_complement
  | lagSetk => exact onLag_completes fun _ _ => rfl
  | lagSettgt | lagSetimm | lagAdv | lagSnap | lagGetcur | lagGettgt =>
    exact onLag_completes fun _ h => h
  | oscInit | oscSetrate | oscSetphase | oscAdv | oscGetr | oscGeti => exact onOsc_completes ..
  | nzInit | nzRst | nzSetcorr | nzStep1x | nzStep2x => exact onNz_completes ..
  | nzStep1 | nzStep2 => exact onNzDraw_completes ..
  | fnFlush | fnClamp01 | fnClamp1bp | fnTanhf | fnTanhp | fnA2l | fnL2a | fnA2db | fnDb2a =>
    exact (Effect.answer _).completes

theorem runCommand_completes (cmd arg : Word) (s : State) : Completes s (runCommand cmd arg s) := by
  cases h : decode cmd arg with
  | ok i => rw [runCommand_ok h]; exact exec_completes i s
  | error e => rw [runCommand_error h]; exact Effect.illegal.completes

/-! ### What a step can do -/

theorem hostAct_total (a : HostAction) (s : State) : ∃ t, hostAct a s = .next t := by
  cases a with
  | reset => exact ⟨_, rfl⟩
  | take => exact ⟨_, rfl⟩
  | command cmd arg =>
    obtain ⟨t, ht, -⟩ := runCommand_completes cmd arg s
    exact ⟨t, ht⟩

/-- Nothing traps and nothing hangs (R15). -/
theorem step_total (s : State) : ∃ t, step s = .next t := by
  cases h : s.inputs with
  | nil => exact ⟨s, step_nil h⟩
  | cons a rest => rw [step_cons h]; exact hostAct_total a _

theorem step_cases {s t : State} (h : step s = .next t) :
    t = s ∨ ∃ rest, t = hostReset { s with inputs := rest } ∨
      t = takeResponse { s with inputs := rest } ∨ Effect { s with inputs := rest } t := by
  cases hin : s.inputs with
  | nil =>
    rw [step_nil hin] at h
    cases h
    exact .inl rfl
  | cons a rest =>
    rw [step_cons hin] at h
    refine .inr ⟨rest, ?_⟩
    obtain ⟨-, ht⟩ | ⟨-, ht⟩ | ⟨cmd, arg, -, hrun⟩ := hostAct_cases h
    · exact .inl ht
    · exact .inr (.inl ht)
    · obtain ⟨t', ht', heffect⟩ := runCommand_completes cmd arg { s with inputs := rest }
      cases hrun.symm.trans ht'
      exact .inr (.inr heffect)

/-! ### The parameters (R6, R14) -/

theorem Effect.params_eq {s t : State} (h : Effect s t) : t.params = s.params := by
  cases h <;> simp [State.params]

theorem step_params {s t : State} (h : step s = .next t) : t.params = s.params := by
  obtain rfl | ⟨rest, rfl | rfl | heffect⟩ := step_cases h
  · rfl
  · exact params_hostReset _
  · exact params_takeResponse _
  · exact heffect.params_eq

/-- Settles O16. -/
theorem parametersNeverChange : Obligations.ParametersNeverChange := by
  intro s t h
  simpa only [State.params, Config.Params.mk.injEq] using step_params h

/-! ### The shift register is never zero (R25) -/

theorem seedValue_ne_zero (w : Word) : seedValue w ≠ 0#32 := by
  unfold seedValue
  split
  · decide
  · assumption

/-- Where bit 0 goes out, the feedback mask sets bit 31; else no set bit is lost. -/
theorem prbsStep_ne_zero {w : Word} (h : w ≠ 0#32) : prbsStep w ≠ 0#32 := by
  unfold prbsStep
  split
  next =>
    intro h0
    have hbit := congrArg (BitVec.getLsbD · 31) h0
    simp [prbsPoly] at hbit
  next hbit =>
    have heven : w.toNat % 2 = 0 := by
      simpa [BitVec.getLsbD, Nat.testBit_zero] using hbit
    rw [Ne, ← BitVec.toNat_inj, BitVec.toNat_ofNat] at h ⊢
    rw [BitVec.toNat_ushiftRight, Nat.shiftRight_eq_div_pow]
    omega

theorem prbsSteps_ne_zero (n : Nat) {w : Word} (h : w ≠ 0#32) : prbsSteps n w ≠ 0#32 := by
  induction n generalizing w with
  | zero => exact h
  | succ n ih => exact ih (prbsStep_ne_zero h)

theorem prbsNext_ne_zero {w : Word} (h : w ≠ 0#32) : prbsNext w ≠ 0#32 := prbsSteps_ne_zero 32 h

/-! ### The invariant -/

/-- The reserved bits are zero also where ILL is set (R24). -/
theorem statusReserved_or_illBit {w : Word} (h : w.extractLsb' 1 31 = 0#31) :
    (w ||| illBit).extractLsb' 1 31 = 0#31 := by
  rw [BitVec.extractLsb'_or, h]
  decide

theorem Effect.inv {s t : State} (h : Effect s t) (hs : s.Inv) : t.Inv := by
  have hparams : t.params.accepted = true := by rw [h.params_eq]; exact hs.accepted
  obtain ⟨hstatus, hprbs, hcompl, -⟩ := hs
  cases h with
  | illegal => exact ⟨statusReserved_or_illBit hstatus, hprbs, hcompl, hparams⟩
  | answer | lin | osc | nz => exact ⟨hstatus, hprbs, hcompl, hparams⟩
  | seed w => exact ⟨hstatus, seedValue_ne_zero w, hcompl, hparams⟩
  | draw => exact ⟨hstatus, prbsNext_ne_zero hprbs, hcompl, hparams⟩
  | lag u v hold hkeep =>
    refine ⟨hstatus, hprbs, fun x hx => ?_, hparams⟩
    obtain hx | rfl := List.mem_or_eq_of_mem_set hx
    · exact hcompl x hx
    · exact hkeep (hcompl _ (List.mem_of_getElem? hold))

theorem resetWith_inv {p : Config.Params} (h : p.accepted = true) : (State.resetWith p).Inv where
  statusReserved := by simp
  prbsNonzero := by simp
  complement u hu := by
    obtain rfl := List.eq_of_mem_replicate hu
    exact lagReset_complement
  accepted := by rw [params_resetWith]; exact h

theorem withInputs_inv {s : State} (h : s.Inv) (acts : List HostAction) :
    State.Inv { s with inputs := acts } :=
  ⟨h.statusReserved, h.prbsNonzero, h.complement, h.accepted⟩

theorem hostReset_inv {s : State} (h : s.Inv) : (hostReset s).Inv :=
  withInputs_inv (resetWith_inv h.accepted) s.inputs

theorem takeResponse_inv {s : State} (h : s.Inv) : (takeResponse s).Inv :=
  ⟨h.statusReserved, h.prbsNonzero, h.complement, h.accepted⟩

theorem step_inv {s t : State} (hs : s.Inv) (h : step s = .next t) : t.Inv := by
  obtain rfl | ⟨rest, rfl | rfl | heffect⟩ := step_cases h
  · exact hs
  · exact hostReset_inv (withInputs_inv hs rest)
  · exact takeResponse_inv (withInputs_inv hs rest)
  · exact heffect.inv (withInputs_inv hs rest)

theorem Reaches.inv {s t : State} (h : Reaches s t) (hs : s.Inv) : t.Inv := by
  induction h with
  | refl => exact hs
  | step _ hstep ih => exact step_inv ih hstep

/-- Settles O15, by the invariant along the run and the totality of the step. -/
theorem everyReachableStateIsGoodAndGoesOn : Obligations.EveryReachableStateIsGoodAndGoesOn := by
  intro p acts s hp hrun
  exact ⟨hrun.inv (withInputs_inv (resetWith_inv hp) acts), step_total s⟩

end Sys2Proof.Machine
end

-- The statements of `spec/10_state.md`: the invariant, the one flag, what a command leaves unchanged
-- and what it depends on, reset, and the commands of SYS.
section
/-! PROOFS. Statements about the state: O10, O11, O12, O17, O18, O19 and O23. One lemma says what the
meaning of each command is made of (`exec_meaning`); what a command leaves unchanged (R32, the writes)
and what it depends on (R32, the reads) are case splits over it. -/

namespace Sys2Proof.Machine

open Sys2Proof.Claim

/-! ### The invariant -/

/-- Settles O10, by what a step can do (`step_cases`) and what each effect keeps (`Effect.inv`). -/
theorem goodStatesStayGood : Obligations.GoodStatesStayGood := by
  intro s t hs hstep
  exact step_inv hs hstep

/-- Settles O11: the default configuration is one of the accepted. -/
theorem resetStateIsGood : Obligations.ResetStateIsGood := by
  have hdefault : Config.defaultParams.accepted = true := by decide
  exact ⟨fun _ hp => resetWith_inv hp, resetWith_inv hdefault⟩

/-! ### Reset (R36, R300) -/

theorem step_reset {s : State} {rest : List HostAction} (h : s.inputs = .reset :: rest) :
    step s = .next (hostReset { s with inputs := rest }) := step_cons h

/-- Settles O12: each unit's list after a reset repeats the unit's reset value. -/
theorem resetGivesEveryElementItsValue : Obligations.ResetGivesEveryElementItsValue := by
  intro s rest hinputs
  refine ⟨_, step_reset hinputs, hostReset_status _, hostReset_prbs _, ?_⟩
  simp [LinUnit.reset, LagUnit.reset, OscUnit.reset, NzUnit.reset]

/-! ### What a meaning is made of -/

/-- The meaning of `i` is an operation on the one element of a unit's list that `i` addresses, a seed, or
an answer alone. What is done to the element depends on it (and on the draw) and on nothing else of the
state, and an answer alone on what `AgreeFor` lists. -/
inductive Meaning (i : Instr) : Prop where
  | lin (n : BitVec 8) (f : LinUnit → LinUnit × Word) (hunit : i.unit = .lin)
      (hinst : i.inst? = some n) (hexec : ∀ s, exec i s = onLin n f s)
  | lag (n : BitVec 8) (f : LagUnit → LagUnit × Word) (hunit : i.unit = .lag)
      (hinst : i.inst? = some n) (hexec : ∀ s, exec i s = onLag n f s)
  | osc (n : BitVec 8) (f : OscUnit → OscUnit × Word) (hunit : i.unit = .osc)
      (hinst : i.inst? = some n) (hexec : ∀ s, exec i s = onOsc n f s)
  | nz (n : BitVec 8) (f : NzUnit → NzUnit × Word) (hunit : i.unit = .nz)
      (hinst : i.inst? = some n) (hexec : ∀ s, exec i s = onNz n f s)
  | draw (n : BitVec 8) (f : Word → NzUnit → NzUnit × Word) (hi : i = .nzStep1 n ∨ i = .nzStep2 n)
      (hexec : ∀ s, exec i s = onNzDraw n f s)
  | seed (w : Word) (hi : i = .sysSeed w)
  | answer (v : State → Word) (hreads : ∀ s s', AgreeFor i s s' → v s = v s')
      (hexec : ∀ s, exec i s = .next (respond s (v s)))

theorem exec_meaning (i : Instr) : Meaning i := by
  cases i with
  | sysStatus =>
    refine .answer readStatus (fun s s' h => ?_) fun _ => rfl
    rw [readStatus, readStatus, h.status rfl]
  | sysPrbs => exact .answer State.prbs (fun _ _ h => h.prbs rfl) fun _ => rfl
  | sysSeed w => exact .seed w rfl
  | linInit n | linSetblk n | linCfg n | linSettgt n | linAdv n | linSnap n | linGetcur n
  | linGettgt n => exact .lin n _ rfl rfl fun _ => rfl
  | lagInit n | lagSetk n | lagSettgt n | lagSetimm n | lagAdv n | lagSnap n | lagGetcur n
  | lagGettgt n => exact .lag n _ rfl rfl fun _ => rfl
  | oscInit n | oscSetrate n | oscSetphase n | oscAdv n | oscGetr n | oscGeti n =>
    exact .osc n _ rfl rfl fun _ => rfl
  | nzInit n | nzRst n | nzSetcorr n | nzStep1x n | nzStep2x n => exact .nz n _ rfl rfl fun _ => rfl
  | nzStep1 n => exact .draw n _ (.inl rfl) fun _ => rfl
  | nzStep2 n => exact .draw n _ (.inr rfl) fun _ => rfl
  | fnTanhf x =>
    exact .answer (fun s => tanhFast s.tanhA x) (fun _ _ h => by rw [h.tanhA ⟨x, rfl⟩]) fun _ => rfl
  | fnL2a x =>
    exact .answer (fun s => linearToAmp s.ampEps x) (fun _ _ h => by rw [h.ampEps ⟨x, rfl⟩])
      fun _ => rfl
  | sysNop | fnFlush | fnClamp01 | fnClamp1bp | fnTanhp | fnA2l | fnA2db | fnDb2a =>
    exact .answer (fun _ => _) (fun _ _ _ => rfl) fun _ => rfl

theorem addresses_inst {i : Instr} {u : UnitKind} {n : BitVec 8} (hunit : i.unit = u)
    (hinst : i.inst? = some n) : Addresses i u n.toNat := ⟨hunit, n, hinst, rfl⟩

/-- A draw addresses its element of NZ. -/
theorem addresses_draw {i : Instr} {n : BitVec 8} (hi : i = .nzStep1 n ∨ i = .nzStep2 n) :
    Addresses i .nz n.toNat := by
  obtain rfl | rfl := hi <;> exact addresses_inst rfl rfl

/-- A command whose index is at or above its unit's count is not well formed (R90 clause 4). -/
theorem not_wellFormed_of_addresses {i : Instr} {u : UnitKind} {m : Nat} (h : Addresses i u m)
    {c : Counts} (hlen : c.of u ≤ m) : i.wellFormed c = false := by
  obtain ⟨rfl, n, hinst, rfl⟩ := h
  simpa [Instr.wellFormed, hinst] using hlen

/-! ### What a command leaves unchanged (R32, the writes) -/

/-- `t` is as `s` but for what the command `i` may write: the clauses of InstancesAreNotDisturbed. -/
structure Frame (i : Instr) (s t : State) : Prop where
  lin : ∀ m, ¬ Addresses i .lin m → t.lin[m]? = s.lin[m]?
  lag : ∀ m, ¬ Addresses i .lag m → t.lag[m]? = s.lag[m]?
  osc : ∀ m, ¬ Addresses i .osc m → t.osc[m]? = s.osc[m]?
  nz : ∀ m, ¬ Addresses i .nz m → t.nz[m]? = s.nz[m]?
  prbs : (∀ w, i ≠ .sysSeed w) → (∀ n, i ≠ .nzStep1 n) → (∀ n, i ≠ .nzStep2 n) → t.prbs = s.prbs
  status : i.wellFormed s.counts = true → t.status = s.status
  inputs : t.inputs = s.inputs

theorem frame_respond (i : Instr) (s : State) (v : Word) : Frame i s (respond s v) where
  lin _ _ := rfl
  lag _ _ := rfl
  osc _ _ := rfl
  nz _ _ := rfl
  prbs _ _ _ := rfl
  status _ := rfl
  inputs := rfl

theorem frame_raiseIllegal {i : Instr} {s : State} (h : i.wellFormed s.counts = false) :
    Frame i s (raiseIllegal s) where
  lin _ _ := rfl
  lag _ _ := rfl
  osc _ _ := rfl
  nz _ _ := rfl
  prbs _ _ _ := rfl
  status hwf := absurd hwf (by simp [h])
  inputs := rfl

/-- Writing the element the command addresses leaves those it does not address. -/
theorem getElem?_set_of_not_addresses {α : Type} {i : Instr} {u : UnitKind} {k m : Nat} {l : List α}
    {a : α} (hk : Addresses i u k) (hm : ¬ Addresses i u m) : (l.set k a)[m]? = l[m]? :=
  List.getElem?_set_ne (by rintro rfl; exact hm hk)

theorem onLin_frame {i : Instr} {n : BitVec 8} {f : LinUnit → LinUnit × Word} {s t : State}
    (ha : Addresses i .lin n.toNat) (h : onLin n f s = .next t) : Frame i s t := by
  obtain ⟨hnone, rfl⟩ | ⟨u, -, rfl⟩ := onLin_cases h
  · exact frame_raiseIllegal (not_wellFormed_of_addresses ha (List.getElem?_eq_none_iff.1 hnone))
  · exact { frame_respond i s (f u).2 with lin := fun _ hm => getElem?_set_of_not_addresses ha hm }

theorem onLag_frame {i : Instr} {n : BitVec 8} {f : LagUnit → LagUnit × Word} {s t : State}
    (ha : Addresses i .lag n.toNat) (h : onLag n f s = .next t) : Frame i s t := by
  obtain ⟨hnone, rfl⟩ | ⟨u, -, rfl⟩ := onLag_cases h
  · exact frame_raiseIllegal (not_wellFormed_of_addresses ha (List.getElem?_eq_none_iff.1 hnone))
  · exact { frame_respond i s (f u).2 with lag := fun _ hm => getElem?_set_of_not_addresses ha hm }

theorem onOsc_frame {i : Instr} {n : BitVec 8} {f : OscUnit → OscUnit × Word} {s t : State}
    (ha : Addresses i .osc n.toNat) (h : onOsc n f s = .next t) : Frame i s t := by
  obtain ⟨hnone, rfl⟩ | ⟨u, -, rfl⟩ := onOsc_cases h
  · exact frame_raiseIllegal (not_wellFormed_of_addresses ha (List.getElem?_eq_none_iff.1 hnone))
  · exact { frame_respond i s (f u).2 with osc := fun _ hm => getElem?_set_of_not_addresses ha hm }

theorem onNz_frame {i : Instr} {n : BitVec 8} {f : NzUnit → NzUnit × Word} {s t : State}
    (ha : Addresses i .nz n.toNat) (h : onNz n f s = .next t) : Frame i s t := by
  obtain ⟨hnone, rfl⟩ | ⟨z, -, rfl⟩ := onNz_cases h
  · exact frame_raiseIllegal (not_wellFormed_of_addresses ha (List.getElem?_eq_none_iff.1 hnone))
  · exact { frame_respond i s (f z).2 with nz := fun _ hm => getElem?_set_of_not_addresses ha hm }

theorem onNzDraw_frame {i : Instr} {n : BitVec 8} {f : Word → NzUnit → NzUnit × Word} {s t : State}
    (hi : i = .nzStep1 n ∨ i = .nzStep2 n) (h : onNzDraw n f s = .next t) : Frame i s t := by
  have ha := addresses_draw hi
  obtain ⟨hnone, rfl⟩ | ⟨z, -, rfl⟩ := onNzDraw_cases h
  · exact frame_raiseIllegal (not_wellFormed_of_addresses ha (List.getElem?_eq_none_iff.1 hnone))
  · exact { frame_respond i s (f (prbsValue (prbsNext s.prbs)) z).2 with
      nz := fun _ hm => getElem?_set_of_not_addresses ha hm
      prbs := fun _ hstep1 hstep2 => (hi.elim (hstep1 n) (hstep2 n)).elim }

theorem exec_frame {i : Instr} {s t : State} (h : exec i s = .next t) : Frame i s t := by
  cases exec_meaning i with
  | lin n f hunit hinst hexec => rw [hexec] at h; exact onLin_frame (addresses_inst hunit hinst) h
  | lag n f hunit hinst hexec => rw [hexec] at h; exact onLag_frame (addresses_inst hunit hinst) h
  | osc n f hunit hinst hexec => rw [hexec] at h; exact onOsc_frame (addresses_inst hunit hinst) h
  | nz n f hunit hinst hexec => rw [hexec] at h; exact onNz_frame (addresses_inst hunit hinst) h
  | draw n f hi hexec => rw [hexec] at h; exact onNzDraw_frame hi h
  | seed w hi =>
    subst hi
    cases h
    exact { frame_respond (.sysSeed w) s zeroRes with prbs := fun hseed _ _ => absurd rfl (hseed w) }
  | answer v hreads hexec =>
    rw [hexec] at h
    cases h
    exact frame_respond i s (v s)

/-- Settles O18, by the frame of each kind of meaning. -/
theorem instancesAreNotDisturbed : Obligations.InstancesAreNotDisturbed := by
  intro i s t h
  obtain ⟨hlin, hlag, hosc, hnz, hprbs, hstatus, hinputs⟩ := exec_frame h
  exact ⟨hlin, hlag, hosc, hnz, hprbs, hstatus, hinputs⟩

/-! ### What a command depends on (R32, the reads) -/

/-- The two states after `i` agree on what the command wrote, and `i` answered both alike: what
ResponseDependsOnOwnInstanceOnly asks of them. -/
def SameEffect (i : Instr) (s s' : State) (x x' : Result) : Prop :=
  ∃ r t t', x = .next t ∧ x' = .next t' ∧
    t.responses = s.responses ++ [r] ∧ t'.responses = s'.responses ++ [r] ∧
    (∀ m, Addresses i .lin m → t.lin[m]? = t'.lin[m]?) ∧
    (∀ m, Addresses i .lag m → t.lag[m]? = t'.lag[m]?) ∧
    (∀ m, Addresses i .osc m → t.osc[m]? = t'.osc[m]?) ∧
    (∀ m, Addresses i .nz m → t.nz[m]? = t'.nz[m]?) ∧
    (usesPrbs i = true → t.prbs = t'.prbs)

theorem sameEffect_illegal {i : Instr} {s s' : State} (h : AgreeFor i s s') :
    SameEffect i s s' (.next (raiseIllegal s)) (.next (raiseIllegal s')) :=
  ⟨_, _, _, rfl, rfl, rfl, rfl, h.lin, h.lag, h.osc, h.nz, h.prbs⟩

theorem sameEffect_respond {i : Instr} {s s' : State} (h : AgreeFor i s s') (v : Word) :
    SameEffect i s s' (.next (respond s v)) (.next (respond s' v)) :=
  ⟨_, _, _, rfl, rfl, rfl, rfl, h.lin, h.lag, h.osc, h.nz, h.prbs⟩

/-- Writing the same element keeps two lists alike at an index where they are. -/
theorem getElem?_set_congr {α : Type} {l l' : List α} {m : Nat} (h : l[m]? = l'[m]?) (k : Nat)
    (a : α) : (l.set k a)[m]? = (l'.set k a)[m]? := by
  rw [List.getElem?_set', List.getElem?_set', h]

theorem onLin_sameEffect {i : Instr} {s s' : State} (h : AgreeFor i s s') {n : BitVec 8}
    (ha : Addresses i .lin n.toNat) (f : LinUnit → LinUnit × Word) :
    SameEffect i s s' (onLin n f s) (onLin n f s') := by
  have hsame := h.lin _ ha
  cases hu : s.lin[n.toNat]? with
  | none => rw [onLin_none hu, onLin_none (hsame.symm.trans hu)]; exact sameEffect_illegal h
  | some u =>
    rw [onLin_some hu, onLin_some (hsame.symm.trans hu)]
    exact ⟨_, _, _, rfl, rfl, rfl, rfl, fun m hm => getElem?_set_congr (h.lin m hm) _ _,
      h.lag, h.osc, h.nz, h.prbs⟩

theorem onLag_sameEffect {i : Instr} {s s' : State} (h : AgreeFor i s s') {n : BitVec 8}
    (ha : Addresses i .lag n.toNat) (f : LagUnit → LagUnit × Word) :
    SameEffect i s s' (onLag n f s) (onLag n f s') := by
  have hsame := h.lag _ ha
  cases hu : s.lag[n.toNat]? with
  | none => rw [onLag_none hu, onLag_none (hsame.symm.trans hu)]; exact sameEffect_illegal h
  | some u =>
    rw [onLag_some hu, onLag_some (hsame.symm.trans hu)]
    exact ⟨_, _, _, rfl, rfl, rfl, rfl, h.lin,
      fun m hm => getElem?_set_congr (h.lag m hm) _ _, h.osc, h.nz, h.prbs⟩

theorem onOsc_sameEffect {i : Instr} {s s' : State} (h : AgreeFor i s s') {n : BitVec 8}
    (ha : Addresses i .osc n.toNat) (f : OscUnit → OscUnit × Word) :
    SameEffect i s s' (onOsc n f s) (onOsc n f s') := by
  have hsame := h.osc _ ha
  cases hu : s.osc[n.toNat]? with
  | none => rw [onOsc_none hu, onOsc_none (hsame.symm.trans hu)]; exact sameEffect_illegal h
  | some u =>
    rw [onOsc_some hu, onOsc_some (hsame.symm.trans hu)]
    exact ⟨_, _, _, rfl, rfl, rfl, rfl, h.lin, h.lag,
      fun m hm => getElem?_set_congr (h.osc m hm) _ _, h.nz, h.prbs⟩

theorem onNz_sameEffect {i : Instr} {s s' : State} (h : AgreeFor i s s') {n : BitVec 8}
    (ha : Addresses i .nz n.toNat) (f : NzUnit → NzUnit × Word) :
    SameEffect i s s' (onNz n f s) (onNz n f s') := by
  have hsame := h.nz _ ha
  cases hz : s.nz[n.toNat]? with
  | none => rw [onNz_none hz, onNz_none (hsame.symm.trans hz)]; exact sameEffect_illegal h
  | some z =>
    rw [onNz_some hz, onNz_some (hsame.symm.trans hz)]
    exact ⟨_, _, _, rfl, rfl, rfl, rfl, h.lin, h.lag, h.osc,
      fun m hm => getElem?_set_congr (h.nz m hm) _ _, h.prbs⟩

/-- Two draws from the same `PRBS` are the same, and leave the same `PRBS`. -/
theorem onNzDraw_sameEffect {i : Instr} {s s' : State} (h : AgreeFor i s s') {n : BitVec 8}
    (hi : i = .nzStep1 n ∨ i = .nzStep2 n) (f : Word → NzUnit → NzUnit × Word) :
    SameEffect i s s' (onNzDraw n f s) (onNzDraw n f s') := by
  have hsame := h.nz _ (addresses_draw hi)
  have huses : usesPrbs i = true := by obtain rfl | rfl := hi <;> rfl
  have hprbs : s.prbs = s'.prbs := h.prbs huses
  cases hz : s.nz[n.toNat]? with
  | none => rw [onNzDraw_none hz, onNzDraw_none (hsame.symm.trans hz)]; exact sameEffect_illegal h
  | some z =>
    rw [onNzDraw_some hz, onNzDraw_some (hsame.symm.trans hz), hprbs]
    exact ⟨_, _, _, rfl, rfl, rfl, rfl, h.lin, h.lag, h.osc,
      fun m hm => getElem?_set_congr (h.nz m hm) _ _, fun _ => rfl⟩

/-- Settles O19, by cases on the kind of meaning. -/
theorem responseDependsOnOwnInstanceOnly : Obligations.ResponseDependsOnOwnInstanceOnly := by
  intro i s s' h
  change SameEffect i s s' (exec i s) (exec i s')
  cases exec_meaning i with
  | lin n f hunit hinst hexec =>
    rw [hexec, hexec]; exact onLin_sameEffect h (addresses_inst hunit hinst) f
  | lag n f hunit hinst hexec =>
    rw [hexec, hexec]; exact onLag_sameEffect h (addresses_inst hunit hinst) f
  | osc n f hunit hinst hexec =>
    rw [hexec, hexec]; exact onOsc_sameEffect h (addresses_inst hunit hinst) f
  | nz n f hunit hinst hexec =>
    rw [hexec, hexec]; exact onNz_sameEffect h (addresses_inst hunit hinst) f
  | draw n f hi hexec => rw [hexec, hexec]; exact onNzDraw_sameEffect h hi f
  | seed w hi =>
    subst hi
    exact ⟨_, _, _, rfl, rfl, rfl, rfl, h.lin, h.lag, h.osc, h.nz, fun _ => rfl⟩
  | answer v hreads hexec =>
    rw [hexec, hexec, hreads s s' h]
    exact sameEffect_respond h _

/-! ### The flag (R24) -/

/-- An opcode byte with UNIT and FUNC assigned (R90 clause 2) and the INST field right for its unit
(clauses 3 and 4) gives a well-formed command. -/
theorem decodeOp_of_legal {c : Counts} {op n : BitVec 8} (arg : Word)
    (hfunc : op.toNat % 16 < funcCount (op.toNat / 16))
    (hglobal : instanceCount c (op.toNat / 16) = none → n = 0#8)
    (hindexed : ∀ count, instanceCount c (op.toNat / 16) = some count → n.toNat < count) :
    ∃ i, decodeOp op n arg = .ok i ∧ i.wellFormed c = true := by
  unfold decodeOp
  split <;> rename_i hop
  case h_43 => -- no opcode of the map: FUNC is not below the unit's number of functions
    exfalso
    simp only [imp_false] at *
    unfold funcCount at hfunc
    split at hfunc <;> omega
  case h_1 | h_2 | h_3 | h_4 | h_34 | h_35 | h_36 | h_37 | h_38 | h_39 | h_40 | h_41 | h_42 => -- SYS, FN
    rw [hop] at hglobal
    exact ⟨_, if_pos (hglobal rfl), rfl⟩
  all_goals
    rw [hop] at hindexed
    exact ⟨_, rfl, decide_eq_true (hindexed _ rfl)⟩

/-- UNIT is the upper half of OP. -/
theorem unitField_toNat (cmd : Word) : (cmd.extractLsb' 4 4).toNat = (opField cmd).toNat / 16 := by
  simp only [opField, BitVec.extractLsb'_toNat, Nat.shiftRight_eq_div_pow]
  omega

/-- FUNC is the lower half of OP. -/
theorem funcField_toNat (cmd : Word) : (cmd.extractLsb' 0 4).toNat = (opField cmd).toNat % 16 := by
  simp only [opField, BitVec.extractLsb'_toNat, Nat.shiftRight_eq_div_pow]
  omega

/-- What none of the four clauses of R90 refuses, the decoder accepts, and its index is below its
unit's count. -/
theorem decode_of_legal {c : Counts} {cmd : Word} (arg : Word) (h : isIllegal c cmd = false) :
    ∃ i, decode cmd arg = .ok i ∧ i.wellFormed c = true := by
  simp only [isIllegal, unitField_toNat, funcField_toNat, Bool.or_eq_false_iff,
    decide_eq_false_iff_not, not_not, not_le] at h
  obtain ⟨⟨hrsv, hfunc⟩, hinst⟩ := h
  rw [decode, if_pos (show rsvField cmd = 0#16 from hrsv)]
  refine decodeOp_of_legal arg hfunc (fun hnone => ?_) fun count hcount => ?_
  · rw [hnone] at hinst
    exact BitVec.eq_of_toNat_eq (not_not.1 (decide_eq_false_iff_not.1 hinst))
  · rw [hcount] at hinst
    exact not_le.1 (decide_eq_false_iff_not.1 hinst)

/-- A legal command leaves `STATUS` as it was. -/
theorem runCommand_status_of_legal {cmd arg : Word} {s t : State} (h : runCommand cmd arg s = .next t)
    (hlegal : isIllegal s.counts cmd = false) : t.status = s.status := by
  obtain ⟨i, hdecode, hwf⟩ := decode_of_legal arg hlegal
  rw [runCommand_ok hdecode] at h
  exact (exec_frame h).status hwf

/-- No command clears ILL. -/
theorem Effect.ill_sticky {s t : State} (h : Effect s t) (hill : s.status.getLsbD 0 = true) :
    t.status.getLsbD 0 = true := by
  cases h with
  | illegal => simp [hill]
  | answer | seed | lin | lag | osc | nz | draw => exact hill

theorem runCommand_ill_sticky {cmd arg : Word} {s t : State} (h : runCommand cmd arg s = .next t)
    (hill : s.status.getLsbD 0 = true) : t.status.getLsbD 0 = true := by
  obtain ⟨t', ht', heffect⟩ := runCommand_completes cmd arg s
  cases h.symm.trans ht'
  exact heffect.ill_sticky hill

/-- Settles O17, by cases on the host's next action. -/
theorem illFlagIsSticky : Obligations.IllFlagIsSticky := by
  intro s t hstep
  cases hin : s.inputs with
  | nil =>
    rw [step_nil hin] at hstep
    cases hstep
    exact ⟨fun hill _ => hill, fun hclear hill => absurd hill (Bool.eq_false_iff.1 hclear), by simp⟩
  | cons a rest =>
    rw [step_cons hin] at hstep
    obtain ⟨rfl, rfl⟩ | ⟨rfl, rfl⟩ | ⟨cmd, arg, rfl, hrun⟩ := hostAct_cases hstep
    · exact ⟨by simp, by simp, by simp⟩
    · exact ⟨fun hill _ => hill, fun hclear hill => absurd hill (Bool.eq_false_iff.1 hclear), by simp⟩
    · refine ⟨fun hill _ => runCommand_ill_sticky hrun hill, fun hclear hill => ?_, by simp⟩
      cases hlegal : isIllegal s.counts cmd with
      | true => exact ⟨cmd, arg, rfl, hlegal⟩
      | false =>
        rw [runCommand_status_of_legal hrun hlegal] at hill
        exact absurd hill (Bool.eq_false_iff.1 hclear)

/-! ### The commands of SYS (R141 to R144) -/

/-- A row of the opcode map with INST `0` is a `GlobalCommand`, with what its meaning answers. -/
theorem globalCommand_intro {op : BitVec 8} {i : Word → Instr} {eff : Word → State → State × Word}
    (hop : ∀ n arg, decodeOp op n arg = decodeGlobal n (i arg))
    (hexec : ∀ arg s, exec (i arg) s = .next (respond (eff arg s).1 (eff arg s).2)) :
    GlobalCommand op i eff := by
  intro arg s
  have hdecode : ∀ n : BitVec 8, decode (0#16 ++ n ++ op) arg = decodeGlobal n (i arg) := fun n =>
    (decode_cmdWord n op arg).trans (hop n arg)
  refine ⟨hdecode 0#8, fun n hn => ?_, hexec arg s⟩
  rw [hdecode, decodeGlobal, if_neg hn]

/-- What a read of `STATUS` gives, by the bit ILL (R24). -/
theorem readStatus_eq (s : State) :
    readStatus s = if s.status.getLsbD 0 then 0x00000001#32 else 0x00000000#32 := by
  rw [readStatus, illBit, BitVec.and_one_eq_setWidth_ofBool_getLsbD]
  cases s.status.getLsbD 0 <;> rfl

/-- Settles O23: four rows with INST `0`, the read of `STATUS` by its one bit. -/
theorem sysCommands : Obligations.SysCommands := by
  refine ⟨?nop, ?status, ?prbs, ?seed⟩
  case nop => exact globalCommand_intro (fun _ _ => rfl) fun _ _ => rfl
  case status =>
    refine globalCommand_intro (fun _ _ => rfl) fun _ s => ?_
    rw [← readStatus_eq]
    rfl
  case prbs => exact globalCommand_intro (fun _ _ => rfl) fun _ _ => rfl
  case seed => exact globalCommand_intro (fun _ _ => rfl) fun _ _ => rfl

end Sys2Proof.Machine
end

-- The statements of `spec/20_memory.md`: stored command sequences, the order of the commands, which of
-- them commute and which may be repeated, and what the host does besides commands.
section
/-! PROOFS. Statements about the host's side of the block: O5, O13, O20, O21 and O22. Two commands on
different instances leave alone what the other reads (`Undisturbed.agreeFor`), so that they commute by
what a command writes (`exec_frame`) and what it depends on (O19); a command sequence is an induction
over what the step at one command does (`step_command`). -/

namespace Sys2Proof

/-! ### Bytes (R63, R64) -/

@[simp] theorem wordOfBytes_extract (w : Word) :
    wordOfBytes (w.extractLsb' 0 8) (w.extractLsb' 8 8) (w.extractLsb' 16 8) (w.extractLsb' 24 8) =
      w := by
  rw [wordOfBytes, BitVec.extractLsb'_append_extractLsb'_eq_extractLsb' (show 24 = 16 + 8 from rfl),
    BitVec.extractLsb'_append_extractLsb'_eq_extractLsb' (show 16 = 8 + 8 from rfl),
    BitVec.extractLsb'_append_extractLsb'_eq_extractLsb' (show 8 = 0 + 8 from rfl),
    BitVec.extractLsb'_eq_self]

/-- One record more before a sequence of bytes is one command more before its commands. -/
theorem commandsOfBytes_bytesOfCommand_append (cmd arg : Word) (bs : List Byte) :
    commandsOfBytes (bytesOfCommand cmd arg ++ bs) =
      (commandsOfBytes bs).map ((cmd, arg) :: ·) := by
  simp only [bytesOfCommand, bytesOfWord, List.cons_append, List.nil_append, commandsOfBytes,
    wordOfBytes_extract]
  cases commandsOfBytes bs <;> rfl

theorem commandsOfBytes_flatMap (cmds : List (Word × Word)) :
    commandsOfBytes (cmds.flatMap fun p => bytesOfCommand p.1 p.2) = some cmds := by
  induction cmds with
  | nil => rfl
  | cons p rest ih => rw [List.flatMap_cons, commandsOfBytes_bytesOfCommand_append, ih]; rfl

/-- Bytes that are neither none nor begin with a whole record are fewer than eight. -/
theorem length_lt_of_not_record {bs : List Byte}
    (h : ∀ c0 c1 c2 c3 a0 a1 a2 a3 rest, bs = c0 :: c1 :: c2 :: c3 :: a0 :: a1 :: a2 :: a3 :: rest →
      False) : bs.length < 8 := by
  rcases bs with _ | ⟨_, _ | ⟨_, _ | ⟨_, _ | ⟨_, _ | ⟨_, _ | ⟨_, _ | ⟨_, _ | ⟨_, _⟩⟩⟩⟩⟩⟩⟩⟩
  case cons.cons.cons.cons.cons.cons.cons.cons => exact (h _ _ _ _ _ _ _ _ _ rfl).elim
  all_goals simp

theorem length_record_mod (c0 c1 c2 c3 a0 a1 a2 a3 : Byte) (rest : List Byte) :
    (c0 :: c1 :: c2 :: c3 :: a0 :: a1 :: a2 :: a3 :: rest).length % 8 = rest.length % 8 :=
  Nat.add_mod_right rest.length 8

/-- A whole number of records, and nothing else, is a command sequence (R64). -/
theorem isSome_commandsOfBytes (bs : List Byte) :
    (commandsOfBytes bs).isSome = true ↔ bs.length % 8 = 0 := by
  induction bs using commandsOfBytes.induct with
  | case1 => simp [commandsOfBytes]
  | case2 c0 c1 c2 c3 a0 a1 a2 a3 rest hrest ih =>
    rw [length_record_mod, ← ih]
    simp [commandsOfBytes, hrest]
  | case3 c0 c1 c2 c3 a0 a1 a2 a3 rest cs hrest ih =>
    rw [length_record_mod, ← ih]
    simp [commandsOfBytes, hrest]
  | case4 bs hnil hrecord =>
    have hlt := length_lt_of_not_record hrecord
    have hpos := List.length_pos_iff.2 hnil
    rw [commandsOfBytes]
    · simp; omega
    · exact hnil
    · exact hrecord

/-- One record decodes to what its command decodes to. -/
theorem decodeBytes_bytesOfCommand (cmd arg : Word) :
    decodeBytes (bytesOfCommand cmd arg) = decode cmd arg := by
  have hone : commandsOfBytes (bytesOfCommand cmd arg) = some [(cmd, arg)] :=
    commandsOfBytes_flatMap [(cmd, arg)]
  rw [decodeBytes, hone]

/-- Settles O5: the reading back is an induction over the commands, the rule of 8 one over the records. -/
theorem commandSequencesAreEightByteRecords : Obligations.CommandSequencesAreEightByteRecords := by
  refine ⟨fun _ _ => rfl, commandsOfBytes_flatMap, fun bs => ?_, decodeBytes_bytesOfCommand⟩
  rw [← Option.isSome_iff_exists, isSome_commandsOfBytes]

end Sys2Proof

namespace Sys2Proof.Machine

open Sys2Proof.Claim

/-! ### The host's actions besides commands (R62, R301) -/

/-- Settles O13. -/
theorem hostActionsBesideCommands : Obligations.HostActionsBesideCommands := by
  refine ⟨fun s rest hreset => ?_, fun s rest htake => ?_, fun s hnone => step_nil hnone⟩
  · exact ⟨_, step_reset hreset, hostReset_responses _, hostReset_inputs _⟩
  · exact step_cons htake

/-! ### Illegal by its index, or answered (R82, R90 clause 4) -/

/-- The index of a well-formed command is below its unit's count (R90 clause 4). -/
theorem lt_of_wellFormed {i : Instr} {c : Counts} {u : UnitKind} {m : Nat} (h : Addresses i u m)
    (hwf : i.wellFormed c = true) : m < c.of u := by
  by_contra hlen
  exact absurd hwf (by simp [not_wellFormed_of_addresses h (not_lt.1 hlen)])

/-- A command whose index is at or above its unit's count raises IllegalCommand (R281). -/
theorem exec_of_not_wellFormed {i : Instr} {s : State} (h : i.wellFormed s.counts = false) :
    exec i s = .next (raiseIllegal s) := by
  cases i with
  | sysNop | sysStatus | sysSeed | sysPrbs | fnFlush | fnClamp01 | fnClamp1bp | fnTanhf | fnTanhp
  | fnA2l | fnL2a | fnA2db | fnDb2a => cases h
  | linInit | linSetblk | linCfg | linSettgt | linAdv | linSnap | linGetcur | linGettgt =>
    exact onLin_none (List.getElem?_eq_none (not_lt.1 (of_decide_eq_false h)))
  | lagInit | lagSetk | lagSettgt | lagSetimm | lagAdv | lagSnap | lagGetcur | lagGettgt =>
    exact onLag_none (List.getElem?_eq_none (not_lt.1 (of_decide_eq_false h)))
  | oscInit | oscSetrate | oscSetphase | oscAdv | oscGetr | oscGeti =>
    exact onOsc_none (List.getElem?_eq_none (not_lt.1 (of_decide_eq_false h)))
  | nzInit | nzRst | nzSetcorr | nzStep1x | nzStep2x =>
    exact onNz_none (List.getElem?_eq_none (not_lt.1 (of_decide_eq_false h)))
  | nzStep1 | nzStep2 =>
    exact onNzDraw_none (List.getElem?_eq_none (not_lt.1 (of_decide_eq_false h)))

/-- The element a well-formed command addresses is in its unit's list. -/
theorem exists_element_of_wellFormed {α : Type} {i : Instr} {s : State} {u : UnitKind} {n : BitVec 8}
    {l : List α} (ha : Addresses i u n.toNat) (hlen : s.counts.of u = l.length)
    (hwf : i.wellFormed s.counts = true) : ∃ a, l[n.toNat]? = some a :=
  ⟨_, List.getElem?_eq_getElem (hlen ▸ lt_of_wellFormed ha hwf)⟩

/-- A command whose index is right answers with `ERR = 0`. -/
theorem exec_of_wellFormed {i : Instr} {s : State} (h : i.wellFormed s.counts = true) :
    ∃ t v, exec i s = .next t ∧ t.responses = s.responses ++ [{ err := false, res := v }] := by
  cases exec_meaning i with
  | lin n f hunit hinst hexec =>
    obtain ⟨u, hu⟩ := exists_element_of_wellFormed (l := s.lin) (addresses_inst hunit hinst) rfl h
    exact ⟨_, _, (hexec s).trans (onLin_some hu), rfl⟩
  | lag n f hunit hinst hexec =>
    obtain ⟨u, hu⟩ := exists_element_of_wellFormed (l := s.lag) (addresses_inst hunit hinst) rfl h
    exact ⟨_, _, (hexec s).trans (onLag_some hu), rfl⟩
  | osc n f hunit hinst hexec =>
    obtain ⟨u, hu⟩ := exists_element_of_wellFormed (l := s.osc) (addresses_inst hunit hinst) rfl h
    exact ⟨_, _, (hexec s).trans (onOsc_some hu), rfl⟩
  | nz n f hunit hinst hexec =>
    obtain ⟨z, hz⟩ := exists_element_of_wellFormed (l := s.nz) (addresses_inst hunit hinst) rfl h
    exact ⟨_, _, (hexec s).trans (onNz_some hz), rfl⟩
  | draw n f hi hexec =>
    obtain ⟨z, hz⟩ := exists_element_of_wellFormed (l := s.nz) (addresses_draw hi) rfl h
    exact ⟨_, _, (hexec s).trans (onNzDraw_some hz), rfl⟩
  | seed w hi => subst hi; exact ⟨_, _, rfl, rfl⟩
  | answer v hreads hexec => exact ⟨_, _, hexec s, rfl⟩

/-- A command gives one response; where its index is wrong, and only there, `ERR = 1` and ILL is set. -/
theorem exec_answer {i : Instr} {s t : State} (h : exec i s = .next t) :
    (∃ r, t.responses = s.responses ++ [r] ∧ r.err = !i.wellFormed s.counts) ∧
      t.status = if i.wellFormed s.counts then s.status else s.status ||| illBit := by
  cases hwf : i.wellFormed s.counts with
  | false =>
    cases (exec_of_not_wellFormed hwf).symm.trans h
    exact ⟨⟨_, rfl, rfl⟩, rfl⟩
  | true =>
    obtain ⟨t', v, ht', hresponses⟩ := exec_of_wellFormed hwf
    cases ht'.symm.trans h
    exact ⟨⟨_, hresponses, rfl⟩, (exec_frame h).status hwf⟩

theorem counts_eq_of_params_eq {s t : State} (h : t.params = s.params) : t.counts = s.counts := by
  simp only [State.params, Config.Params.mk.injEq] at h
  obtain ⟨hlin, hlag, hosc, hnz, -, -⟩ := h
  rw [State.counts, State.counts, hlin, hlag, hosc, hnz]

theorem exec_params {i : Instr} {s t : State} (h : exec i s = .next t) : t.params = s.params := by
  obtain ⟨t', ht', heffect⟩ := exec_completes i s
  cases h.symm.trans ht'
  exact heffect.params_eq

/-! ### Independent commands (R69) -/

/-- Two commands of different units or with different indices address no element both. -/
theorem not_addresses_of_independent {i j : Instr} (h : i.unit ≠ j.unit ∨ i.inst? ≠ j.inst?)
    {u : UnitKind} {m : Nat} (hi : Addresses i u m) : ¬ Addresses j u m := by
  rintro ⟨hjunit, nj, hjinst, hjm⟩
  obtain ⟨hiunit, ni, hiinst, him⟩ := hi
  obtain rfl : ni = nj := BitVec.eq_of_toNat_eq (him.trans hjm.symm)
  exact h.elim (· (hiunit.trans hjunit.symm)) (· (hiinst.trans hjinst.symm))

/-- A command that does not touch `PRBS` leaves it (R69). -/
theorem Frame.prbs_of_not_usesPrbs {i : Instr} {s t : State} (h : Frame i s t)
    (hp : ¬ usesPrbs i = true) : t.prbs = s.prbs := by
  refine h.prbs ?_ ?_ ?_ <;> rintro x rfl <;> exact hp rfl

/-- What R69 asks of `j` so that it does not disturb `i`: other elements, and neither exception. -/
structure Undisturbed (i j : Instr) (c : Counts) : Prop where
  apart : i.unit ≠ j.unit ∨ i.inst? ≠ j.inst?
  prbs : ¬(usesPrbs i = true ∧ usesPrbs j = true)
  status : ¬(i = .sysStatus ∧ j.wellFormed c = false)

/-- After `j`, all that `i` reads is as before. -/
theorem Undisturbed.agreeFor {i j : Instr} {s t : State} (h : Undisturbed i j s.counts)
    (hexec : exec j s = .next t) : AgreeFor i s t := by
  obtain ⟨hlin, hlag, hosc, hnz, hprbs, hstatus, -⟩ := exec_frame hexec
  have hparams := exec_params hexec
  simp only [State.params, Config.Params.mk.injEq] at hparams
  obtain ⟨-, -, -, -, htanhA, hampEps⟩ := hparams
  exact {
    lin := fun m hm => (hlin m (not_addresses_of_independent h.apart hm)).symm
    lag := fun m hm => (hlag m (not_addresses_of_independent h.apart hm)).symm
    osc := fun m hm => (hosc m (not_addresses_of_independent h.apart hm)).symm
    nz := fun m hm => (hnz m (not_addresses_of_independent h.apart hm)).symm
    prbs := fun hp => ((exec_frame hexec).prbs_of_not_usesPrbs fun hj => h.prbs ⟨hp, hj⟩).symm
    status := fun hi =>
      (hstatus (Bool.eq_true_of_not_eq_false fun hj => h.status ⟨hi, hj⟩)).symm
    tanhA := fun _ => htanhA.symm
    ampEps := fun _ => hampEps.symm }

/-- A value that at most one of two commands touches is the same in both orders, where each command
makes the same of it before the other and after it. -/
theorem eq_of_touched_by_one {α : Type} {a ai aj aij aji : α} {pi pj : Prop} (hone : pi → ¬ pj)
    (hi : ¬ pi → ai = a) (hj : ¬ pj → aj = a) (hij : ¬ pj → aij = ai) (hji : ¬ pi → aji = aj)
    (hsamei : pi → ai = aji) (hsamej : pj → aj = aij) : aij = aji := by
  by_cases hpi : pi
  · exact (hij (hone hpi)).trans (hsamei hpi)
  · by_cases hpj : pj
    · exact (hsamej hpj).symm.trans (hji hpi).symm
    · calc aij = ai := hij hpj
        _ = a := hi hpi
        _ = aj := (hj hpj).symm
        _ = aji := (hji hpi).symm

/-- The two orders of two commands from `s`: `tij` is the state after `i` and then `j`, `tji` the state
after `j` and then `i`. -/
structure BothOrders (i j : Instr) (s ti tj tij tji : State) : Prop where
  i_first : exec i s = .next ti
  j_second : exec j ti = .next tij
  j_first : exec j s = .next tj
  i_second : exec i tj = .next tji

section
variable {i j : Instr} {s ti tj tij tji : State}

/-- A unit's list is the same in both orders, element by element. -/
theorem BothOrders.list_eq (h : BothOrders i j s ti tj tij tji)
    (hapart : i.unit ≠ j.unit ∨ i.inst? ≠ j.inst?) {α : Type} {u : UnitKind} (get : State → List α)
    (hframe : ∀ {k : Instr} {x y : State}, Frame k x y →
      ∀ m, ¬ Addresses k u m → (get y)[m]? = (get x)[m]?)
    (hsamei : ∀ m, Addresses i u m → (get ti)[m]? = (get tji)[m]?)
    (hsamej : ∀ m, Addresses j u m → (get tj)[m]? = (get tij)[m]?) : get tij = get tji := by
  obtain ⟨hi, hij, hj, hji⟩ := h
  exact List.ext_getElem? fun m =>
    eq_of_touched_by_one (not_addresses_of_independent hapart)
      (hframe (exec_frame hi) m) (hframe (exec_frame hj) m) (hframe (exec_frame hij) m)
      (hframe (exec_frame hji) m) (hsamei m) (hsamej m)

theorem BothOrders.prbs_eq (h : BothOrders i j s ti tj tij tji)
    (hone : ¬(usesPrbs i = true ∧ usesPrbs j = true))
    (hsamei : usesPrbs i = true → ti.prbs = tji.prbs)
    (hsamej : usesPrbs j = true → tj.prbs = tij.prbs) : tij.prbs = tji.prbs := by
  obtain ⟨hi, hij, hj, hji⟩ := h
  exact eq_of_touched_by_one (not_and.1 hone)
    (exec_frame hi).prbs_of_not_usesPrbs (exec_frame hj).prbs_of_not_usesPrbs
    (exec_frame hij).prbs_of_not_usesPrbs (exec_frame hji).prbs_of_not_usesPrbs hsamei hsamej

/-- ILL is set in either order if one of the two is illegal: neither changes the counts. -/
theorem BothOrders.status_eq (h : BothOrders i j s ti tj tij tji) : tij.status = tji.status := by
  obtain ⟨hi, hij, hj, hji⟩ := h
  rw [(exec_answer hij).2, (exec_answer hi).2, (exec_answer hji).2, (exec_answer hj).2,
    counts_eq_of_params_eq (exec_params hi), counts_eq_of_params_eq (exec_params hj)]
  cases i.wellFormed s.counts <;> cases j.wellFormed s.counts <;> rfl

theorem BothOrders.inputs_eq (h : BothOrders i j s ti tj tij tji) : tij.inputs = tji.inputs := by
  obtain ⟨hi, hij, hj, hji⟩ := h
  rw [(exec_frame hij).inputs, (exec_frame hi).inputs, (exec_frame hji).inputs, (exec_frame hj).inputs]

theorem BothOrders.params_eq (h : BothOrders i j s ti tj tij tji) : tij.params = tji.params := by
  obtain ⟨hi, hij, hj, hji⟩ := h
  rw [exec_params hij, exec_params hi, exec_params hji, exec_params hj]

end

/-- Settles O20: each command reads the same before the other and after it (`Undisturbed.agreeFor`), so
by O19 it answers and writes the same in both orders; the other leaves what it wrote (`exec_frame`). -/
theorem independentCommandsCommute : Obligations.IndependentCommandsCommute := by
  intro i j s hapart hprbs hstatusi hstatusj
  have hui : Undisturbed i j s.counts := ⟨hapart, hprbs, hstatusi⟩
  have huj : Undisturbed j i s.counts :=
    ⟨hapart.imp Ne.symm Ne.symm, fun h => hprbs h.symm, hstatusj⟩
  obtain ⟨tj, hj, -⟩ := exec_completes j s
  obtain ⟨ri, ti, tji, hi, hji, hri, hri', hlini, hlagi, hosci, hnzi, hprbsi⟩ :=
    responseDependsOnOwnInstanceOnly i s tj (hui.agreeFor hj)
  obtain ⟨rj, tj', tij, hj', hij, hrj, hrj', hlinj, hlagj, hoscj, hnzj, hprbsj⟩ :=
    responseDependsOnOwnInstanceOnly j s ti (huj.agreeFor hi)
  cases hj.symm.trans hj'
  have horders : BothOrders i j s ti tj tij tji := ⟨hi, hij, hj, hji⟩
  refine ⟨ri, rj, ti, tj, tij, tji, hi, hij, hj, hji, by simp [hrj', hri], by simp [hri', hrj], ?_⟩
  have hparams := horders.params_eq
  simp only [State.params, Config.Params.mk.injEq] at hparams
  obtain ⟨-, -, -, -, htanhA, hampEps⟩ := hparams
  rw [State.mk.injEq]
  exact ⟨horders.status_eq, horders.prbs_eq hprbs hprbsi hprbsj,
    horders.list_eq hapart State.lin Frame.lin hlini hlinj,
    horders.list_eq hapart State.lag Frame.lag hlagi hlagj,
    horders.list_eq hapart State.osc Frame.osc hosci hoscj,
    horders.list_eq hapart State.nz Frame.nz hnzi hnzj,
    htanhA, hampEps, horders.inputs_eq, rfl⟩

/-! ### Commands that only answer, and commands that may be repeated (R65) -/

theorem set_eq_self_of_getElem? {α : Type} {l : List α} {m : Nat} {a : α} (h : l[m]? = some a) :
    l.set m a = l := by
  obtain ⟨hm, rfl⟩ := List.getElem?_eq_some_iff.1 h
  exact List.set_getElem_self hm

theorem onLin_keeps {n : BitVec 8} {f : LinUnit → LinUnit × Word} {s : State} {u : LinUnit}
    (hu : s.lin[n.toNat]? = some u) (hf : (f u).1 = u) :
    onLin n f s = .next (answered s (f u).2) := by
  rw [onLin_some hu, hf, set_eq_self_of_getElem? hu]; rfl

theorem onLag_keeps {n : BitVec 8} {f : LagUnit → LagUnit × Word} {s : State} {u : LagUnit}
    (hu : s.lag[n.toNat]? = some u) (hf : (f u).1 = u) :
    onLag n f s = .next (answered s (f u).2) := by
  rw [onLag_some hu, hf, set_eq_self_of_getElem? hu]; rfl

theorem onOsc_keeps {n : BitVec 8} {f : OscUnit → OscUnit × Word} {s : State} {u : OscUnit}
    (hu : s.osc[n.toNat]? = some u) (hf : (f u).1 = u) :
    onOsc n f s = .next (answered s (f u).2) := by
  rw [onOsc_some hu, hf, set_eq_self_of_getElem? hu]; rfl

theorem onNz_keeps {n : BitVec 8} {f : NzUnit → NzUnit × Word} {s : State} {z : NzUnit}
    (hz : s.nz[n.toNat]? = some z) (hf : (f z).1 = z) :
    onNz n f s = .next (answered s (f z).2) := by
  rw [onNz_some hz, hf, set_eq_self_of_getElem? hz]; rfl

/-- A legal command without a side effect only answers. -/
theorem exec_of_isSilent {i : Instr} {s : State} (hsilent : isSilent i = true)
    (hwf : i.wellFormed s.counts = true) : ∃ v, exec i s = .next (answered s v) := by
  cases i with
  | sysNop | sysStatus | sysPrbs | fnFlush | fnClamp01 | fnClamp1bp | fnTanhf | fnTanhp | fnA2l
  | fnL2a | fnA2db | fnDb2a => exact ⟨_, rfl⟩
  | linGetcur | linGettgt =>
    obtain ⟨u, hu⟩ := exists_element_of_wellFormed (l := s.lin) (addresses_inst rfl rfl) rfl hwf
    exact ⟨_, onLin_keeps hu rfl⟩
  | lagGetcur | lagGettgt =>
    obtain ⟨u, hu⟩ := exists_element_of_wellFormed (l := s.lag) (addresses_inst rfl rfl) rfl hwf
    exact ⟨_, onLag_keeps hu rfl⟩
  | oscGetr | oscGeti =>
    obtain ⟨u, hu⟩ := exists_element_of_wellFormed (l := s.osc) (addresses_inst rfl rfl) rfl hwf
    exact ⟨_, onOsc_keeps hu rfl⟩
  | _ => cases hsilent

/-- The command completes in `s`, and done again it only gives the same answer again. -/
def Repeats (x : State → Result) (s : State) : Prop :=
  ∃ t v, x s = .next t ∧ t.responses = s.responses ++ [{ err := false, res := v }] ∧
    x t = .next (answered t v)

theorem onLin_repeats {n : BitVec 8} {f : LinUnit → LinUnit × Word} {s : State}
    (hn : n.toNat < s.lin.length) (hf : ∀ u, f (f u).1 = f u) : Repeats (onLin n f) s := by
  refine ⟨_, _, onLin_some (List.getElem?_eq_getElem hn), rfl, ?_⟩
  rw [onLin_keeps (List.getElem?_set_self hn) (congrArg Prod.fst (hf _)), hf]

theorem onLag_repeats {n : BitVec 8} {f : LagUnit → LagUnit × Word} {s : State}
    (hn : n.toNat < s.lag.length) (hf : ∀ u, f (f u).1 = f u) : Repeats (onLag n f) s := by
  refine ⟨_, _, onLag_some (List.getElem?_eq_getElem hn), rfl, ?_⟩
  rw [onLag_keeps (List.getElem?_set_self hn) (congrArg Prod.fst (hf _)), hf]

theorem onOsc_repeats {n : BitVec 8} {f : OscUnit → OscUnit × Word} {s : State}
    (hn : n.toNat < s.osc.length) (hf : ∀ u, f (f u).1 = f u) : Repeats (onOsc n f) s := by
  refine ⟨_, _, onOsc_some (List.getElem?_eq_getElem hn), rfl, ?_⟩
  rw [onOsc_keeps (List.getElem?_set_self hn) (congrArg Prod.fst (hf _)), hf]

theorem onNz_repeats {n : BitVec 8} {f : NzUnit → NzUnit × Word} {s : State}
    (hn : n.toNat < s.nz.length) (hf : ∀ z, f (f z).1 = f z) : Repeats (onNz n f) s := by
  refine ⟨_, _, onNz_some (List.getElem?_eq_getElem hn), rfl, ?_⟩
  rw [onNz_keeps (List.getElem?_set_self hn) (congrArg Prod.fst (hf _)), hf]

/-- A command R65 calls idempotent, done a second time, finds its element as it would leave it. -/
theorem exec_repeats {i : Instr} {s : State} (h : isSilent i = true ∨ isSetter i = true)
    (hwf : i.wellFormed s.counts = true) : Repeats (exec i) s := by
  cases i with
  | linSettgt | linAdv | lagAdv | oscSetrate | oscAdv | nzStep1 | nzStep1x | nzStep2 | nzStep2x =>
    simp [isSilent, isSetter] at h
  | sysNop | sysStatus | sysSeed | sysPrbs | fnFlush | fnClamp01 | fnClamp1bp | fnTanhf | fnTanhp
  | fnA2l | fnL2a | fnA2db | fnDb2a => exact ⟨_, _, rfl, rfl, rfl⟩
  | linInit | linSetblk | linCfg | linSnap | linGetcur | linGettgt =>
    exact onLin_repeats (lt_of_wellFormed (addresses_inst rfl rfl) hwf) fun _ => rfl
  | lagInit | lagSetk | lagSettgt | lagSetimm | lagSnap | lagGetcur | lagGettgt =>
    exact onLag_repeats (lt_of_wellFormed (addresses_inst rfl rfl) hwf) fun _ => rfl
  | oscInit | oscSetphase | oscGetr | oscGeti =>
    exact onOsc_repeats (lt_of_wellFormed (addresses_inst rfl rfl) hwf) fun _ => rfl
  | nzInit | nzRst | nzSetcorr =>
    exact onNz_repeats (lt_of_wellFormed (addresses_inst rfl rfl) hwf) fun _ => rfl

/-- Settles O21. -/
theorem silentAndIdempotentCommands : Obligations.SilentAndIdempotentCommands :=
  ⟨fun _ _ => exec_of_isSilent, fun _ _ => exec_repeats⟩

/-! ### Legality of what the decoder accepts (R90, R91) -/

/-- A well-formed command comes from an opcode byte with UNIT and FUNC assigned and an INST field right
for its unit: the other direction of `decodeOp_of_legal`. -/
theorem legal_of_decodeOp {c : Counts} {op n : BitVec 8} {arg : Word} {i : Instr}
    (h : decodeOp op n arg = .ok i) (hwf : i.wellFormed c = true) :
    op.toNat % 16 < funcCount (op.toNat / 16) ∧
      (instanceCount c (op.toNat / 16) = none → n = 0#8) ∧
      ∀ count, instanceCount c (op.toNat / 16) = some count → n.toNat < count := by
  unfold decodeOp at h
  split at h <;> rename_i hop
  case h_43 => cases h
  case h_1 | h_2 | h_3 | h_4 | h_34 | h_35 | h_36 | h_37 | h_38 | h_39 | h_40 | h_41 | h_42 => -- SYS, FN
    rw [decodeGlobal] at h
    split at h
    · rename_i hn
      rw [hop]
      exact ⟨by decide, fun _ => hn, nofun⟩
    · cases h
  all_goals
    cases h
    rw [hop]
    exact ⟨by decide, nofun, fun count hcount => Option.some.inj hcount ▸ of_decide_eq_true hwf⟩

/-- A pair the decoder accepts is legal exactly where the command's index is below its unit's count. -/
theorem isIllegal_of_decode_ok {c : Counts} {cmd arg : Word} {i : Instr} (h : decode cmd arg = .ok i) :
    isIllegal c cmd = !i.wellFormed c := by
  cases hwf : i.wellFormed c with
  | false =>
    rw [Bool.not_false, ← Bool.not_eq_false]
    intro hlegal
    obtain ⟨i', hi', hwf'⟩ := decode_of_legal arg hlegal
    cases h.symm.trans hi'
    exact absurd hwf' (by simp [hwf])
  | true =>
    obtain ⟨hrsv, hop⟩ := decode_ok h
    obtain ⟨hfunc, hglobal, hindexed⟩ := legal_of_decodeOp hop hwf
    simp only [isIllegal, unitField_toNat, funcField_toNat, Bool.not_true, Bool.or_eq_false_iff,
      decide_eq_false_iff_not, not_not, not_le]
    refine ⟨⟨hrsv, hfunc⟩, ?_⟩
    split <;> rename_i hcount
    · exact decide_eq_false (not_not.2 (congrArg BitVec.toNat (hglobal hcount)))
    · exact decide_eq_false (not_le.2 (hindexed _ hcount))

/-- What the decoder rejects is illegal. -/
theorem isIllegal_of_decode_error {c : Counts} {cmd arg : Word} {e : DecodeError}
    (h : decode cmd arg = .error e) : isIllegal c cmd = true := by
  rw [← Bool.not_eq_false]
  intro hlegal
  obtain ⟨i, hi, -⟩ := decode_of_legal arg hlegal
  cases h.symm.trans hi

/-! ### A sequence of commands (R62, R282) -/

/-- One command gives one response, with `ERR = 1` exactly where it is illegal. -/
theorem runCommand_response {cmd arg : Word} {s t : State} (h : runCommand cmd arg s = .next t) :
    ∃ r, t.responses = s.responses ++ [r] ∧ r.err = isIllegal s.counts cmd := by
  obtain ⟨i, hdecode, hexec⟩ | ⟨e, hdecode, rfl⟩ := runCommand_cases h
  · rw [isIllegal_of_decode_ok hdecode]
    exact (exec_answer hexec).1
  · exact ⟨_, rfl, (isIllegal_of_decode_error hdecode).symm⟩

theorem runCommand_inputs {cmd arg : Word} {s t : State} (h : runCommand cmd arg s = .next t) :
    t.inputs = s.inputs := by
  obtain ⟨i, -, hexec⟩ | ⟨e, -, rfl⟩ := runCommand_cases h
  · exact (exec_frame hexec).inputs
  · rfl

theorem runCommand_counts {cmd arg : Word} {s t : State} (h : runCommand cmd arg s = .next t) :
    t.counts = s.counts := by
  obtain ⟨i, -, hexec⟩ | ⟨e, -, rfl⟩ := runCommand_cases h
  · exact counts_eq_of_params_eq (exec_params hexec)
  · rfl

/-- What the step at a command leaves behind: the induction step of a command sequence. -/
theorem step_command {s : State} {cmd arg : Word} {rest : List HostAction}
    (h : s.inputs = .command cmd arg :: rest) :
    ∃ t r, step s = .next t ∧ t.inputs = rest ∧ t.counts = s.counts ∧
      t.responses = s.responses ++ [r] ∧ r.err = isIllegal s.counts cmd ∧
      (isIllegal s.counts cmd = false → t.status = s.status) := by
  obtain ⟨t, hrun, -⟩ := runCommand_completes cmd arg { s with inputs := rest }
  obtain ⟨r, hresponses, herr⟩ := runCommand_response hrun
  have hcounts := runCommand_counts hrun
  have hstatus := runCommand_status_of_legal hrun
  exact ⟨t, r, (step_cons h).trans hrun, runCommand_inputs hrun, hcounts, hresponses, herr, hstatus⟩

theorem run_succ {k : Nat} {s t : State} (h : step s = .next t) :
    Host.Core.run core (k + 1) s = Host.Core.run core k t := by
  simp [Host.Core.run, show core.step s = .next t from h]

/-- Settles O22, by induction over the commands: `step_command` for the first. -/
theorem sequenceIsAnsweredInOrder : Obligations.SequenceIsAnsweredInOrder := by
  intro cmds
  induction cmds with
  | nil => exact fun s h => ⟨s, [], rfl, h, by simp, rfl, fun _ => rfl⟩
  | cons p cmds ih =>
    intro s h
    obtain ⟨t, r, hstep, hinputs, hcounts, hresponses, herr, hstatus⟩ := step_command h
    obtain ⟨t', rs, hrun, hinputs', hresponses', herrs, hstatus'⟩ := ih t hinputs
    rw [hcounts] at herrs hstatus'
    refine ⟨t', r :: rs, (run_succ hstep).trans hrun, hinputs', ?_, ?_, fun hlegal => ?_⟩
    · rw [hresponses', hresponses, List.append_assoc, List.singleton_append]
    · rw [List.map_cons, List.map_cons, herr, herrs]
    · rw [legalSequence, List.all_cons, Bool.and_eq_true, Bool.not_eq_true'] at hlegal
      obtain ⟨hfirst, hrest⟩ := hlegal
      exact (hstatus' hrest).trans (hstatus hfirst)

end Sys2Proof.Machine
end

-- The statements of `spec/30_encoding.md`: decoder against encoder, legality against the four clauses
-- of R90, the kinds of RES, and the table of R95.
section
/-! PROOFS. Statements about the encoding: O1, O2, O3, O4 and O9. Decoder and encoder are compared on
the opcode byte (`decodeOp_encode`, `encode_of_decodeOp`), the fields of `CMD` being put together and
taken apart by `decode_cmdWord` and `cmdWord_fields`; legality is `isIllegal_of_decode_ok` and
`decode_of_legal`; an illegal command has one outcome (`runCommand_of_illegal`). -/

namespace Sys2Proof

open Sys2Proof.Machine

/-! ### Decoding what the encoder writes (R80 to R84) -/

/-- The opcode byte of a command names it, and its operands are read back from INST and `ARG`. -/
theorem decodeOp_encode (i : Instr) : decodeOp i.op (i.inst?.getD 0#8) i.arg = .ok i := by
  cases i with
  | linCfg n skip => exact congrArg (Except.ok ∘ Instr.linCfg n) (argFlag_flagArg skip)
  | _ => rfl

/-- Settles O1: the fields of the encoder's word are the command's own. -/
theorem decodeInvertsEncode : Obligations.DecodeInvertsEncode := fun i =>
  (decode_cmdWord _ _ _).trans (decodeOp_encode i)

/-! ### Encoding what the decoder accepts (R80, R81, R85) -/

theorem decodeGlobal_eq_ok_iff {n : BitVec 8} {i j : Instr} :
    decodeGlobal n i = .ok j ↔ n = 0#8 ∧ i = j := by
  unfold decodeGlobal
  split <;> simp [*]

/-- What the decoder reads of a pair is all that the encoder needs to write it again: the opcode byte,
INST, and the part of `ARG` that the operand's kind uses. -/
theorem encode_of_decodeOp {op n : BitVec 8} {arg : Word} {i : Instr}
    (h : decodeOp op n arg = .ok i) :
    i.op = op ∧ i.inst?.getD 0#8 = n ∧ i.arg = argUsed (argKind i) arg := by
  unfold decodeOp at h
  split at h <;> rename_i hop
  case h_43 => cases h
  case h_1 | h_2 | h_3 | h_4 | h_34 | h_35 | h_36 | h_37 | h_38 | h_39 | h_40 | h_41 | h_42 => -- SYS, FN
    obtain ⟨rfl, rfl⟩ := decodeGlobal_eq_ok_iff.1 h
    exact ⟨BitVec.eq_of_toNat_eq hop.symm, rfl, rfl⟩
  all_goals
    cases h
    exact ⟨BitVec.eq_of_toNat_eq hop.symm, rfl, rfl⟩

/-- The encoder's word under the mask of the command's row is the row's match (R85). -/
theorem cmd_and_mask (i : Instr) : i.cmd &&& i.mask = i.matchBits := by
  unfold Instr.cmd Instr.mask Instr.matchBits
  cases i.inst? with
  | none => exact Laws.cmdWord_masked_global i.op
  | some n => exact Laws.cmdWord_masked_indexed n i.op

/-- Settles O2: with RSV zero the word is put together from the two fields the decoder reads. -/
theorem acceptedWordIsItsEncoding : Obligations.AcceptedWordIsItsEncoding := by
  intro cmd arg i h
  obtain ⟨hrsv, hdecode⟩ := decode_ok h
  obtain ⟨hop, hinst, harg⟩ := encode_of_decodeOp hdecode
  have hcmd : i.cmd = cmd := by rw [Instr.cmd, hop, hinst, cmdWord_fields hrsv]
  exact ⟨hcmd, harg, hcmd ▸ cmd_and_mask i⟩

/-! ### The decode procedure with the counts (R90, R91) -/

theorem decode_of_rsvField_ne_zero {cmd : Word} (h : rsvField cmd ≠ 0#16) (arg : Word) :
    decode cmd arg = .error .reservedNotZero := if_neg h

theorem decodeFor_of_decode_error {cmd arg : Word} {e : DecodeError}
    (h : decode cmd arg = .error e) (c : Counts) : decodeFor c cmd arg = .error e := by
  simp [decodeFor, h]

theorem decodeFor_of_decode_ok {cmd arg : Word} {i : Instr} (h : decode cmd arg = .ok i)
    (c : Counts) :
    decodeFor c cmd arg = if i.wellFormed c then .ok i else .error .instOutOfRange := by
  simp [decodeFor, h]

theorem decodeFor_eq_ok_iff {c : Counts} {cmd arg : Word} {i : Instr} :
    decodeFor c cmd arg = .ok i ↔ decode cmd arg = .ok i ∧ i.wellFormed c = true := by
  cases h : decode cmd arg with
  | error e => simp [decodeFor_of_decode_error h]
  | ok j =>
    rw [decodeFor_of_decode_ok h]
    refine ⟨fun hi => ?_, ?_⟩
    · split at hi <;> cases hi
      exact ⟨rfl, ‹_›⟩
    · rintro ⟨⟨⟩, hwf⟩
      exact if_pos hwf

/-- Settles O3: a legal word decodes to a command with its index in range, and the other way round. -/
theorem legalExactlyByTheFourClauses : Obligations.LegalExactlyByTheFourClauses := by
  intro c cmd arg
  refine ⟨⟨fun ⟨i, hi⟩ => ?_, fun hlegal => ?_⟩, fun hrsv => ?_⟩
  · obtain ⟨hdecode, hwf⟩ := decodeFor_eq_ok_iff.1 hi
    rw [isIllegal_of_decode_ok hdecode, hwf, Bool.not_true]
  · obtain ⟨i, hi⟩ := decode_of_legal arg hlegal
    exact ⟨i, decodeFor_eq_ok_iff.2 hi⟩
  · exact decodeFor_of_decode_error (decode_of_rsvField_ne_zero hrsv arg) c

end Sys2Proof

namespace Sys2Proof.Machine

/-! ### `ERR` and `RES` (R82) -/

/-- An illegal command, refused by the decoder or by its index, raises IllegalCommand (R281). -/
theorem runCommand_of_illegal {cmd : Word} {s : State} (h : isIllegal s.counts cmd = true)
    (arg : Word) : runCommand cmd arg s = .next (raiseIllegal s) := by
  cases hdecode : decode cmd arg with
  | error e => exact runCommand_error hdecode s
  | ok i =>
    rw [isIllegal_of_decode_ok hdecode, Bool.not_eq_true'] at h
    rw [runCommand_ok hdecode, exec_of_not_wellFormed h]

/-- One response is added, and its `RES` is zero. -/
def AnswersZero (s t : State) : Prop :=
  ∃ err, t.responses = s.responses ++ [{ err := err, res := 0#32 }]

theorem raiseIllegal_answersZero (s : State) : AnswersZero s (raiseIllegal s) := ⟨true, rfl⟩

theorem onLin_answersZero {n : BitVec 8} {f : LinUnit → LinUnit × Word} {s t : State}
    (hf : ∀ u, (f u).2 = zeroRes) (h : onLin n f s = .next t) : AnswersZero s t := by
  obtain ⟨-, rfl⟩ | ⟨u, -, rfl⟩ := onLin_cases h
  · exact raiseIllegal_answersZero s
  · rw [hf]; exact ⟨false, rfl⟩

theorem onLag_answersZero {n : BitVec 8} {f : LagUnit → LagUnit × Word} {s t : State}
    (hf : ∀ u, (f u).2 = zeroRes) (h : onLag n f s = .next t) : AnswersZero s t := by
  obtain ⟨-, rfl⟩ | ⟨u, -, rfl⟩ := onLag_cases h
  · exact raiseIllegal_answersZero s
  · rw [hf]; exact ⟨false, rfl⟩

theorem onOsc_answersZero {n : BitVec 8} {f : OscUnit → OscUnit × Word} {s t : State}
    (hf : ∀ u, (f u).2 = zeroRes) (h : onOsc n f s = .next t) : AnswersZero s t := by
  obtain ⟨-, rfl⟩ | ⟨u, -, rfl⟩ := onOsc_cases h
  · exact raiseIllegal_answersZero s
  · rw [hf]; exact ⟨false, rfl⟩

theorem onNz_answersZero {n : BitVec 8} {f : NzUnit → NzUnit × Word} {s t : State}
    (hf : ∀ z, (f z).2 = zeroRes) (h : onNz n f s = .next t) : AnswersZero s t := by
  obtain ⟨-, rfl⟩ | ⟨z, -, rfl⟩ := onNz_cases h
  · exact raiseIllegal_answersZero s
  · rw [hf]; exact ⟨false, rfl⟩

/-- A command of result kind Z answers `RES = 0`, legal or not. -/
theorem exec_answersZero {i : Instr} {s t : State} (hkind : resKind i = .z)
    (h : exec i s = .next t) : AnswersZero s t := by
  cases i with
  | sysNop | sysSeed => cases h; exact ⟨false, rfl⟩
  | linInit | linSetblk | linCfg | linSettgt | linSnap => exact onLin_answersZero (fun _ => rfl) h
  | lagInit | lagSetk | lagSettgt | lagSetimm | lagSnap => exact onLag_answersZero (fun _ => rfl) h
  | oscInit | oscSetrate | oscSetphase => exact onOsc_answersZero (fun _ => rfl) h
  | nzInit | nzRst | nzSetcorr => exact onNz_answersZero (fun _ => rfl) h
  | _ => cases hkind

theorem AnswersZero.res_eq_zero {s t : State} {r : Response} (h : AnswersZero s t)
    (hr : t.responses = s.responses ++ [r]) : r.res = 0#32 := by
  obtain ⟨err, herr⟩ := h
  obtain rfl := List.append_singleton_inj.1 (hr.symm.trans herr) |>.2
  rfl

/-- Settles O9: an illegal command raises IllegalCommand, a command of kind Z answers zero. -/
theorem errExactlyForIllegalCommands : Obligations.ErrExactlyForIllegalCommands := by
  intro s t cmd arg rest r hinputs hstep hr
  rw [step_cons hinputs, hostAct_command] at hstep
  have herr : r.err = isIllegal s.counts cmd := by
    obtain ⟨r', hr', herr'⟩ := runCommand_response hstep
    obtain ⟨-, rfl⟩ := List.append_singleton_inj.1 (hr.symm.trans hr')
    exact herr'
  refine ⟨herr, fun hill => ?_, fun i hdecode hkind => ?_⟩
  · have hraise := runCommand_of_illegal (s := { s with inputs := rest }) (herr.symm.trans hill) arg
    cases hstep.symm.trans hraise
    exact (raiseIllegal_answersZero _).res_eq_zero hr
  · rw [runCommand_ok hdecode] at hstep
    exact (exec_answersZero hkind hstep).res_eq_zero hr

/-! ### The table of R95 -/

/-- Settles O4: the texts are evaluated; each word is taken apart into INST and OP (`decode_cmdWord`),
or is refused for its RSV, whatever `ARG` holds. -/
theorem encodingExamplesOfTheSpec : Obligations.EncodingExamplesOfTheSpec := by
  iterate 10 refine ⟨by decide +kernel, ?_⟩
  refine fun arg => ⟨?settgt, ?setk, ?step2x, ?tanhf, ?rsv, ?op, ?inst, ?index⟩
  case settgt => exact decode_cmdWord 3#8 0x13#8 arg
  case setk => exact decode_cmdWord 1#8 0x21#8 arg
  case step2x => exact decode_cmdWord 2#8 0x46#8 arg
  case tanhf => exact decode_cmdWord 0#8 0x53#8 arg
  case rsv => exact decode_of_rsvField_ne_zero (by decide) arg
  case op => exact decode_cmdWord 0#8 0x18#8 arg
  case inst => exact decode_cmdWord 1#8 0x50#8 arg
  case index =>
    intro c hc
    have hdecode : decode 0x00000414#32 arg = .ok (.linAdv 4#8) := decode_cmdWord 4#8 0x14#8 arg
    have hwf : (Instr.linAdv 4#8).wellFormed c = false :=
      decide_eq_false (not_lt.2 hc.le)
    rw [decodeFor_of_decode_ok hdecode, hwf]
    rfl

end Sys2Proof.Machine
end

-- The statements of `spec/40_numerics.md`: the format of R110.
section
/-! PROOFS. O49. The classes and the value of a word, which the statements read from its fields, said by its
sign and magnitude; what packing a sign and a magnitude and inverting the sign do to them. -/

namespace Sys2Proof.Machine

open Sys2Proof.Claim

/-! ### Classes by the magnitude (R110) -/

theorem expField_eq (a : Word) : expField a = mag a / 2 ^ 23 := by
  unfold expField mag
  rw [BitVec.extractLsb'_toNat, Nat.shiftRight_eq_div_pow]
  omega

theorem fracField_eq (a : Word) : fracField a = mag a % 2 ^ 23 := by
  unfold fracField mag
  rw [BitVec.extractLsb'_toNat, Nat.shiftRight_eq_div_pow]
  omega

theorem isNaN_iff_infMag_lt (a : Word) : IsNaN a ↔ infMag < mag a := by
  have hmag := mag_lt a
  unfold IsNaN infMag
  rw [expField_eq, fracField_eq]
  omega

theorem isInf_iff_mag_eq (a : Word) : IsInf a ↔ mag a = infMag := by
  have hmag := mag_lt a
  unfold IsInf infMag
  rw [expField_eq, fracField_eq]
  omega

theorem isFinite_iff_mag_lt (a : Word) : IsFinite a ↔ mag a < infMag := by
  have hmag := mag_lt a
  unfold IsFinite infMag
  rw [expField_eq]
  omega

theorem isNaN_iff (a : Word) : isNaN a = true ↔ IsNaN a := by
  rw [isNaN_iff_infMag_lt, isNaN, decide_eq_true_iff]

theorem isInf_iff (a : Word) : isInf a = true ↔ IsInf a := by
  rw [isInf_iff_mag_eq, isInf, decide_eq_true_iff]

theorem isFinite_iff (a : Word) : isFinite a = true ↔ IsFinite a := by
  rw [isFinite_iff_mag_lt, isFinite, decide_eq_true_iff]

theorem not_isNaN_of_isFinite {x : Word} (h : IsFinite x) : ¬ IsNaN x :=
  fun hnan => absurd hnan.1 (ne_of_lt h)

theorem isFinite_or_isInf {a : Word} (h : ¬ IsNaN a) : IsFinite a ∨ IsInf a := by
  rw [isNaN_iff_infMag_lt] at h
  rw [isFinite_iff_mag_lt, isInf_iff_mag_eq]
  omega

theorem mag_le_infMag {x : Word} (h : ¬ IsNaN x) : mag x ≤ infMag :=
  not_lt.1 (mt (isNaN_iff_infMag_lt x).2 h)

@[simp] theorem isNaN_eq_false_of_isFinite {a : Word} (h : IsFinite a) : isNaN a = false :=
  decide_eq_false (not_lt.2 ((isFinite_iff_mag_lt a).1 h).le)

@[simp] theorem isInf_eq_false_of_isFinite {a : Word} (h : IsFinite a) : isInf a = false :=
  decide_eq_false ((isFinite_iff_mag_lt a).1 h).ne

@[simp] theorem isNaN_eq_false_of_isInf {a : Word} (h : IsInf a) : isNaN a = false :=
  decide_eq_false (not_lt.2 ((isInf_iff_mag_eq a).1 h).le)

@[simp] theorem isInf_eq_true_of_isInf {a : Word} (h : IsInf a) : isInf a = true :=
  (isInf_iff a).2 h

@[simp] theorem isZero_eq_false_of_isInf {a : Word} (h : IsInf a) : isZero a = false :=
  decide_eq_false fun hzero => absurd (hzero.symm.trans ((isInf_iff_mag_eq a).1 h)) (by decide)

theorem isNaN_or_eq_true {a b : Word} (h : IsNaN a ∨ IsNaN b) : (isNaN a || isNaN b) = true := by
  rwa [Bool.or_eq_true, isNaN_iff, isNaN_iff]

/-- A word is known by its sign and magnitude. -/
theorem eq_of_signBit_of_mag {a b : Word} (hs : signBit a = signBit b) (hm : mag a = mag b) : a = b := by
  rw [← pack_signBit_mag a, hs, hm, pack_signBit_mag]

/-! ### Values by sign and magnitude (R110) -/

/-- The factor that a sign bit stands for. -/
def signFactor (neg : Bool) : ℤ := if neg then -1 else 1

theorem signFactor_xor (s t : Bool) : signFactor (s ^^ t) = signFactor s * signFactor t := by
  cases s <;> cases t <;> rfl

theorem signFactor_ne_zero (neg : Bool) : signFactor neg ≠ 0 := by
  cases neg <;> decide

theorem signFactor_mul_self (s : Bool) : (signFactor s * signFactor s : ℝ) = 1 := by
  cases s <;> norm_num [signFactor]

theorem signFactor_of_ne {s t : Bool} (h : s ≠ t) : signFactor s = -signFactor t := by
  obtain rfl : s = !t := Bool.eq_not_of_ne h
  cases t <;> rfl

theorem signFactor_mul_of_ne {s t : Bool} (h : s ≠ t) : (signFactor s * signFactor t : ℝ) = -1 := by
  rw [signFactor_of_ne h, Int.cast_neg, neg_mul, signFactor_mul_self]

theorem signFactor_pow_three (s : Bool) : signFactor s ^ 3 = signFactor s := by
  cases s <;> rfl

theorem abs_signFactor (s : Bool) : |(signFactor s : ℝ)| = 1 := by
  cases s <;> norm_num [signFactor]

/-- A whole number from its sign and its magnitude. -/
theorem cast_eq_signFactor_mul {K : Type*} [Field K] [LinearOrder K] [IsStrictOrderedRing K] (x : ℤ) :
    (x : K) = signFactor (decide (x < 0)) * (x.natAbs : K) := by
  rw [Nat.cast_natAbs, Int.cast_abs]
  by_cases h : x < 0
  · simp [signFactor, h, abs_of_neg]
  · simp [signFactor, h, abs_of_nonneg (Int.cast_nonneg (not_lt.1 h))]

theorem units_eq (a : Word) : units a = signFactor (signBit a) * unitsOfMag (mag a) := by
  unfold units signFactor
  split <;> ring

/-- The value of a magnitude by its exponent and fraction fields, those of the infinity and of the NaNs
read as if they were one binade more. -/
theorem unitsOfMag_fields (m : ℕ) :
    (unitsOfMag m : ℚ) =
      (if m / 2 ^ 23 = 0 then ((m % 2 ^ 23 : ℕ) : ℚ) * 2 ^ (-149 : ℤ)
        else (1 + ((m % 2 ^ 23 : ℕ) : ℚ) * 2 ^ (-23 : ℤ)) * 2 ^ (((m / 2 ^ 23 : ℕ) : ℤ) - 127)) *
        2 ^ 149 := by
  unfold unitsOfMag
  by_cases hsub : m < 2 ^ 23
  · rw [if_pos hsub, if_pos (Nat.div_eq_of_lt hsub), Nat.mod_eq_of_lt hsub]
    ring
  · obtain ⟨e, he⟩ : ∃ e, m / 2 ^ 23 = e + 1 := ⟨m / 2 ^ 23 - 1, by omega⟩
    have hpow : (2 : ℚ) ^ (((e + 1 : ℕ) : ℤ) - 127) = 2 ^ e * 2 ^ (-126 : ℤ) := by
      rw [← zpow_natCast, ← zpow_add₀ two_ne_zero]
      congr 1
      push_cast
      ring
    rw [if_neg hsub, if_neg (by omega), he, Nat.add_sub_cancel, hpow]
    push_cast
    ring

theorem value_eq (a : Word) : value a = (units a : ℚ) / 2 ^ 149 := by
  rw [eq_div_iff (by positivity), units_eq]
  unfold value
  rw [expField_eq, fracField_eq]
  push_cast
  rw [unitsOfMag_fields, ← mul_assoc]
  congr 2
  unfold signBit signFactor
  split <;> norm_num

/-- The value of a word from its sign and its magnitude. -/
theorem value_eq_signFactor_mul (a : Word) :
    value a = signFactor (signBit a) * (unitsOfMag (mag a) / 2 ^ 149 : ℚ) := by
  rw [value_eq, units_eq]
  push_cast
  ring

theorem unitsOfMag_eq_zero_iff {m : ℕ} : unitsOfMag m = 0 ↔ m = 0 := by
  rw [← unitsOfMag_strictMono.injective.eq_iff (a := m), unitsOfMag_zero]

theorem value_eq_zero_iff (a : Word) : value a = 0 ↔ mag a = 0 := by
  rw [value_eq_signFactor_mul]
  simp [signFactor_ne_zero, unitsOfMag_eq_zero_iff]

theorem isZero_eq_decide (a : Word) : isZero a = decide (value a = 0) := by
  rw [isZero, decide_eq_decide, value_eq_zero_iff]

theorem unitsOfMag_pos_of_value_ne_zero {a : Word} (h : value a ≠ 0) : 0 < unitsOfMag (mag a) :=
  unitsOfMag_pos (Nat.pos_of_ne_zero (mt (value_eq_zero_iff a).2 h))

theorem value_of_nonneg {y : Word} (h : 0 ≤ value y) : value y = unitsOfMag (mag y) / 2 ^ 149 := by
  have hpos : (0 : ℚ) ≤ unitsOfMag (mag y) / 2 ^ 149 := by positivity
  rw [value_eq_signFactor_mul] at h ⊢
  cases hs : signBit y
  · simp [signFactor]
  · rw [hs] at h
    simp only [signFactor, if_true, Int.cast_neg, Int.cast_one] at h ⊢
    linarith

theorem signBit_eq_false_of_value_pos {a : Word} (h : 0 < value a) : signBit a = false := by
  rw [value_eq_signFactor_mul] at h
  cases hs : signBit a
  · rfl
  · have : (0 : ℚ) ≤ unitsOfMag (mag a) / 2 ^ 149 := by positivity
    rw [hs] at h
    norm_num [signFactor] at h
    linarith

theorem unitsOfMag_lt_of_isFinite {a : Word} (h : IsFinite a) : unitsOfMag (mag a) < 2 ^ 277 :=
  unitsOfMag_infMag ▸ unitsOfMag_strictMono ((isFinite_iff_mag_lt a).1 h)

/-- Settles O49: the class checks go by the magnitude, the value by `value_eq`. -/
theorem formatClassesAndValues : Obligations.FormatClassesAndValues := by
  refine fun a => ⟨isNaN_iff a, isInf_iff a, isFinite_iff a, ?_, rfl, fun _ => ?_⟩
  · rw [isZero, decide_eq_true_iff, expField_eq, fracField_eq]
    omega
  · rw [value_eq]
    field_simp

/-! ### Packed words -/

theorem value_pack {neg : Bool} {m : ℕ} (h : m < 2 ^ 31) :
    value (pack neg m) = signFactor neg * (unitsOfMag m / 2 ^ 149 : ℚ) := by
  rw [value_eq_signFactor_mul, signBit_pack h, mag_pack h]

theorem isFinite_pack {neg : Bool} {m : ℕ} (h : m < infMag) : IsFinite (pack neg m) := by
  rwa [isFinite_iff_mag_lt, mag_pack (h.trans infMag_lt)]

theorem isNaN_pack_iff {neg : Bool} {m : ℕ} (h : m < 2 ^ 31) : IsNaN (pack neg m) ↔ infMag < m := by
  rw [isNaN_iff_infMag_lt, mag_pack h]

theorem not_isNaN_pack {neg : Bool} {m : ℕ} (h : m ≤ infMag) : ¬ IsNaN (pack neg m) := by
  rw [isNaN_pack_iff (h.trans_lt infMag_lt)]
  exact h.not_gt

theorem pack_infMag (neg : Bool) :
    pack neg infMag = if neg then 0xFF800000#32 else 0x7F800000#32 := by
  cases neg <;> decide

theorem isInf_and_msb_pack_infMag (neg : Bool) :
    IsInf (pack neg infMag) ∧ (pack neg infMag).msb = neg :=
  ⟨(isInf_iff_mag_eq _).2 (mag_pack infMag_lt), signBit_pack infMag_lt⟩

theorem isFinite_and_value_and_msb_pack_zero (neg : Bool) :
    IsFinite (pack neg 0) ∧ value (pack neg 0) = 0 ∧ (pack neg 0).msb = neg :=
  ⟨isFinite_pack (by decide), (value_eq_zero_iff _).2 (mag_pack (by decide)), signBit_pack (by decide)⟩

theorem msb_pack_roundNearest (neg : Bool) (num den : ℕ) :
    (pack neg (roundNearest num den)).msb = neg :=
  signBit_pack ((roundNearest_le num den).trans_lt infMag_lt)

theorem bit_zero_pack {neg : Bool} {m : ℕ} (hm : m < 2 ^ 31) (h : m % 2 = 0) :
    (pack neg m).getLsbD 0 = false := by
  rw [BitVec.getLsbD, toNat_pack hm, Nat.testBit_zero, decide_eq_false_iff_not]
  split <;> omega

/-! ### Inverting the sign -/

@[simp] theorem signBit_negated (x : Word) : signBit (negated x) = !signBit x := by
  rw [signBit, negated, BitVec.msb_xor, show (0x80000000#32 : Word).msb = true by decide, Bool.xor_true,
    signBit]

@[simp] theorem mag_negated (x : Word) : mag (negated x) = mag x := by
  have h : (negated x).setWidth 31 = x.setWidth 31 := by
    ext i hi
    simp [negated]
  simpa [mag] using congrArg BitVec.toNat h

theorem negated_eq_pack (x : Word) : negated x = pack (!signBit x) (mag x) := by
  rw [← pack_signBit_mag (negated x), signBit_negated, mag_negated]

theorem negated_pack {neg : Bool} {m : ℕ} (h : m < 2 ^ 31) : negated (pack neg m) = pack (!neg) m := by
  rw [negated_eq_pack, signBit_pack h, mag_pack h]

theorem isNaN_negated_iff (x : Word) : IsNaN (negated x) ↔ IsNaN x := by
  rw [isNaN_iff_infMag_lt, isNaN_iff_infMag_lt, mag_negated]

theorem isFinite_negated {y : Word} (h : IsFinite y) : IsFinite (negated y) := by
  rwa [isFinite_iff_mag_lt, mag_negated, ← isFinite_iff_mag_lt]

theorem isFinite_negated_eq (x : Word) : isFinite (negated x) = isFinite x := by
  rw [isFinite, mag_negated, isFinite]

theorem isZero_negated_eq (x : Word) : isZero (negated x) = isZero x := by
  rw [isZero, mag_negated, isZero]

theorem value_negated (x : Word) : value (negated x) = -value x := by
  rw [value_eq_signFactor_mul, value_eq_signFactor_mul, signBit_negated, mag_negated]
  cases signBit x <;> simp [signFactor]

end Sys2Proof.Machine
end

-- The statements of `spec/40_numerics.md`: rounding (R112).
section
/-! PROOFS. `NearestMag` says over the reals which magnitude is nearest; `roundNearest` answers it
(`nearestMag_nearestUncut`), and its word is the exact result rounded (`NearestMag.isRounded_pack`). -/

namespace Sys2Proof.Machine

open Sys2Proof.Claim

/-! ### The nearest magnitude -/

/-- `m` is the magnitude nearest to `x` units, the even one of two equally near, on the scale that goes on
past the largest finite magnitude: `x` is past the midpoint from every lower magnitude and not past the
midpoint to any upper one. -/
structure NearestMag (x : ℝ) (m : ℕ) : Prop where
  nonneg : 0 ≤ x
  lower : ∀ k < m, (unitsOfMag k + unitsOfMag m : ℝ) ≤ 2 * x
  upper : ∀ k, m < k → 2 * x ≤ (unitsOfMag m + unitsOfMag k : ℝ)
  tie : ∀ k ≠ m, 2 * x = (unitsOfMag m + unitsOfMag k : ℝ) → m % 2 = 0

theorem unitsOfMag_cast_le {k m : ℕ} (h : k ≤ m) : (unitsOfMag k : ℝ) ≤ unitsOfMag m :=
  Nat.cast_le.2 (unitsOfMag_strictMono.monotone h)

theorem unitsOfMag_cast_lt {k m : ℕ} (h : k < m) : (unitsOfMag k : ℝ) < unitsOfMag m :=
  Nat.cast_lt.2 (unitsOfMag_strictMono h)

/-- `x` lies between the value of `l` and the midpoint to `l + 1`. -/
theorem NearestMag.of_below {x : ℝ} {l : ℕ} (hlow : (unitsOfMag l : ℝ) ≤ x)
    (hmid : 2 * x ≤ unitsOfMag l + unitsOfMag (l + 1))
    (htie : 2 * x = unitsOfMag l + unitsOfMag (l + 1) → l % 2 = 0) : NearestMag x l where
  nonneg := (Nat.cast_nonneg _).trans hlow
  lower k hk := by linarith [unitsOfMag_cast_lt hk]
  upper k hk := by linarith [unitsOfMag_cast_le (Nat.succ_le_of_lt hk)]
  tie k hne heq := by
    rcases hne.lt_or_gt with hk | hk
    · linarith [unitsOfMag_cast_lt hk]
    · exact htie (by linarith [unitsOfMag_cast_le (Nat.succ_le_of_lt hk)])

/-- `x` lies between the midpoint of `l` and `l + 1` and the value of `l + 1`. -/
theorem NearestMag.of_above {x : ℝ} {l : ℕ} (hhigh : x < unitsOfMag (l + 1))
    (hmid : unitsOfMag l + unitsOfMag (l + 1) ≤ 2 * x)
    (htie : 2 * x = unitsOfMag l + unitsOfMag (l + 1) → (l + 1) % 2 = 0) :
    NearestMag x (l + 1) where
  nonneg := by
    have : (0 : ℝ) ≤ unitsOfMag l + unitsOfMag (l + 1) := by positivity
    linarith
  lower k hk := by linarith [unitsOfMag_cast_le (Nat.le_of_lt_succ hk)]
  upper k hk := by linarith [unitsOfMag_cast_lt hk]
  tie k hne heq := by
    rcases hne.lt_or_gt with hk | hk
    · exact htie (by linarith [unitsOfMag_cast_le (Nat.le_of_lt_succ hk)])
    · linarith [unitsOfMag_cast_lt hk]

/-- `roundNearest` before its cut answers the nearest magnitude. -/
theorem nearestMag_nearestUncut (num : ℕ) {den : ℕ} (hd : 0 < den) :
    NearestMag (num / den) (nearestUncut num den) := by
  obtain ⟨l, hlow, hhigh, hcase⟩ := nearestUncut_cases num hd
  have hd' : (0 : ℝ) < den := Nat.cast_pos.2 hd
  have htie : 2 * (num / den : ℝ) = unitsOfMag l + unitsOfMag (l + 1) →
      2 * num = (unitsOfMag l + unitsOfMag (l + 1)) * den := fun h => by
    rw [mul_div_assoc', div_eq_iff hd'.ne'] at h
    exact_mod_cast h
  rcases hcase with ⟨hm, hmid, heven⟩ | ⟨hm, hmid, hodd⟩ <;> rw [hm]
  · refine .of_below ((le_div_iff₀ hd').2 (mod_cast hlow)) ?_ fun h => heven (htie h)
    rw [mul_div_assoc', div_le_iff₀ hd']
    exact_mod_cast hmid
  · refine .of_above ((div_lt_iff₀ hd').2 (mod_cast hhigh)) ?_ fun h => ?_
    · rw [mul_div_assoc', le_div_iff₀ hd']
      exact_mod_cast hmid
    · have := hodd (htie h)
      omega

/-- No magnitude is nearer. -/
theorem NearestMag.abs_sub_le {x : ℝ} {m : ℕ} (h : NearestMag x m) (k : ℕ) :
    |(unitsOfMag m : ℝ) - x| ≤ |(unitsOfMag k : ℝ) - x| := by
  rcases lt_trichotomy k m with hk | rfl | hk
  · have hlt := unitsOfMag_cast_lt hk
    have hmid := h.lower k hk
    exact (abs_le.2 ⟨by linarith, by linarith⟩).trans (neg_le_abs _)
  · rfl
  · have hlt := unitsOfMag_cast_lt hk
    have hmid := h.upper k hk
    exact (abs_le.2 ⟨by linarith, by linarith⟩).trans (le_abs_self _)

/-- A magnitude equally near makes the nearest one the even one. -/
theorem NearestMag.even_of_abs_sub_eq {x : ℝ} {m k : ℕ} (h : NearestMag x m) (hne : k ≠ m)
    (heq : |(unitsOfMag k : ℝ) - x| = |(unitsOfMag m : ℝ) - x|) : m % 2 = 0 := by
  rcases abs_eq_abs.1 heq with heq | heq
  · have : (unitsOfMag k : ℝ) = unitsOfMag m := by linarith
    exact absurd (unitsOfMag_strictMono.injective (Nat.cast_injective this)) hne
  · exact h.tie k hne (by linarith)

/-- The overflow threshold of R112, half a last place above the largest finite value: from there on, and
only there, the nearest magnitude is not finite (the tie goes to the infinity, which is even). -/
theorem NearestMag.infMag_le_iff {x : ℝ} {m : ℕ} (h : NearestMag x m) :
    infMag ≤ m ↔ (unitsOfMag (infMag - 1) + unitsOfMag infMag : ℝ) ≤ 2 * x := by
  constructor
  · intro hm
    have hmid := h.lower (infMag - 1) (lt_of_lt_of_le (by decide) hm)
    linarith [unitsOfMag_cast_le hm]
  · contrapose!
    intro hm
    have hmid := h.upper infMag hm
    have hle := unitsOfMag_cast_le (Nat.le_sub_one_of_lt hm)
    refine lt_of_le_of_ne (by linarith) fun heq => ?_
    have hlast : m = infMag - 1 :=
      unitsOfMag_strictMono.injective (Nat.cast_injective (R := ℝ) (by linarith))
    subst hlast
    exact absurd (h.tie infMag (by decide) heq) (by decide)

theorem unitsOfMag_maxFinite : unitsOfMag (infMag - 1) = (2 ^ 24 - 1) * 2 ^ 253 := by decide +kernel

/-- The threshold of R112 as a value. -/
theorem overflow_iff (x : ℝ) :
    (2 : ℝ) ^ 128 - 2 ^ 103 ≤ x / 2 ^ 149 ↔
      (unitsOfMag (infMag - 1) + unitsOfMag infMag : ℝ) ≤ 2 * x := by
  have hsum : (unitsOfMag (infMag - 1) + unitsOfMag infMag : ℝ) =
      2 * ((2 ^ 128 - 2 ^ 103) * 2 ^ 149) := by
    rw [unitsOfMag_maxFinite, unitsOfMag_infMag, show 277 = 24 + 253 from rfl, pow_add]
    push_cast
    ring
  rw [hsum, le_div_iff₀ (by positivity), mul_le_mul_iff_right₀ two_pos]

/-! ### The rounded word -/

/-- The distance of a word's value from `x` units of sign `neg`, in units: along the scale of magnitudes
if the word has this sign, else through zero. -/
theorem abs_value_sub {q x : ℝ} {neg : Bool} (hx : 0 ≤ x) (hq : q = signFactor neg * (x / 2 ^ 149))
    (y : Word) :
    |(value y : ℝ) - q| =
      (if signBit y = neg then |(unitsOfMag (mag y) : ℝ) - x| else unitsOfMag (mag y) + x) /
        2 ^ 149 := by
  have hsign : (value y : ℝ) - q = signFactor (signBit y) *
      ((unitsOfMag (mag y) - signFactor (signBit y) * signFactor neg * x) / 2 ^ 149) := by
    rw [hq, value_eq_signFactor_mul]
    push_cast
    linear_combination (signFactor neg * x / 2 ^ 149 : ℝ) * signFactor_mul_self (signBit y)
  rw [hsign, abs_mul, abs_signFactor, one_mul, abs_div, abs_of_pos (a := (2 : ℝ) ^ 149) (by positivity)]
  congr 1
  split
  case isTrue h => rw [h, signFactor_mul_self, one_mul]
  case isFalse h =>
    rw [signFactor_mul_of_ne h, neg_one_mul, sub_neg_eq_add, abs_of_nonneg (by positivity)]

/-- Zero is a magnitude, so the nearest one is not farther than it. -/
theorem NearestMag.abs_sub_le_self {x : ℝ} {m : ℕ} (h : NearestMag x m) : |(unitsOfMag m : ℝ) - x| ≤ x := by
  have := h.abs_sub_le 0
  rwa [unitsOfMag_zero, Nat.cast_zero, zero_sub, abs_neg, abs_of_nonneg h.nonneg] at this

section
variable {q x : ℝ} {neg : Bool} {m : ℕ}

theorem NearestMag.abs_eq (h : NearestMag x m) (hq : q = signFactor neg * (x / 2 ^ 149)) :
    |q| = x / 2 ^ 149 := by
  have := h.nonneg
  rw [hq, abs_mul, abs_signFactor, one_mul, abs_of_nonneg (by positivity)]

theorem NearestMag.abs_value_pack_sub (h : NearestMag x m) (hm : m < infMag)
    (hq : q = signFactor neg * (x / 2 ^ 149)) :
    |(value (pack neg m) : ℝ) - q| = |(unitsOfMag m : ℝ) - x| / 2 ^ 149 := by
  have hm31 := hm.trans infMag_lt
  rw [abs_value_sub h.nonneg hq, if_pos (signBit_pack hm31), mag_pack hm31]

/-- No word is nearer, of either sign. -/
theorem NearestMag.abs_value_pack_sub_le (h : NearestMag x m) (hm : m < infMag)
    (hq : q = signFactor neg * (x / 2 ^ 149)) (y : Word) :
    |(value (pack neg m) : ℝ) - q| ≤ |(value y : ℝ) - q| := by
  rw [h.abs_value_pack_sub hm hq, abs_value_sub h.nonneg hq]
  gcongr
  split
  · exact h.abs_sub_le _
  · exact h.abs_sub_le_self.trans (le_add_of_nonneg_left (Nat.cast_nonneg _))

/-- A word equally near makes the nearest magnitude even; one of the other sign is a zero. -/
theorem NearestMag.even_of_abs_value_sub_eq (h : NearestMag x m) (hm : m < infMag)
    (hq : q = signFactor neg * (x / 2 ^ 149)) {y : Word}
    (heq : |(value y : ℝ) - q| = |(value (pack neg m) : ℝ) - q|) (hne : value y ≠ value (pack neg m)) :
    m % 2 = 0 := by
  rw [h.abs_value_pack_sub hm hq, abs_value_sub h.nonneg hq, div_left_inj' (by positivity)] at heq
  split at heq
  case isTrue hsign =>
    refine h.even_of_abs_sub_eq (fun hmag => hne ?_) heq
    rw [← hmag, ← hsign, pack_signBit_mag]
  case isFalse =>
    have hle := h.abs_sub_le_self
    have hunits : (unitsOfMag (mag y) : ℝ) = 0 := le_antisymm (by linarith) (Nat.cast_nonneg _)
    have hmag := unitsOfMag_eq_zero_iff.1 (Nat.cast_eq_zero.1 hunits)
    refine h.even_of_abs_sub_eq (k := 0) (fun hm0 => hne ?_) ?_
    · rw [(value_eq_zero_iff y).2 hmag, (value_eq_zero_iff _).2]
      rw [mag_pack (hm.trans infMag_lt), hm0]
    · rw [← heq, hunits, unitsOfMag_zero, Nat.cast_zero, zero_sub, zero_add, abs_neg,
        abs_of_nonneg h.nonneg]

/-- The word of a nearest magnitude, cut at the infinity, is the exact result rounded. -/
theorem NearestMag.isRounded_pack (h : NearestMag x m) (hq : q = signFactor neg * (x / 2 ^ 149)) :
    IsRounded q (pack neg (min m infMag)) := by
  have hover : (2 : ℝ) ^ 128 - 2 ^ 103 ≤ |q| ↔ infMag ≤ m := by
    rw [h.abs_eq hq, overflow_iff, h.infMag_le_iff]
  unfold IsRounded
  by_cases hm : infMag ≤ m
  · have hpos : 0 < x / 2 ^ 149 := h.abs_eq hq ▸ lt_of_lt_of_le (by norm_num) (hover.2 hm)
    have hneg : q < 0 ↔ neg = true := by
      rw [hq]
      cases neg
      · simpa [signFactor] using hpos.le
      · simpa [signFactor] using hpos
    rw [if_pos (hover.2 hm), Nat.min_eq_right hm, pack_infMag]
    simp only [hneg]
  · rw [if_neg (hover.not.2 hm), Nat.min_eq_left (not_le.1 hm).le]
    rw [not_le] at hm
    exact ⟨isFinite_pack hm, fun y _ => h.abs_value_pack_sub_le hm hq y,
      fun y _ heq hne => bit_zero_pack (hm.trans infMag_lt) (h.even_of_abs_value_sub_eq hm hq heq hne)⟩

end

/-- `roundNearest` rounds the exact result once (R112). -/
theorem isRounded_pack_roundNearest {q : ℝ} {neg : Bool} {num den : ℕ} (hd : 0 < den)
    (hq : q = signFactor neg * ((num / den : ℝ) / 2 ^ 149)) :
    IsRounded q (pack neg (roundNearest num den)) :=
  (nearestMag_nearestUncut num hd).isRounded_pack hq

/-! ### Exact results -/

/-- A value of at most 24 significant bits is on the scale of magnitudes. -/
theorem exists_unitsOfMag_eq (j : ℕ) {t : ℕ} (ht : t ≤ 2 ^ 24) : ∃ m, unitsOfMag m = t * 2 ^ j := by
  induction j generalizing t with
  | zero => exact ⟨0 * 2 ^ 23 + t, unitsOfMag_place ht (.inl rfl)⟩
  | succ j ih =>
    by_cases hbig : 2 ^ 23 ≤ t
    · exact ⟨_, unitsOfMag_place ht (.inr hbig)⟩
    · obtain ⟨m, hm⟩ := ih (t := 2 * t) (by omega)
      exact ⟨m, by rw [hm]; ring⟩

/-- Such a value below 2^128 is rounded to itself. -/
theorem unitsOfMag_roundNearest {num den t j : ℕ} (hd : 0 < den) (hnum : num = t * 2 ^ j * den)
    (ht : t ≤ 2 ^ 24) (hlt : t * 2 ^ j < 2 ^ 277) :
    roundNearest num den < infMag ∧ unitsOfMag (roundNearest num den) = t * 2 ^ j := by
  obtain ⟨m, hm⟩ := exists_unitsOfMag_eq j ht
  have hfin : m < infMag := by
    rw [← unitsOfMag_strictMono.lt_iff_lt, hm, unitsOfMag_infMag]
    exact hlt
  rw [hnum, ← hm, roundNearest_exact hfin.le hd]
  exact ⟨hfin, rfl⟩

/-! ### Directed rounding (the brackets of R122 to R126) -/

/-- The magnitude below or at `num/den` units, its neighbour, and what the two directed roundings answer. -/
theorem roundDown_roundUp_cases (num : ℕ) {den : ℕ} (hd : 0 < den) :
    ∃ m, unitsOfMag m * den ≤ num ∧ num < unitsOfMag (m + 1) * den ∧
      roundDown num den = min m (infMag - 1) ∧
      roundUp num den = min (m + if num = unitsOfMag m * den then 0 else 1) infMag := by
  obtain ⟨ht, hj⟩ := lastPlace_spec (num / den)
  unfold roundDown roundUp
  generalize lastPlace (num / den) = j at ht hj ⊢
  rw [Nat.div_div_eq_div_mul] at ht hj
  have hmod := Nat.div_add_mod num (den * 2 ^ j)
  have hlt := Nat.mod_lt num (show 0 < den * 2 ^ j by positivity)
  dsimp only
  generalize num / (den * 2 ^ j) = t at ht hj hmod ⊢
  generalize num % (den * 2 ^ j) = r at hmod hlt ⊢
  have hu : unitsOfMag (j * 2 ^ 23 + t) * den = den * 2 ^ j * t := by
    rw [unitsOfMag_place ht.le hj]; ring
  have hu1 : unitsOfMag (j * 2 ^ 23 + t + 1) * den = den * 2 ^ j * t + den * 2 ^ j := by
    rw [Nat.add_assoc, unitsOfMag_place (by omega) (by omega)]; ring
  refine ⟨j * 2 ^ 23 + t, by omega, by omega, rfl, ?_⟩
  rw [hu, ← hmod]
  simp

/-- `roundDown` is the greatest magnitude not above the ratio. -/
theorem le_roundDown_iff {num den m : ℕ} (hd : 0 < den) (hnum : num < unitsOfMag infMag * den) :
    m ≤ roundDown num den ↔ unitsOfMag m * den ≤ num := by
  obtain ⟨l, hlow, hhigh, hdown, -⟩ := roundDown_roundUp_cases num hd
  have hl : l < infMag := unitsOfMag_strictMono.lt_iff_lt.1 (Nat.lt_of_mul_lt_mul_right (hlow.trans_lt hnum))
  rw [hdown, Nat.min_eq_left (by omega)]
  refine ⟨fun h => (Nat.mul_le_mul_right _ (unitsOfMag_strictMono.monotone h)).trans hlow, fun h => ?_⟩
  exact Nat.le_of_lt_succ (unitsOfMag_strictMono.lt_iff_lt.1 (Nat.lt_of_mul_lt_mul_right (h.trans_lt hhigh)))

/-- `roundUp` is the least magnitude not below the ratio. -/
theorem roundUp_le_iff {num den m : ℕ} (hd : 0 < den) (hnum : num ≤ unitsOfMag infMag * den) :
    roundUp num den ≤ m ↔ num ≤ unitsOfMag m * den := by
  obtain ⟨l, hlow, hhigh, -, hup⟩ := roundDown_roundUp_cases num hd
  rw [hup]
  split
  case isTrue hexact =>
    rw [hexact, Nat.mul_le_mul_right_iff hd, unitsOfMag_strictMono.le_iff_le] at hnum
    rw [hexact, Nat.mul_le_mul_right_iff hd, unitsOfMag_strictMono.le_iff_le, Nat.add_zero,
      Nat.min_eq_left hnum]
  case isFalse hne =>
    have hbetween {k : ℕ} (h : num ≤ unitsOfMag k * den) : l + 1 ≤ k :=
      unitsOfMag_strictMono.lt_iff_lt.1
        (Nat.lt_of_mul_lt_mul_right ((hlow.lt_of_ne' hne).trans_le h))
    rw [Nat.min_eq_left (hbetween hnum)]
    exact ⟨fun h => hhigh.le.trans (Nat.mul_le_mul_right _ (unitsOfMag_strictMono.monotone h)), hbetween⟩

theorem roundDown_lt (num den : ℕ) : roundDown num den < infMag :=
  (Nat.min_le_right _ _).trans_lt (by decide)

theorem roundUp_le (num den : ℕ) : roundUp num den ≤ infMag := Nat.min_le_right _ _

end Sys2Proof.Machine
end

-- The statements of `spec/40_numerics.md`: the primitives of R116 to R121 and R127.
section
/-! PROOFS. O48, O50, O51, O52, O53 and O55. Each primitive has an equation per class of its operands; on
finite ones the exact result is the ratio that it rounds. -/

namespace Sys2Proof.Machine

open Sys2Proof.Claim

/-! ### Addition (R116) -/

theorem value_add_eq (a b : Word) : value a + value b = ((units a + units b : ℤ) : ℚ) / 2 ^ 149 := by
  rw [value_eq, value_eq]
  push_cast
  ring

theorem mag_eq_zero_of_units_eq_zero {a : Word} (h : units a = 0) : mag a = 0 := by
  rwa [units_eq, mul_eq_zero_iff_left (signFactor_ne_zero _), Nat.cast_eq_zero,
    unitsOfMag_eq_zero_iff] at h

theorem units_nonpos {a : Word} (h : signBit a = true) : units a ≤ 0 := by
  rw [units, if_pos h]
  omega

/-- A sum is zero with both operands' signs set only for two minus zeros. -/
theorem signBit_and_of_units_add_eq_zero {a b : Word} (h : units a + units b = 0) :
    (signBit a && signBit b) = true ↔ a = negZero ∧ b = negZero := by
  rw [Bool.and_eq_true]
  refine ⟨fun ⟨ha, hb⟩ => ?_, by rintro ⟨rfl, rfl⟩; decide⟩
  have hua := units_nonpos ha
  have hub := units_nonpos hb
  exact ⟨eq_of_signBit_of_mag ha (mag_eq_zero_of_units_eq_zero (by omega)),
    eq_of_signBit_of_mag hb (mag_eq_zero_of_units_eq_zero (by omega))⟩

theorem fadd_of_isNaN {a b : Word} (h : IsNaN a ∨ IsNaN b) : fadd a b = cNaN :=
  if_pos (isNaN_or_eq_true h)

theorem fadd_of_isFinite {a b : Word} (ha : IsFinite a) (hb : IsFinite b) :
    fadd a b =
      if units a + units b = 0 then if signBit a && signBit b then negZero else posZero
      else pack (decide (units a + units b < 0)) (roundNearest (units a + units b).natAbs 1) := by
  simp [fadd, ha, hb]

theorem fadd_isInf_isInf_of_ne {a b : Word} (ha : IsInf a) (hb : IsInf b) (hne : a ≠ b) :
    fadd a b = cNaN := by
  have hs : signBit a ≠ signBit b := fun hs =>
    hne (eq_of_signBit_of_mag hs (((isInf_iff_mag_eq a).1 ha).trans ((isInf_iff_mag_eq b).1 hb).symm))
  simp [fadd, ha, hb, hs]

theorem fadd_isInf {a b : Word} (ha : IsInf a) (hb : IsFinite b ∨ b = a) :
    fadd a b = a ∧ fadd b a = a := by
  rcases hb with hb | rfl
  · simp [fadd, ha, hb]
  · simp [fadd, ha]

theorem fadd_of_value_add_eq_zero {a b : Word} (ha : IsFinite a) (hb : IsFinite b)
    (hsum : value a + value b = 0) :
    fadd a b = if a = negZero ∧ b = negZero then negZero else posZero := by
  have hunits : units a + units b = 0 := by
    rw [value_add_eq] at hsum
    exact_mod_cast (div_eq_zero_iff.1 hsum).resolve_right (by positivity)
  rw [fadd_of_isFinite ha hb, if_pos hunits]
  simp only [signBit_and_of_units_add_eq_zero hunits]

/-- A sum other than zero is rounded once. -/
theorem isRounded_fadd {a b : Word} (ha : IsFinite a) (hb : IsFinite b) (hsum : value a + value b ≠ 0) :
    IsRounded ((value a + value b : ℚ) : ℝ) (fadd a b) := by
  have hunits : units a + units b ≠ 0 := fun h => hsum (by rw [value_add_eq, h]; simp)
  rw [fadd_of_isFinite ha hb, if_neg hunits]
  refine isRounded_pack_roundNearest one_pos ?_
  rw [value_add_eq, Nat.cast_one, div_one, ← mul_div_assoc, ← cast_eq_signFactor_mul]
  push_cast
  rfl

/-- Settles O50, an equation per class of the operands and `isRounded_fadd`. -/
theorem additionRoundsOnce : Obligations.AdditionRoundsOnce := fun _ _ =>
  ⟨rfl, fadd_of_isNaN, fadd_isInf_isInf_of_ne, fadd_isInf, fadd_of_value_add_eq_zero, isRounded_fadd⟩

/-! ### Multiplication (R117) -/

theorem value_mul_eq (a b : Word) :
    value a * value b = signFactor (signBit a ^^ signBit b) *
      ((unitsOfMag (mag a) * unitsOfMag (mag b) : ℕ) / (2 ^ 149 : ℕ) / 2 ^ 149 : ℚ) := by
  rw [value_eq_signFactor_mul, value_eq_signFactor_mul, signFactor_xor]
  push_cast
  ring

theorem fmul_of_isNaN {a b : Word} (h : IsNaN a ∨ IsNaN b) : fmul a b = cNaN :=
  if_pos (isNaN_or_eq_true h)

theorem fmul_isInf_zero {a b : Word} (ha : IsInf a) (hb : IsFinite b) (hzero : value b = 0) :
    fmul a b = cNaN ∧ fmul b a = cNaN := by
  simp [fmul, isZero_eq_decide, ha, hb, hzero]

theorem fmul_isInf_nonzero {a b : Word} (ha : IsInf a) (hb : IsInf b ∨ IsFinite b ∧ value b ≠ 0) :
    fmul a b = pack (signBit a ^^ signBit b) infMag ∧
      fmul b a = pack (signBit a ^^ signBit b) infMag := by
  rcases hb with hb | ⟨hb, hne⟩
  · simp [fmul, ha, hb, Bool.bne_eq_xor, Bool.xor_comm]
  · have hzero : isZero b = false := by rw [isZero_eq_decide, decide_eq_false hne]
    simp [fmul, ha, hb, hzero, Bool.bne_eq_xor, Bool.xor_comm]

theorem fmul_of_isFinite {a b : Word} (ha : IsFinite a) (hb : IsFinite b) :
    fmul a b = pack (signBit a ^^ signBit b)
      (roundNearest (unitsOfMag (mag a) * unitsOfMag (mag b)) (2 ^ 149)) := by
  simp [fmul, ha, hb]

/-- A product of finite values is rounded once. -/
theorem isRounded_fmul {a b : Word} (ha : IsFinite a) (hb : IsFinite b) :
    IsRounded ((value a * value b : ℚ) : ℝ) (fmul a b) := by
  rw [fmul_of_isFinite ha hb]
  refine isRounded_pack_roundNearest (by positivity) ?_
  rw [value_mul_eq]
  push_cast
  rfl

/-- Settles O51, an equation per class of the operands and `isRounded_fmul`. -/
theorem multiplicationRoundsOnce : Obligations.MultiplicationRoundsOnce := by
  refine fun a b => ⟨fmul_of_isNaN, fmul_isInf_zero, fun ha hb => ?_,
    fun ha hb => ⟨isRounded_fmul ha hb, ?_⟩⟩
  · obtain ⟨hab, hba⟩ := fmul_isInf_nonzero ha hb
    obtain ⟨hinf, hsign⟩ := isInf_and_msb_pack_infMag (signBit a ^^ signBit b)
    rw [hab, hba]
    exact ⟨hinf, rfl, hsign⟩
  · rw [fmul_of_isFinite ha hb]
    exact msb_pack_roundNearest _ _ _

/-! ### Division (R118) -/

theorem value_div_eq (a b : Word) :
    value a / value b = signFactor (signBit a ^^ signBit b) *
      ((unitsOfMag (mag a) * 2 ^ 149 : ℕ) / (unitsOfMag (mag b) : ℕ) / 2 ^ 149 : ℚ) := by
  rw [value_eq_signFactor_mul, value_eq_signFactor_mul b, signFactor_xor]
  cases signBit b <;> simp only [signFactor, if_true, Bool.false_eq_true, if_false] <;> push_cast <;> ring

theorem fdiv_of_isNaN {a b : Word} (h : IsNaN a ∨ IsNaN b) : fdiv a b = cNaN :=
  if_pos (isNaN_or_eq_true h)

theorem fdiv_isInf_isInf {a b : Word} (ha : IsInf a) (hb : IsInf b) : fdiv a b = cNaN := by
  simp [fdiv, ha, hb]

theorem fdiv_zero_zero {a b : Word} (ha : IsFinite a) (hb : IsFinite b) (hza : value a = 0)
    (hzb : value b = 0) : fdiv a b = cNaN := by
  simp [fdiv, isZero_eq_decide, ha, hb, hza, hzb]

theorem fdiv_isInf_isFinite {a b : Word} (ha : IsInf a) (hb : IsFinite b) :
    fdiv a b = pack (signBit a ^^ signBit b) infMag := by
  simp [fdiv, ha, hb]

theorem fdiv_nonzero_zero {a b : Word} (ha : IsFinite a) (hza : value a ≠ 0) (hb : IsFinite b)
    (hzb : value b = 0) : fdiv a b = pack (signBit a ^^ signBit b) infMag := by
  simp [fdiv, isZero_eq_decide, ha, hb, hza, hzb]

theorem fdiv_isFinite_isInf {a b : Word} (ha : IsFinite a) (hb : IsInf b) :
    fdiv a b = pack (signBit a ^^ signBit b) 0 := by
  simp [fdiv, ha, hb]

theorem fdiv_of_isFinite {a b : Word} (ha : IsFinite a) (hb : IsFinite b) (hzb : value b ≠ 0) :
    fdiv a b = pack (signBit a ^^ signBit b)
      (roundNearest (unitsOfMag (mag a) * 2 ^ 149) (unitsOfMag (mag b))) := by
  simp [fdiv, isZero_eq_decide, ha, hb, hzb]

/-- A quotient of finite values is rounded once. -/
theorem isRounded_fdiv {a b : Word} (ha : IsFinite a) (hb : IsFinite b) (hzb : value b ≠ 0) :
    IsRounded ((value a / value b : ℚ) : ℝ) (fdiv a b) := by
  rw [fdiv_of_isFinite ha hb hzb]
  refine isRounded_pack_roundNearest (unitsOfMag_pos_of_value_ne_zero hzb) ?_
  rw [value_div_eq]
  push_cast
  rfl

/-- Settles O52, an equation per class of the operands and `isRounded_fdiv`. -/
theorem divisionRoundsOnce : Obligations.DivisionRoundsOnce := by
  refine fun a b => ⟨fdiv_of_isNaN, fdiv_isInf_isInf, fdiv_zero_zero, fun ha hb => ?_,
    fun ha hza hb hzb => ?_, fun ha hb => ?_, fun ha hb hzb => ⟨isRounded_fdiv ha hb hzb, ?_⟩⟩
  · rw [fdiv_isInf_isFinite ha hb]
    exact isInf_and_msb_pack_infMag _
  · rw [fdiv_nonzero_zero ha hza hb hzb]
    exact isInf_and_msb_pack_infMag _
  · rw [fdiv_isFinite_isInf ha hb]
    exact isFinite_and_value_and_msb_pack_zero _
  · rw [fdiv_of_isFinite ha hb hzb]
    exact msb_pack_roundNearest _ _ _

/-! ### Square root (R119) -/

/-- With enough fuel `isqrt` is the whole part of the square root. -/
theorem isqrt_eq_sqrt (fuel n : ℕ) (h : n < 4 ^ fuel) : isqrt fuel n = n.sqrt := by
  induction fuel generalizing n with
  | zero =>
    obtain rfl : n = 0 := by simpa using h
    rfl
  | succ fuel ih =>
    have hdiv : n / 4 < 4 ^ fuel := by
      rw [pow_succ] at h
      omega
    have hlow := Nat.sqrt_le (n / 4)
    have hhigh := Nat.lt_succ_sqrt (n / 4)
    rw [isqrt, ih _ hdiv]
    generalize (n / 4).sqrt = r at hlow hhigh
    have h4 : 4 * (r * r) ≤ n := by omega
    have h4' : n < 4 * ((r + 1) * (r + 1)) := by
      rw [Nat.succ_eq_add_one] at hhigh
      omega
    split
    · exact Nat.eq_sqrt.2 ⟨‹_›, by linarith⟩
    · exact Nat.eq_sqrt.2 ⟨by linarith, by linarith⟩

/-- Past 2^24 units the midpoint of two neighbouring magnitudes is a whole number of units. -/
theorem even_unitsOfMag_add_succ {l : ℕ} (h : 2 ^ 24 < unitsOfMag (l + 1)) :
    Even (unitsOfMag l + unitsOfMag (l + 1)) := by
  obtain ⟨j, t, rfl, ht, hj⟩ := exists_place l
  rw [unitsOfMag_place ht.le hj]
  rw [Nat.add_assoc, unitsOfMag_place (by omega) (by omega)] at h ⊢
  obtain rfl | ⟨i, rfl⟩ : j = 0 ∨ ∃ i, j = i + 1 := by cases j <;> simp
  · omega
  · exact ⟨t * 2 ^ i + (t + 1) * 2 ^ i, by ring⟩

/-- A number strictly between the whole numbers `s` and `s + 1`, `s` from 2^24 on, is nearest to the
magnitude that `s` and a half is nearest to: no midpoint lies strictly between them. -/
theorem NearestMag.of_half {x : ℝ} {s m : ℕ} (h : NearestMag ((2 * s + 1 : ℕ) / (2 : ℕ)) m)
    (hs : 2 ^ 24 ≤ s) (hlow : (s : ℝ) < x) (hhigh : x < s + 1) : NearestMag x m := by
  have hhalf : 2 * ((2 * s + 1 : ℕ) / (2 : ℕ) : ℝ) = (2 * s + 1 : ℕ) := by
    push_cast
    ring
  obtain ⟨-, hlower, hupper, htie⟩ := h
  simp only [hhalf] at hlower hupper htie
  refine ⟨(Nat.cast_nonneg s).trans hlow.le, fun k hk => ?_, fun k hk => ?_, fun k hne heq => ?_⟩
  · obtain ⟨l, rfl⟩ : ∃ l, m = l + 1 := ⟨m - 1, by omega⟩
    have hmid : unitsOfMag l + unitsOfMag (l + 1) ≤ 2 * s + 1 := mod_cast hlower l l.lt_add_one
    have hmono := unitsOfMag_strictMono l.lt_add_one
    have hle : unitsOfMag l + unitsOfMag (l + 1) ≤ 2 * s := by
      by_cases hfar : unitsOfMag (l + 1) ≤ s
      · omega
      · obtain ⟨c, hc⟩ := even_unitsOfMag_add_succ (l := l) (by omega)
        omega
    have hle' : (unitsOfMag l + unitsOfMag (l + 1) : ℝ) ≤ 2 * s := mod_cast hle
    linarith [unitsOfMag_cast_le (Nat.le_of_lt_succ hk)]
  · have hmid : 2 * s + 1 ≤ unitsOfMag m + unitsOfMag (m + 1) := mod_cast hupper _ m.lt_add_one
    have hmono := unitsOfMag_strictMono m.lt_add_one
    obtain ⟨c, hc⟩ := even_unitsOfMag_add_succ (l := m) (by omega)
    have hle : 2 * (s + 1) ≤ unitsOfMag m + unitsOfMag (m + 1) := by omega
    have hle' : (2 * (s + 1) : ℝ) ≤ unitsOfMag m + unitsOfMag (m + 1) := mod_cast hle
    linarith [unitsOfMag_cast_le (Nat.succ_le_of_lt hk)]
  · have hgt : 2 * s < unitsOfMag m + unitsOfMag k := by
      have : (2 * s : ℝ) < unitsOfMag m + unitsOfMag k := by linarith
      exact_mod_cast this
    have hlt : unitsOfMag m + unitsOfMag k < 2 * (s + 1) := by
      have : (unitsOfMag m + unitsOfMag k : ℝ) < 2 * (s + 1) := by linarith
      exact_mod_cast this
    have heq : 2 * s + 1 = unitsOfMag m + unitsOfMag k := by omega
    exact htie k hne (mod_cast heq)

/-- The ratio that `fsqrt` rounds in place of the root of `n` is nearest to the root's magnitude. -/
theorem nearestMag_sqrt {n : ℕ} (hn : 2 ^ 48 ≤ n) :
    NearestMag (√n) (nearestUncut (2 * n.sqrt + if n.sqrt * n.sqrt = n then 0 else 1) 2) := by
  have hnear := nearestMag_nearestUncut (2 * n.sqrt + if n.sqrt * n.sqrt = n then 0 else 1) two_pos
  have hle := n.sqrt_le
  have hlt := n.lt_succ_sqrt
  have hs : 2 ^ 24 ≤ n.sqrt := Nat.le_sqrt.2 (by omega)
  revert hnear
  split
  case isTrue hwhole =>
    intro hnear
    have hroot : √(n : ℝ) = (2 * n.sqrt + 0 : ℕ) / (2 : ℕ) := by
      rw [Real.sqrt_eq_iff_mul_self_eq (by positivity) (by positivity)]
      push_cast
      rw [add_zero, mul_div_cancel_left₀ _ two_ne_zero]
      exact_mod_cast hwhole.symm
    rwa [hroot]
  case isFalse hpart =>
    intro hnear
    refine hnear.of_half hs (Real.lt_sqrt_of_sq_lt ?_) ((Real.sqrt_lt' (by positivity)).2 ?_)
    · have : n.sqrt ^ 2 < n := by rw [sq]; omega
      exact_mod_cast this
    · have : n < (n.sqrt + 1) ^ 2 := by rw [sq]; exact hlt
      exact_mod_cast this

theorem fsqrt_of_value_pos {a : Word} (ha : IsFinite a) (hpos : 0 < value a) :
    fsqrt a = pack false (roundNearest
      (2 * (unitsOfMag (mag a) * 2 ^ 149).sqrt +
        if (unitsOfMag (mag a) * 2 ^ 149).sqrt * (unitsOfMag (mag a) * 2 ^ 149).sqrt =
          unitsOfMag (mag a) * 2 ^ 149 then 0 else 1) 2) := by
  have hfuel : unitsOfMag (mag a) * 2 ^ 149 < 4 ^ 214 :=
    (Nat.mul_lt_mul_of_pos_right (unitsOfMag_lt_of_isFinite ha) (by positivity)).trans (by decide +kernel)
  rw [← isqrt_eq_sqrt 214 _ hfuel]
  simp only [fsqrt, isNaN_eq_false_of_isFinite ha, isZero_eq_decide, hpos.ne', decide_false,
    signBit_eq_false_of_value_pos hpos, isInf_eq_false_of_isFinite ha, Bool.false_eq_true, if_false]

theorem fsqrt_of_signBit {a : Word} (hs : signBit a = true) (hnan : ¬ IsNaN a) (hne : a ≠ negZero) :
    fsqrt a = cNaN := by
  have hzero : isZero a = false := decide_eq_false fun h => hne (eq_of_signBit_of_mag hs h)
  rw [fsqrt, if_neg (mt (isNaN_iff a).1 hnan), hzero, hs]
  rfl

/-- A root is rounded once. -/
theorem isRounded_fsqrt {a : Word} (ha : IsFinite a) (hpos : 0 < value a) :
    IsRounded √(value a : ℝ) (fsqrt a) := by
  have hunits := unitsOfMag_pos_of_value_ne_zero hpos.ne'
  have hvalue : (value a : ℝ) = (unitsOfMag (mag a) * 2 ^ 149 : ℕ) / (2 ^ 149) ^ 2 := by
    rw [value_of_nonneg hpos.le]
    push_cast
    ring
  rw [fsqrt_of_value_pos ha hpos]
  refine (nearestMag_sqrt (by omega)).isRounded_pack ?_
  rw [hvalue, Real.sqrt_div (Nat.cast_nonneg _), Real.sqrt_sq (by positivity)]
  simp [signFactor]

/-- Settles O53: no rounding boundary lies between the root and the ratio that stands for it. -/
theorem squareRootRoundsOnce : Obligations.SquareRootRoundsOnce := fun a =>
  ⟨fun h => if_pos ((isNaN_iff a).2 h), fsqrt_of_signBit, by decide, by decide, by decide,
    isRounded_fsqrt⟩

/-! ### Comparisons (R121) -/

/-- Order keys are in the order of the values. -/
theorem orderKey_lt_iff_units_lt (a b : Word) : orderKey a < orderKey b ↔ units a < units b := by
  have hmono := unitsOfMag_strictMono.lt_iff_lt (a := mag a) (b := mag b)
  have hmono' := unitsOfMag_strictMono.lt_iff_lt (a := mag b) (b := mag a)
  have ha := unitsOfMag_eq_zero_iff (m := mag a)
  have hb := unitsOfMag_eq_zero_iff (m := mag b)
  unfold orderKey units
  split <;> split <;> omega

theorem orderKey_lt_iff_value_lt (a b : Word) : orderKey a < orderKey b ↔ value a < value b := by
  rw [orderKey_lt_iff_units_lt, value_eq, value_eq, div_lt_div_iff_of_pos_right (by positivity), Int.cast_lt]

theorem units_le_of_orderKey_le {a b : Word} (h : orderKey a ≤ orderKey b) : units a ≤ units b :=
  not_lt.1 (mt (orderKey_lt_iff_units_lt b a).2 h.not_gt)

theorem place_of_isFinite {a : Word} (h : IsFinite a) :
    place a = ((value a : WithTop ℚ) : WithBot (WithTop ℚ)) :=
  if_neg (ne_of_lt h)

theorem place_of_isInf {a : Word} (h : IsInf a) :
    place a = if signBit a then ⊥ else ((⊤ : WithTop ℚ) : WithBot (WithTop ℚ)) :=
  if_pos h.1

theorem abs_orderKey_lt {a : Word} (h : IsFinite a) :
    -(infMag : ℤ) < orderKey a ∧ orderKey a < infMag := by
  rw [isFinite_iff_mag_lt] at h
  unfold orderKey
  split <;> omega

theorem orderKey_of_isInf {a : Word} (h : IsInf a) :
    orderKey a = if signBit a then -(infMag : ℤ) else infMag := by
  rw [orderKey, (isInf_iff_mag_eq a).1 h]

/-- Order keys are in the order of the places among the extended reals. -/
theorem place_lt_iff {a b : Word} (ha : ¬ IsNaN a) (hb : ¬ IsNaN b) :
    place a < place b ↔ orderKey a < orderKey b := by
  have hpos : (0 : ℤ) < infMag := by decide
  rcases isFinite_or_isInf ha with ha | ha <;> rcases isFinite_or_isInf hb with hb | hb
  · rw [place_of_isFinite ha, place_of_isFinite hb, orderKey_lt_iff_value_lt, WithBot.coe_lt_coe,
      WithTop.coe_lt_coe]
  · obtain ⟨hlow, hhigh⟩ := abs_orderKey_lt ha
    rw [place_of_isFinite ha, place_of_isInf hb, orderKey_of_isInf hb]
    cases signBit b
    · exact iff_of_true (WithBot.coe_lt_coe.2 (WithTop.coe_lt_top _)) hhigh
    · exact iff_of_false not_lt_bot (not_lt.2 hlow.le)
  · obtain ⟨hlow, hhigh⟩ := abs_orderKey_lt hb
    rw [place_of_isInf ha, place_of_isFinite hb, orderKey_of_isInf ha]
    cases signBit a
    · exact iff_of_false (not_lt.2 (WithBot.coe_le_coe.2 le_top)) (not_lt.2 hhigh.le)
    · exact iff_of_true (WithBot.bot_lt_coe _) hlow
  · rw [place_of_isInf ha, place_of_isInf hb, orderKey_of_isInf ha, orderKey_of_isInf hb]
    cases signBit a <;> cases signBit b <;> simp
    omega

theorem flt_iff {a b : Word} :
    flt a b = true ↔ ¬ IsNaN a ∧ ¬ IsNaN b ∧ orderKey a < orderKey b := by
  simp [flt, ← isNaN_iff, and_assoc]

theorem fle_iff {a b : Word} :
    fle a b = true ↔ ¬ IsNaN a ∧ ¬ IsNaN b ∧ orderKey a ≤ orderKey b := by
  simp [fle, ← isNaN_iff, and_assoc]

/-- Settles O55: order keys are in the order of the places (`place_lt_iff`). -/
theorem comparisonsOrderTheExtendedReals : Obligations.ComparisonsOrderTheExtendedReals := by
  refine fun a b => ⟨?_, ?_, rfl, rfl⟩
  · rw [flt_iff]
    exact and_congr_right fun ha => and_congr_right fun hb => (place_lt_iff ha hb).symm
  · rw [fle_iff]
    refine and_congr_right fun ha => and_congr_right fun hb => ?_
    rw [← not_lt, ← place_lt_iff hb ha, not_lt]

/-! ### The draws (R127, R232) -/

theorem natAbs_toInt_le (v : BitVec 24) : v.toInt.natAbs ≤ 2 ^ 23 := by
  have hlow := BitVec.le_toInt v
  have hhigh := BitVec.toInt_lt (x := v)
  omega

/-- The conversion of a 24-bit number is exact. -/
theorem i2f24_exact (v : BitVec 24) :
    IsFinite (i2f24 v) ∧ signBit (i2f24 v) = decide (v.toInt < 0) ∧
      unitsOfMag (mag (i2f24 v)) = v.toInt.natAbs * 2 ^ 149 := by
  have hle := natAbs_toInt_le v
  obtain ⟨hfin, hunits⟩ := unitsOfMag_roundNearest (num := v.toInt.natAbs * 2 ^ 149) (j := 149) one_pos
    (mul_one _).symm (hle.trans (by decide))
    ((Nat.mul_le_mul_right _ hle).trans_lt (by decide +kernel))
  have hlt := hfin.trans infMag_lt
  exact ⟨isFinite_pack hfin, signBit_pack hlt, (congrArg unitsOfMag (mag_pack hlt)).trans hunits⟩

theorem value_i2f24 (v : BitVec 24) : value (i2f24 v) = v.toInt := by
  obtain ⟨-, hsign, hunits⟩ := i2f24_exact v
  rw [value_eq_signFactor_mul, hsign, hunits, cast_eq_signFactor_mul v.toInt]
  push_cast
  ring

/-- So is its product with 2^-23. -/
theorem scale23_exact (v : BitVec 24) :
    IsFinite (scale23 v) ∧ value (scale23 v) = (v.toInt : ℚ) / 2 ^ 23 := by
  obtain ⟨hfinite, hsign, hunits⟩ := i2f24_exact v
  have hle := natAbs_toInt_le v
  have hfactor : unitsOfMag (mag twoPowMinus23) = 2 ^ 126 := by decide +kernel
  have hpositive : signBit twoPowMinus23 = false := by decide
  have htwo : IsFinite twoPowMinus23 := (isFinite_iff _).1 (by decide)
  obtain ⟨hfin, hexact⟩ := unitsOfMag_roundNearest (num := v.toInt.natAbs * 2 ^ 149 * 2 ^ 126) (j := 126)
    (den := 2 ^ 149) (by positivity) (mul_right_comm _ _ _) (hle.trans (by decide))
    ((Nat.mul_le_mul_right _ hle).trans_lt (by decide +kernel))
  rw [scale23, fmul_of_isFinite hfinite htwo, hsign, hpositive, hunits, hfactor, Bool.xor_false]
  refine ⟨isFinite_pack hfin, ?_⟩
  rw [value_pack (hfin.trans infMag_lt), hexact, cast_eq_signFactor_mul v.toInt]
  push_cast
  ring

/-- Settles O48: both the conversion and the product keep 24 significant bits. -/
theorem drawsAreExact : Obligations.DrawsAreExact := by
  refine ⟨by decide, fun v => ?_, fun s => ?_⟩
  · obtain ⟨hfin, -⟩ := i2f24_exact v
    exact ⟨hfin, value_i2f24 v, rfl, scale23_exact v⟩
  · obtain ⟨-, hvalue⟩ := scale23_exact (s.extractLsb' 8 24)
    have hlow : (-(2 ^ 23) : ℚ) ≤ (s.extractLsb' 8 24).toInt := mod_cast BitVec.le_toInt _
    have hhigh : ((s.extractLsb' 8 24).toInt : ℚ) < 2 ^ 23 := mod_cast BitVec.toInt_lt
    rw [prbsValue, hvalue, le_div_iff₀ (by positivity), div_lt_one (by positivity)]
    exact ⟨rfl, by linarith, hhigh⟩

end Sys2Proof.Machine
end

-- The statements of `spec/40_numerics.md`: the configuration functions of R122 to R126, and R113.
section
/-! PROOFS. O54, O56, O57, O58 and O59. What holds of both candidates holds whatever the free choice is; the
cube root's candidates are the greatest magnitude whose cube is not above the operand and the least whose
cube is not below it, and its properties follow from these two equivalences. -/

namespace Sys2Proof.Machine

open Sys2Proof.Claim

/-! ### The candidates of the cube root (R126) -/

theorem le_iff_cube_le {r n k : ℕ} (hlow : r ^ 3 ≤ n) (hhigh : n < (r + 1) ^ 3) :
    k ≤ r ↔ k ^ 3 ≤ n :=
  ⟨fun h => (Nat.pow_le_pow_left h 3).trans hlow,
    fun h => Nat.le_of_lt_succ (lt_of_pow_lt_pow_left₀ 3 (Nat.zero_le _) (h.trans_lt hhigh))⟩

/-- With enough fuel `icbrt` is the whole part of the cube root. -/
theorem le_icbrt_iff (fuel n k : ℕ) (h : n < 8 ^ fuel) : k ≤ icbrt fuel n ↔ k ^ 3 ≤ n := by
  induction fuel generalizing n k with
  | zero =>
    obtain rfl : n = 0 := by simpa using h
    simp [icbrt]
  | succ fuel ih =>
    have hdiv : n / 8 < 8 ^ fuel := by
      rw [pow_succ] at h
      omega
    have hlow := (ih (n / 8) _ hdiv).1 le_rfl
    have hhigh := mt (ih (n / 8) (icbrt fuel (n / 8) + 1) hdiv).2 (by omega)
    rw [icbrt]
    generalize icbrt fuel (n / 8) = r at hlow hhigh
    have hlow' : (2 * r) ^ 3 ≤ n := by
      have : (2 * r) ^ 3 = 8 * r ^ 3 := by ring
      omega
    have hhigh' : n < (2 * r + 1 + 1) ^ 3 := by
      have : (2 * r + 1 + 1) ^ 3 = 8 * (r + 1) ^ 3 := by ring
      omega
    have hcube : (2 * r + 1) * (2 * r + 1) * (2 * r + 1) = (2 * r + 1) ^ 3 := by ring
    rw [hcube]
    split
    case isTrue hbit => exact le_iff_cube_le hbit hhigh'
    case isFalse hbit => exact le_iff_cube_le hlow' (not_le.1 hbit)

/-- The units of every finite value, at the scale of the cubes, are within the fuel of `icbrt`. -/
theorem cubeUnits_lt {m : ℕ} (h : m < infMag) : unitsOfMag m * 2 ^ 298 < 8 ^ 193 := by
  have hlt := unitsOfMag_strictMono h
  rw [unitsOfMag_infMag] at hlt
  exact (Nat.mul_lt_mul_of_pos_right hlt (by positivity)).trans (by decide +kernel)

theorem two_pow_lt_infMag : 2 ^ 193 < unitsOfMag infMag := by decide +kernel

theorem icbrt_lt {n : ℕ} (h : n < 8 ^ 193) : icbrt 193 n < 2 ^ 193 := by
  rw [← not_le, le_icbrt_iff 193 n _ h, not_le, ← pow_mul, mul_comm, pow_mul]
  exact h

/-- The lower candidate is the greatest magnitude whose cube is not above the operand. -/
theorem le_cbrtCandidates_fst_iff {m k : ℕ} (h : m < infMag) :
    k ≤ (cbrtCandidates (unitsOfMag m)).1 ↔ unitsOfMag k ^ 3 ≤ unitsOfMag m * 2 ^ 298 := by
  have hlt := cubeUnits_lt h
  rw [← le_icbrt_iff 193 _ _ hlt]
  refine (le_roundDown_iff one_pos ?_).trans (by rw [mul_one])
  rw [mul_one]
  exact (icbrt_lt hlt).trans two_pow_lt_infMag

/-- The upper candidate is the least magnitude whose cube is not below the operand. -/
theorem cbrtCandidates_snd_le_iff {m k : ℕ} (h : m < infMag) :
    (cbrtCandidates (unitsOfMag m)).2 ≤ k ↔ unitsOfMag m * 2 ^ 298 ≤ unitsOfMag k ^ 3 := by
  have hlt := cubeUnits_lt h
  have hroot := (icbrt_lt hlt).trans two_pow_lt_infMag
  have hlow := (le_icbrt_iff 193 _ _ hlt).1 le_rfl
  have hiff (l : ℕ) := le_icbrt_iff 193 _ l hlt
  unfold cbrtCandidates
  dsimp only
  generalize icbrt 193 (unitsOfMag m * 2 ^ 298) = r at hroot hlow hiff ⊢
  generalize unitsOfMag m * 2 ^ 298 = n at hlow hiff ⊢
  rw [show r * r * r = r ^ 3 by ring]
  split
  case isTrue hexact =>
    rw [roundUp_le_iff one_pos (by omega), mul_one, ← hexact]
    exact (Nat.pow_le_pow_iff_left (by decide)).symm
  case isFalse hne =>
    rw [roundUp_le_iff one_pos (by omega), mul_one, Nat.succ_le_iff]
    refine ⟨fun h => (not_le.1 (mt (hiff _).2 h.not_ge)).le, fun h => not_le.1 fun hle => hne ?_⟩
    exact hlow.antisymm (h.trans (Nat.pow_le_pow_left hle 3))

/-- The candidates are one magnitude or two neighbours. -/
theorem cbrtCandidates_neighbours {m : ℕ} (h : m < infMag) :
    (cbrtCandidates (unitsOfMag m)).1 ≤ (cbrtCandidates (unitsOfMag m)).2 ∧
      (cbrtCandidates (unitsOfMag m)).2 ≤ (cbrtCandidates (unitsOfMag m)).1 + 1 := by
  constructor
  · have hlow := (le_cbrtCandidates_fst_iff h).1 le_rfl
    have hhigh := (cbrtCandidates_snd_le_iff h).1 le_rfl
    exact unitsOfMag_strictMono.le_iff_le.1 ((Nat.pow_le_pow_iff_left (by decide)).1 (hlow.trans hhigh))
  · rw [cbrtCandidates_snd_le_iff h]
    exact (not_le.1 (mt (le_cbrtCandidates_fst_iff h).2 (Nat.not_succ_le_self _))).le

/-! ### The magnitude of the cube root -/

/-- The magnitude of `fcbrt` at a magnitude: the candidate that the free choice takes; the infinity's own. -/
def cbrtMag (m : ℕ) : ℕ :=
  if m < infMag then
    if Config.cbrtThreshold (pack false (cbrtCandidates (unitsOfMag m)).1) ≤ m then
      (cbrtCandidates (unitsOfMag m)).2
    else (cbrtCandidates (unitsOfMag m)).1
  else m

theorem cbrtMag_cases {m : ℕ} (h : m < infMag) :
    cbrtMag m = (cbrtCandidates (unitsOfMag m)).1 ∨ cbrtMag m = (cbrtCandidates (unitsOfMag m)).2 := by
  rw [cbrtMag, if_pos h]
  split
  · exact .inr rfl
  · exact .inl rfl

theorem cbrtMag_infMag : cbrtMag infMag = infMag := if_neg (lt_irrefl _)

/-- Where the cube of a magnitude is the operand, both candidates are that magnitude. -/
theorem cbrtMag_of_cube_eq {m k : ℕ} (h : m < infMag) (hcube : unitsOfMag k ^ 3 = unitsOfMag m * 2 ^ 298) :
    cbrtMag m = k := by
  have hle (i j : ℕ) : unitsOfMag i ^ 3 ≤ unitsOfMag j ^ 3 ↔ i ≤ j := by
    rw [Nat.pow_le_pow_iff_left (by decide), unitsOfMag_strictMono.le_iff_le]
  have hfst : (cbrtCandidates (unitsOfMag m)).1 = k :=
    eq_of_forall_le_iff fun c => by rw [le_cbrtCandidates_fst_iff h, ← hcube, hle]
  have hsnd : (cbrtCandidates (unitsOfMag m)).2 = k :=
    eq_of_forall_ge_iff fun c => by rw [cbrtCandidates_snd_le_iff h, ← hcube, hle]
  rcases cbrtMag_cases h with hm | hm
  · rw [hm, hfst]
  · rw [hm, hsnd]

theorem cbrtMag_zero : cbrtMag 0 = 0 :=
  cbrtMag_of_cube_eq (by decide) (by rw [unitsOfMag_zero, Nat.zero_mul]; rfl)

theorem cbrtMag_lt {m : ℕ} (h : m < infMag) : cbrtMag m < infMag := by
  have hsnd : (cbrtCandidates (unitsOfMag m)).2 ≤ infMag - 1 := by
    rw [cbrtCandidates_snd_le_iff h]
    exact (cubeUnits_lt h).le.trans (by decide +kernel)
  have hinf : 0 < infMag := by decide
  obtain ⟨hle, -⟩ := cbrtCandidates_neighbours h
  rcases cbrtMag_cases h with hm | hm <;> omega

theorem cbrtMag_le {m : ℕ} (h : m ≤ infMag) : cbrtMag m ≤ infMag := by
  rcases h.lt_or_eq with h | rfl
  · exact (cbrtMag_lt h).le
  · rw [cbrtMag_infMag]

/-- Monotone whatever the choice, because it is a threshold for each lower candidate: two operands with
different lower candidates are apart by a whole place of the result. -/
theorem cbrtMag_mono {m m' : ℕ} (hle : m ≤ m') (h' : m' ≤ infMag) : cbrtMag m ≤ cbrtMag m' := by
  rcases h'.lt_or_eq with h' | rfl
  · have h := hle.trans_lt h'
    have hunits : unitsOfMag m * 2 ^ 298 ≤ unitsOfMag m' * 2 ^ 298 :=
      Nat.mul_le_mul_right _ (unitsOfMag_strictMono.monotone hle)
    have hfst : (cbrtCandidates (unitsOfMag m)).1 ≤ (cbrtCandidates (unitsOfMag m')).1 :=
      (le_cbrtCandidates_fst_iff h').2 (((le_cbrtCandidates_fst_iff h).1 le_rfl).trans hunits)
    have hsnd : (cbrtCandidates (unitsOfMag m)).2 ≤ (cbrtCandidates (unitsOfMag m')).2 :=
      (cbrtCandidates_snd_le_iff h).2 (hunits.trans ((cbrtCandidates_snd_le_iff h').1 le_rfl))
    obtain ⟨hlow, hhigh⟩ := cbrtCandidates_neighbours h
    obtain ⟨hlow', -⟩ := cbrtCandidates_neighbours h'
    rcases hfst.lt_or_eq with hlt | heq
    · rcases cbrtMag_cases h with hm | hm <;> rcases cbrtMag_cases h' with hm' | hm' <;> omega
    · rw [cbrtMag, cbrtMag, if_pos h, if_pos h', heq]
      split <;> split <;> omega
  · rw [cbrtMag_infMag]
    exact cbrtMag_le hle

/-- `fcbrt` works on the magnitude and keeps the sign. -/
theorem fcbrt_eq {x : Word} (h : ¬ IsNaN x) : fcbrt x = pack (signBit x) (cbrtMag (mag x)) := by
  rw [fcbrt, if_neg (mt (isNaN_iff x).1 h)]
  split
  case isTrue hspecial =>
    have hmag : cbrtMag (mag x) = mag x := by
      rcases Bool.or_eq_true_iff.1 hspecial with hinf | hzero
      · rw [of_decide_eq_true hinf, cbrtMag_infMag]
      · rw [of_decide_eq_true hzero, cbrtMag_zero]
    rw [hmag, pack_signBit_mag]
  case isFalse hordinary =>
    have hfin : mag x < infMag := by
      refine lt_of_le_of_ne (not_lt.1 (mt (isNaN_iff_infMag_lt x).2 h)) fun hinf => hordinary ?_
      rw [isInf, hinf]
      rfl
    rw [cbrtMag, if_pos hfin]
    dsimp only
    split <;> rfl

theorem signBit_fcbrt {x : Word} (h : ¬ IsNaN x) : signBit (fcbrt x) = signBit x := by
  rw [fcbrt_eq h, signBit_pack ((cbrtMag_le (mag_le_infMag h)).trans_lt infMag_lt)]

theorem mag_fcbrt {x : Word} (h : ¬ IsNaN x) : mag (fcbrt x) = cbrtMag (mag x) := by
  rw [fcbrt_eq h, mag_pack ((cbrtMag_le (mag_le_infMag h)).trans_lt infMag_lt)]

/-! ### The properties of the cube root -/

theorem fcbrt_negated {x : Word} (h : ¬ IsNaN x) : fcbrt (negated x) = negated (fcbrt x) := by
  rw [fcbrt_eq (mt (isNaN_negated_iff x).1 h), signBit_negated, mag_negated, negated_eq_pack,
    signBit_fcbrt h, mag_fcbrt h]

theorem not_isNaN_fcbrt {x : Word} (h : ¬ IsNaN x) : ¬ IsNaN (fcbrt x) := by
  rw [isNaN_iff_infMag_lt, mag_fcbrt h, not_lt]
  exact cbrtMag_le (mag_le_infMag h)

theorem isFinite_fcbrt {x : Word} (h : IsFinite x) : IsFinite (fcbrt x) := by
  rw [isFinite_iff_mag_lt, mag_fcbrt (not_isNaN_of_isFinite h)]
  exact cbrtMag_lt ((isFinite_iff_mag_lt x).1 h)

theorem fcbrt_mono {a b : Word} (h : fle a b = true) : fle (fcbrt a) (fcbrt b) = true := by
  obtain ⟨ha, hb, hle⟩ := fle_iff.1 h
  refine fle_iff.2 ⟨not_isNaN_fcbrt ha, not_isNaN_fcbrt hb, ?_⟩
  have hmono := @cbrtMag_mono (mag a) (mag b)
  have hmono' := @cbrtMag_mono (mag b) (mag a)
  have hma := mag_le_infMag ha
  have hmb := mag_le_infMag hb
  unfold orderKey at hle ⊢
  rw [signBit_fcbrt ha, signBit_fcbrt hb, mag_fcbrt ha, mag_fcbrt hb]
  cases hsa : signBit a <;> cases hsb : signBit b <;>
    simp only [hsa, hsb, Bool.false_eq_true, if_true, if_false] at hle ⊢
  · omega
  · obtain ⟨h0, h0'⟩ : mag a = 0 ∧ mag b = 0 := by omega
    rw [h0, h0', cbrtMag_zero]
    rfl
  · omega
  · omega

/-- A value and a cube of a value at one scale. -/
theorem value_eq_cubeUnits (m : ℕ) :
    (unitsOfMag m / 2 ^ 149 : ℚ) = (unitsOfMag m * 2 ^ 298 : ℕ) / (2 ^ 149) ^ 3 := by
  rw [show 298 = 149 + 149 from rfl, pow_add]
  push_cast
  ring

theorem cube_value_eq (k : ℕ) :
    (unitsOfMag k / 2 ^ 149 : ℚ) ^ 3 = (unitsOfMag k ^ 3 : ℕ) / (2 ^ 149) ^ 3 := by
  rw [div_pow, Nat.cast_pow]

theorem cube_le_value_iff (k m : ℕ) :
    (unitsOfMag k / 2 ^ 149 : ℚ) ^ 3 ≤ unitsOfMag m / 2 ^ 149 ↔
      unitsOfMag k ^ 3 ≤ unitsOfMag m * 2 ^ 298 := by
  rw [value_eq_cubeUnits m, cube_value_eq, div_le_div_iff_of_pos_right (by positivity), Nat.cast_le]

theorem value_le_cube_iff (k m : ℕ) :
    (unitsOfMag m / 2 ^ 149 : ℚ) ≤ (unitsOfMag k / 2 ^ 149) ^ 3 ↔
      unitsOfMag m * 2 ^ 298 ≤ unitsOfMag k ^ 3 := by
  rw [value_eq_cubeUnits m, cube_value_eq, div_le_div_iff_of_pos_right (by positivity), Nat.cast_le]

theorem unitsOfMag_div_lt_iff (k m : ℕ) :
    (unitsOfMag k / 2 ^ 149 : ℚ) < unitsOfMag m / 2 ^ 149 ↔ k < m := by
  rw [div_lt_div_iff_of_pos_right (by positivity), Nat.cast_lt, unitsOfMag_strictMono.lt_iff_lt]

/-- `w` is the greatest binary32 value whose cube is not above `v`, or the least whose cube is not
below it. -/
def BracketsCubeRoot (v w : ℚ) : Prop :=
  (w ^ 3 ≤ v ∧ ∀ y, IsFinite y → w < value y → v < value y ^ 3) ∨
    (v ≤ w ^ 3 ∧ ∀ y, IsFinite y → value y < w → value y ^ 3 < v)

theorem BracketsCubeRoot.neg {v w : ℚ} (h : BracketsCubeRoot v w) : BracketsCubeRoot (-v) (-w) := by
  have hcube (q : ℚ) : (-q) ^ 3 = -q ^ 3 := by ring
  rcases h with ⟨hle, hnext⟩ | ⟨hle, hnext⟩
  · refine .inr ⟨by rw [hcube]; linarith, fun y hy hlt => ?_⟩
    have := hnext (negated y) (isFinite_negated hy) (by rw [value_negated]; linarith)
    rw [value_negated, hcube] at this
    linarith
  · refine .inl ⟨by rw [hcube]; linarith, fun y hy hlt => ?_⟩
    have := hnext (negated y) (isFinite_negated hy) (by rw [value_negated]; linarith)
    rw [value_negated, hcube] at this
    linarith

theorem bracketsCubeRoot_cbrtMag {m : ℕ} (h : m < infMag) :
    BracketsCubeRoot (unitsOfMag m / 2 ^ 149) (unitsOfMag (cbrtMag m) / 2 ^ 149) := by
  have hpos (k : ℕ) : (0 : ℚ) ≤ unitsOfMag k / 2 ^ 149 := by positivity
  rcases cbrtMag_cases h with hm | hm <;> rw [hm]
  · refine .inl ⟨(cube_le_value_iff _ _).2 ((le_cbrtCandidates_fst_iff h).1 le_rfl), fun y _ hlt => ?_⟩
    have hy := value_of_nonneg ((hpos _).trans hlt.le)
    rw [hy, unitsOfMag_div_lt_iff] at hlt
    rw [hy, ← not_le, cube_le_value_iff, ← le_cbrtCandidates_fst_iff h]
    exact hlt.not_ge
  · refine .inr ⟨(value_le_cube_iff _ _).2 ((cbrtCandidates_snd_le_iff h).1 le_rfl), fun y _ hlt => ?_⟩
    rcases lt_or_ge (value y) 0 with hneg | hnonneg
    · exact (Odd.pow_neg (by decide) hneg).trans_le (hpos m)
    · have hy := value_of_nonneg hnonneg
      rw [hy, unitsOfMag_div_lt_iff] at hlt
      rw [hy, ← not_le, value_le_cube_iff, ← cbrtCandidates_snd_le_iff h]
      exact hlt.not_ge

theorem bracketsCubeRoot_fcbrt {x : Word} (h : IsFinite x) :
    BracketsCubeRoot (value x) (value (fcbrt x)) := by
  have hmag := bracketsCubeRoot_cbrtMag ((isFinite_iff_mag_lt x).1 h)
  have hnan := not_isNaN_of_isFinite h
  rw [value_eq_signFactor_mul x, value_eq_signFactor_mul (fcbrt x), signBit_fcbrt hnan, mag_fcbrt hnan]
  cases signBit x
  · simpa [signFactor] using hmag
  · simpa [signFactor] using hmag.neg

/-- Where a value's cube is a value other than zero, so are the magnitudes', and the signs agree. -/
theorem signBit_and_units_of_cube_eq {x y : Word} (hcube : value y ^ 3 = value x) (hne : value x ≠ 0) :
    signBit x = signBit y ∧ unitsOfMag (mag y) ^ 3 = unitsOfMag (mag x) * 2 ^ 298 := by
  have hx : (0 : ℚ) ≤ unitsOfMag (mag x) / 2 ^ 149 := by positivity
  have hy : (0 : ℚ) ≤ (unitsOfMag (mag y) / 2 ^ 149) ^ 3 := by positivity
  have hfactor : (signFactor (signBit y) : ℚ) ≠ 0 := Int.cast_ne_zero.2 (signFactor_ne_zero _)
  rw [value_eq_signFactor_mul, value_eq_signFactor_mul x, mul_pow, ← Int.cast_pow,
    signFactor_pow_three] at hcube
  by_cases hs : signBit x = signBit y
  · rw [hs] at hcube
    have hmag := mul_left_cancel₀ hfactor hcube
    exact ⟨hs, ((cube_le_value_iff _ _).1 hmag.le).antisymm ((value_le_cube_iff _ _).1 hmag.ge)⟩
  · rw [signFactor_of_ne hs, Int.cast_neg, neg_mul_comm] at hcube
    have hmag := mul_left_cancel₀ hfactor hcube
    have hzero : (unitsOfMag (mag x) / 2 ^ 149 : ℚ) = 0 := by linarith
    exact absurd (by rw [value_eq_signFactor_mul, hzero, mul_zero]) hne

/-- Settles O56: all follows from what the two candidates are (`cbrtMag`). -/
theorem cubeRootProperties : Obligations.CubeRootProperties := by
  refine ⟨fun x y hx hy hcube hne => ?_, by decide, by decide, by decide, by decide,
    fun x h => if_pos ((isNaN_iff x).2 h), fun x h => fcbrt_negated h, fun a b h => fcbrt_mono h,
    fun x h => ⟨isFinite_fcbrt h, bracketsCubeRoot_fcbrt h⟩⟩
  obtain ⟨hsign, hunits⟩ := signBit_and_units_of_cube_eq hcube hne
  rw [fcbrt_eq (not_isNaN_of_isFinite hx), cbrtMag_of_cube_eq ((isFinite_iff_mag_lt x).1 hx) hunits, hsign,
    pack_signBit_mag]

/-! ### Cosine and sine (R122, R123) -/

theorem unitCandidates_le (x : ℕ) :
    (unitCandidates x).1 ≤ mag one ∧ (unitCandidates x).2 ≤ mag one :=
  ⟨Nat.min_le_right _ _, Nat.min_le_right _ _⟩

theorem sinCandidates_le (m : ℕ) : (sinCandidates m).1 ≤ mag one ∧ (sinCandidates m).2 ≤ mag one := by
  have hone : mag one = 0x3F800000 := by decide
  unfold sinCandidates
  split
  · dsimp only
    omega
  · exact unitCandidates_le _

theorem mag_fcos_le {x : Word} (h : IsFinite x) : mag (fcos x) ≤ mag one := by
  have hlt : mag one < 2 ^ 31 := mag_lt _
  cases hz : isZero x
  · obtain ⟨hfst, hsnd⟩ := unitCandidates_le (cosApprox (unitsOfMag (mag x))).natAbs
    rcases fcos_candidates ((isFinite_iff x).2 h) hz with hc | hc <;> rw [hc, mag_pack]
    · exact hfst
    · exact hfst.trans_lt hlt
    · exact hsnd
    · exact hsnd.trans_lt hlt
  · simp [fcos, (isFinite_iff x).2 h, hz]

theorem mag_fsin_le {x : Word} (h : IsFinite x) : mag (fsin x) ≤ mag one := by
  have hlt : mag one < 2 ^ 31 := mag_lt _
  cases hz : isZero x
  · obtain ⟨hfst, hsnd⟩ := sinCandidates_le (mag x)
    rcases fsin_candidates ((isFinite_iff x).2 h) hz with hc | hc | ⟨-, hc⟩ <;> rw [hc, mag_pack]
    · exact hfst
    · exact hfst.trans_lt hlt
    · exact hsnd
    · exact hsnd.trans_lt hlt
    · exact Nat.zero_le _
    · decide
  · simp [fsin, (isFinite_iff x).2 h, hz, of_decide_eq_true hz]

theorem fcos_of_not_isFinite {x : Word} (h : ¬ IsFinite x) : fcos x = cNaN :=
  if_pos (by rw [Bool.eq_false_iff.2 (mt (isFinite_iff x).1 h)]; rfl)

theorem fsin_of_not_isFinite {x : Word} (h : ¬ IsFinite x) : fsin x = cNaN :=
  if_pos (by rw [Bool.eq_false_iff.2 (mt (isFinite_iff x).1 h)]; rfl)

theorem fabs_eq_pack (x : Word) : fabs x = pack false (mag x) := by
  apply BitVec.eq_of_toNat_eq
  rw [toNat_pack (mag_lt x), fabs, BitVec.toNat_and]
  exact Nat.and_two_pow_sub_one_eq_mod _ 31

theorem fabs_negated (x : Word) : fabs (negated x) = fabs x := by
  rw [fabs_eq_pack, fabs_eq_pack, mag_negated]

/-- A magnitude of at most 1.0 is that of a number in range. -/
theorem inRange_of_mag_le_one {r : Word} (h : mag r ≤ mag one) :
    ¬ IsNaN r ∧ fle (fabs r) 0x3F800000#32 = true := by
  have hone : mag one < infMag := by decide
  have hnan : ¬ IsNaN r := by
    rw [isNaN_iff_infMag_lt]
    omega
  refine ⟨hnan, ?_⟩
  rw [fabs_eq_pack, fle_iff, isNaN_pack_iff (mag_lt r), isNaN_iff_infMag_lt, orderKey,
    signBit_pack (mag_lt r), mag_pack (mag_lt r)]
  exact ⟨by omega, by decide, Int.ofNat_le.2 h⟩

theorem fcos_negated (x : Word) : fcos (negated x) = fcos x := by
  rw [fcos, isFinite_negated_eq, isZero_negated_eq, mag_negated, fabs_negated, fcos]

/-- Both candidates, and the zero of free sign, follow the sign of the argument. -/
theorem fsin_negated {x : Word} (h : IsFinite x) : fsin (negated x) = negated (fsin x) := by
  have hlt : mag one < 2 ^ 31 := mag_lt _
  obtain ⟨hfst, hsnd⟩ := sinCandidates_le (mag x)
  have hfin : isFinite x = true := (isFinite_iff x).2 h
  unfold fsin
  rw [isFinite_negated_eq, isZero_negated_eq, mag_negated, fabs_negated, signBit_negated, hfin]
  dsimp only
  cases isZero x
  · simp only [Bool.not_true, Bool.false_eq_true, if_false, Bool.not_bne]
    split
    · rw [negated_pack (hsnd.trans_lt hlt)]
    · rw [negated_pack (hfst.trans_lt hlt)]
  · rfl

/-- Settles O57: both candidates are in range, and the choice goes by the magnitude. -/
theorem cosineAndSineProperties : Obligations.CosineAndSineProperties := by
  refine ⟨by decide, by decide, by decide, by decide, fun x h => ?_, fcos_negated, fun x h => fsin_negated h,
    fun x h => ⟨fcos_of_not_isFinite h, fsin_of_not_isFinite h⟩⟩
  obtain ⟨hcos, hcos'⟩ := inRange_of_mag_le_one (mag_fcos_le h)
  obtain ⟨hsin, hsin'⟩ := inRange_of_mag_le_one (mag_fsin_le h)
  exact ⟨hcos, hcos', hsin, hsin'⟩

/-! ### Binary logarithm (R124) -/

theorem wholeMag_exact {k : ℕ} (h : k ≤ 149) :
    wholeMag k < infMag ∧ unitsOfMag (wholeMag k) = k * 2 ^ 149 :=
  unitsOfMag_roundNearest one_pos (mul_one _).symm (h.trans (by decide))
    ((Nat.mul_le_mul_right _ h).trans_lt (by decide +kernel))

/-- The sign and the units of a power of two. -/
theorem units_of_value_eq_pow {x : Word} {e : ℕ} (h : value x = 2 ^ ((e : ℤ) - 149)) :
    signBit x = false ∧ unitsOfMag (mag x) = 2 ^ e := by
  have hpos : 0 < value x := by
    rw [h]
    positivity
  refine ⟨signBit_eq_false_of_value_pos hpos, ?_⟩
  rw [value_of_nonneg hpos.le, zpow_sub₀ two_ne_zero, zpow_natCast] at h
  exact_mod_cast (div_left_inj' (by positivity)).1 h

theorem flog2_of_units_eq_pow {x : Word} {e : ℕ} (h : IsFinite x) (hsign : signBit x = false)
    (hunits : unitsOfMag (mag x) = 2 ^ e) :
    flog2 x = pack (decide ((e : ℤ) - 149 < 0)) (wholeMag ((e : ℤ) - 149).natAbs) := by
  have hzero : isZero x = false := decide_eq_false fun h0 => by
    rw [h0, unitsOfMag_zero] at hunits
    exact (Nat.two_pow_pos e).ne hunits
  simp only [flog2, isNaN_eq_false_of_isFinite h, hzero, hsign, isInf_eq_false_of_isFinite h, hunits,
    Nat.log2_two_pow, Bool.false_eq_true, if_false, if_true]

theorem flog2_of_signBit {x : Word} (h : signBit x = true) (hne : x ≠ negZero) : flog2 x = cNaN := by
  have hzero : isZero x = false := decide_eq_false fun h0 => hne (eq_of_signBit_of_mag h h0)
  rw [flog2, hzero, h]
  split <;> rfl

/-- Settles O58: at a power of two the exponent is the result, and it is a binary32 value. -/
theorem logarithmExactValues : Obligations.LogarithmExactValues := by
  refine ⟨fun k x hlow hhigh hfin hvalue => ?_, by decide, by decide, fun x => flog2_of_signBit, by decide,
    fun x h => if_pos ((isNaN_iff x).2 h)⟩
  obtain ⟨e, rfl⟩ : ∃ e : ℕ, k = e - 149 := ⟨(k + 149).toNat, by omega⟩
  obtain ⟨hsign, hunits⟩ := units_of_value_eq_pow hvalue
  obtain ⟨hwhole, hexact⟩ := wholeMag_exact (k := ((e : ℤ) - 149).natAbs) (by omega)
  rw [flog2_of_units_eq_pow hfin hsign hunits]
  refine ⟨isFinite_pack hwhole, ?_, fun hk => ?_⟩
  · rw [value_pack (hwhole.trans infMag_lt), hexact, cast_eq_signFactor_mul ((e : ℤ) - 149)]
    push_cast
    ring
  · rw [hk]
    decide

/-! ### Powers of two (R125) -/

theorem fexp2_of_whole {x : Word} {k : ℤ} (h : IsFinite x) (hunits : units x = k * 2 ^ 149)
    (hlow : -150 < k) (hhigh : k < 128) :
    fexp2 x = pack false (roundNearest (2 ^ (k + 149).toNat) 1) := by
  have hdiv : k * 2 ^ 149 / 2 ^ 149 = k := Int.mul_ediv_cancel _ (by positivity)
  simp only [fexp2, isNaN_eq_false_of_isFinite h, isInf_eq_false_of_isFinite h, hunits, Bool.false_eq_true,
    if_false]
  rw [if_neg (by omega), if_neg (by omega), if_pos (by omega), hdiv]

theorem fexp2_of_isInf {x : Word} (h : IsInf x) : fexp2 x = if signBit x then posZero else posInf := by
  rw [fexp2, isNaN_eq_false_of_isInf h, (isInf_iff x).2 h]
  rfl

theorem units_128 : units 0x43000000#32 = 128 * 2 ^ 149 := by decide +kernel

theorem units_minus_150 : units 0xC3160000#32 = -(150 * 2 ^ 149) := by decide +kernel

theorem fexp2_of_large {x : Word} (h : fle 0x43000000#32 x = true) : fexp2 x = posInf := by
  obtain ⟨-, hnan, hle⟩ := fle_iff.1 h
  rcases isFinite_or_isInf hnan with hfin | hinf
  · have hunits := units_le_of_orderKey_le hle
    rw [units_128] at hunits
    simp only [fexp2, isNaN_eq_false_of_isFinite hfin, isInf_eq_false_of_isFinite hfin, if_pos hunits,
      Bool.false_eq_true, if_false]
  · rw [fexp2_of_isInf hinf]
    rw [orderKey_of_isInf hinf] at hle
    cases hs : signBit x
    · rfl
    · rw [hs] at hle
      exact absurd hle (by decide)

theorem fexp2_of_small {x : Word} (h : fle x 0xC3160000#32 = true) : fexp2 x = posZero := by
  obtain ⟨hnan, -, hle⟩ := fle_iff.1 h
  rcases isFinite_or_isInf hnan with hfin | hinf
  · have hunits := units_le_of_orderKey_le hle
    rw [units_minus_150] at hunits
    have hnot : ¬ 128 * 2 ^ 149 ≤ units x := by omega
    simp only [fexp2, isNaN_eq_false_of_isFinite hfin, isInf_eq_false_of_isFinite hfin, if_neg hnot,
      if_pos hunits, Bool.false_eq_true, if_false]
  · rw [fexp2_of_isInf hinf]
    rw [orderKey_of_isInf hinf] at hle
    cases hs : signBit x
    · rw [hs] at hle
      exact absurd hle (by decide)
    · rfl

/-- The answer to an argument that is no NaN has the sign bit 0 and is no NaN. -/
theorem fexp2_eq_pack {x : Word} (h : ¬ IsNaN x) : ∃ m ≤ infMag, fexp2 x = pack false m := by
  have hinf : posInf = pack false infMag := by decide
  have hzero : posZero = pack false 0 := by decide
  rw [fexp2, if_neg (mt (isNaN_iff x).1 h), hinf, hzero]
  dsimp only
  split
  · split
    · exact ⟨0, Nat.zero_le _, rfl⟩
    · exact ⟨infMag, le_rfl, rfl⟩
  · split
    · exact ⟨infMag, le_rfl, rfl⟩
    · split
      · exact ⟨0, Nat.zero_le _, rfl⟩
      · split
        · exact ⟨_, roundNearest_le _ _, rfl⟩
        · split
          · exact ⟨_, roundUp_le _ _, rfl⟩
          · exact ⟨_, (roundDown_lt _ _).le, rfl⟩

/-- Settles O59: a whole argument gives a power on the scale; every answer is packed with sign 0. -/
theorem powerOfTwoExactValues : Obligations.PowerOfTwoExactValues := by
  refine ⟨fun k x hlow hhigh hfin hvalue => ?_, fun x => fexp2_of_large, fun x => fexp2_of_small,
    fun x h => ?_, fun x h => if_pos ((isNaN_iff x).2 h)⟩
  · have hunits : units x = k * 2 ^ 149 := by
      rw [value_eq, div_eq_iff (by positivity)] at hvalue
      exact_mod_cast hvalue
    obtain ⟨e, rfl⟩ : ∃ e : ℕ, k = e - 149 := ⟨(k + 149).toNat, by omega⟩
    rw [fexp2_of_whole hfin hunits (by omega) (by omega), sub_add_cancel, Int.toNat_natCast]
    obtain ⟨hround, hexact⟩ := unitsOfMag_roundNearest (num := 2 ^ e) (t := 1) (j := e) one_pos (by ring)
      (by decide) (by rw [one_mul, Nat.pow_lt_pow_iff_right (by decide)]; omega)
    refine ⟨isFinite_pack hround, ?_⟩
    rw [value_pack (hround.trans infMag_lt), hexact, zpow_sub₀ two_ne_zero, zpow_natCast]
    simp [signFactor]
  · obtain ⟨m, hm, hx⟩ := fexp2_eq_pack h
    rw [hx]
    exact ⟨signBit_pack (hm.trans_lt infMag_lt), not_isNaN_pack hm⟩

/-! ### NaN results (R113) -/

/-- The word is no NaN but the canonical one. -/
def NoOtherNaN (r : Word) : Prop := IsNaN r → r = cNaN

theorem noOtherNaN_cNaN : NoOtherNaN cNaN := fun _ => rfl

theorem noOtherNaN_of_not_isNaN {r : Word} (h : ¬ IsNaN r) : NoOtherNaN r := fun hr => absurd hr h

theorem noOtherNaN_of_isNaN_ne_true {r : Word} (h : ¬ isNaN r = true) : NoOtherNaN r :=
  noOtherNaN_of_not_isNaN (mt (isNaN_iff r).2 h)

theorem noOtherNaN_pack {neg : Bool} {m : ℕ} (h : m ≤ infMag) : NoOtherNaN (pack neg m) :=
  noOtherNaN_of_not_isNaN (not_isNaN_pack h)

theorem noOtherNaN_fadd (a b : Word) : NoOtherNaN (fadd a b) := by
  unfold fadd
  split
  case isTrue => exact noOtherNaN_cNaN
  case isFalse hnan =>
    obtain ⟨ha, hb⟩ := not_or.1 (mt Bool.or_eq_true_iff.2 hnan)
    split
    · split
      · exact noOtherNaN_cNaN
      · exact noOtherNaN_of_isNaN_ne_true ha
    · split
      · exact noOtherNaN_of_isNaN_ne_true hb
      · dsimp only
        split
        · split <;> exact noOtherNaN_of_isNaN_ne_true (by decide)
        · exact noOtherNaN_pack (roundNearest_le _ _)

theorem noOtherNaN_fmul (a b : Word) : NoOtherNaN (fmul a b) := by
  unfold fmul
  split
  · exact noOtherNaN_cNaN
  · split
    · exact noOtherNaN_cNaN
    · split
      · exact noOtherNaN_pack le_rfl
      · exact noOtherNaN_pack (roundNearest_le _ _)

theorem noOtherNaN_fdiv (a b : Word) : NoOtherNaN (fdiv a b) := by
  unfold fdiv
  split
  · exact noOtherNaN_cNaN
  · split
    · exact noOtherNaN_cNaN
    · split
      · exact noOtherNaN_pack le_rfl
      · split
        · exact noOtherNaN_pack (Nat.zero_le _)
        · exact noOtherNaN_pack (roundNearest_le _ _)

theorem noOtherNaN_fsqrt (a : Word) : NoOtherNaN (fsqrt a) := by
  unfold fsqrt
  split
  case isTrue => exact noOtherNaN_cNaN
  case isFalse hnan =>
    split
    · exact noOtherNaN_of_isNaN_ne_true hnan
    · split
      · exact noOtherNaN_cNaN
      · split
        · exact noOtherNaN_of_isNaN_ne_true hnan
        · exact noOtherNaN_pack (roundNearest_le _ _)

theorem noOtherNaN_fcos (x : Word) : NoOtherNaN (fcos x) := by
  by_cases h : IsFinite x
  · exact noOtherNaN_of_not_isNaN (inRange_of_mag_le_one (mag_fcos_le h)).1
  · rw [fcos_of_not_isFinite h]
    exact noOtherNaN_cNaN

theorem noOtherNaN_fsin (x : Word) : NoOtherNaN (fsin x) := by
  by_cases h : IsFinite x
  · exact noOtherNaN_of_not_isNaN (inRange_of_mag_le_one (mag_fsin_le h)).1
  · rw [fsin_of_not_isFinite h]
    exact noOtherNaN_cNaN

/-- Both candidates of the logarithm are brackets, so neither is a NaN. -/
theorem noOtherNaN_logCandidates (u : ℕ) :
    NoOtherNaN (logCandidates u).1 ∧ NoOtherNaN (logCandidates u).2 := by
  have hdown (num den : ℕ) := (roundDown_lt num den).le
  unfold logCandidates
  dsimp only
  split
  · exact ⟨noOtherNaN_pack (hdown _ _), noOtherNaN_pack (roundUp_le _ _)⟩
  · exact ⟨noOtherNaN_pack (roundUp_le _ _), noOtherNaN_pack (hdown _ _)⟩

theorem noOtherNaN_flog2 (x : Word) : NoOtherNaN (flog2 x) := by
  unfold flog2
  split
  · exact noOtherNaN_cNaN
  · split
    · exact noOtherNaN_of_isNaN_ne_true (by decide)
    · split
      · exact noOtherNaN_cNaN
      · split
        · exact noOtherNaN_of_isNaN_ne_true (by decide)
        · dsimp only
          obtain ⟨hfst, hsnd⟩ := noOtherNaN_logCandidates (unitsOfMag (mag x))
          split
          · exact noOtherNaN_pack (roundNearest_le _ _)
          · split
            · exact hsnd
            · exact hfst

theorem noOtherNaN_fexp2 (x : Word) : NoOtherNaN (fexp2 x) := by
  by_cases h : IsNaN x
  · rw [fexp2, if_pos ((isNaN_iff x).2 h)]
    exact noOtherNaN_cNaN
  · obtain ⟨m, hm, hx⟩ := fexp2_eq_pack h
    rw [hx]
    exact noOtherNaN_pack hm

theorem noOtherNaN_fcbrt (x : Word) : NoOtherNaN (fcbrt x) := by
  by_cases h : IsNaN x
  · rw [fcbrt, if_pos ((isNaN_iff x).2 h)]
    exact noOtherNaN_cNaN
  · exact noOtherNaN_of_not_isNaN (not_isNaN_fcbrt h)

/-- Settles O54, operation by operation. -/
theorem naNResultsAreCanonical : Obligations.NaNResultsAreCanonical := fun a b =>
  ⟨noOtherNaN_fadd a b, noOtherNaN_fadd a (fneg b), noOtherNaN_fmul a b, noOtherNaN_fdiv a b,
    noOtherNaN_fsqrt a, noOtherNaN_fcos a, noOtherNaN_fsin a, noOtherNaN_flog2 a, noOtherNaN_fexp2 a,
    noOtherNaN_fcbrt a⟩

end Sys2Proof.Machine
end

-- The statements of `spec/40_numerics.md`: the order of a sum, for the ramps (R116, R121).
section
/-! PROOFS. An addition of finite words moves along the order keys as the exact sum does
(`orderKey_fadd`, `roundKey_mono`), so a sum does not move against an operand's sign, and adding a zero
keeps a word that is no zero. -/

namespace Sys2Proof.Machine

open Sys2Proof.Claim

/-! ### The order of a sum (R116, R121) -/

theorem roundNearest_mono {num num' den : ℕ} (hd : 0 < den) (h : num ≤ num') :
    roundNearest num den ≤ roundNearest num' den :=
  min_le_min_right infMag (nearestUncut_mono hd h)

/-- The order key of a whole number of units rounded to a word. -/
def roundKey (x : ℤ) : ℤ :=
  if x < 0 then -(roundNearest x.natAbs 1 : ℤ) else roundNearest x.natAbs 1

/-- Rounding keeps the order also across zero. -/
theorem roundKey_mono {x y : ℤ} (h : x ≤ y) : roundKey x ≤ roundKey y := by
  unfold roundKey
  split <;> split
  case isTrue.isTrue =>
    exact neg_le_neg (Nat.cast_le.2 (roundNearest_mono one_pos (by omega)))
  case isTrue.isFalse => omega
  case isFalse.isTrue => omega
  case isFalse.isFalse => exact Nat.cast_le.2 (roundNearest_mono one_pos (by omega))

theorem orderKey_pack {neg : Bool} {m : ℕ} (h : m < 2 ^ 31) :
    orderKey (pack neg m) = if neg then -(m : ℤ) else m := by
  rw [orderKey, signBit_pack h, mag_pack h]

theorem natAbs_units (a : Word) : (units a).natAbs = unitsOfMag (mag a) := by
  unfold units
  split <;> omega

/-- A finite word is its own rounding. -/
theorem roundKey_units {a : Word} (h : IsFinite a) : roundKey (units a) = orderKey a := by
  have hround : roundNearest (units a).natAbs 1 = mag a := by
    rw [natAbs_units, ← Nat.mul_one (unitsOfMag (mag a))]
    exact roundNearest_exact ((isFinite_iff_mag_lt a).1 h).le one_pos
  have hzero := unitsOfMag_eq_zero_iff (m := mag a)
  rw [roundKey, hround]
  unfold units orderKey
  split <;> split <;> omega

/-- The order key of a sum of finite words is that of the exact sum rounded. -/
theorem orderKey_fadd {a b : Word} (ha : IsFinite a) (hb : IsFinite b) :
    orderKey (fadd a b) = roundKey (units a + units b) := by
  rw [fadd_of_isFinite ha hb]
  by_cases hsum : units a + units b = 0
  · rw [if_pos hsum, hsum]
    split <;> decide
  · rw [if_neg hsum, orderKey_pack ((roundNearest_le _ _).trans_lt infMag_lt), roundKey]
    simp only [decide_eq_true_eq]

theorem not_isNaN_fadd {a b : Word} (ha : IsFinite a) (hb : IsFinite b) : ¬ IsNaN (fadd a b) := by
  rw [fadd_of_isFinite ha hb]
  split
  · split <;> exact fun hnan => absurd ((isNaN_iff _).2 hnan) (by decide)
  · exact not_isNaN_pack (roundNearest_le _ _)

theorem value_nonneg_iff (a : Word) : 0 ≤ value a ↔ 0 ≤ units a := by
  rw [value_eq, le_div_iff₀ (by positivity), zero_mul, Int.cast_nonneg_iff]

theorem value_nonpos_iff (a : Word) : value a ≤ 0 ↔ units a ≤ 0 := by
  rw [value_eq, div_le_iff₀ (by positivity), zero_mul, Int.cast_nonpos]

/-- Adding what is not negative does not go down. -/
theorem fle_fadd {a b : Word} (ha : IsFinite a) (hb : IsFinite b) (h : 0 ≤ value b) :
    fle a (fadd a b) = true := by
  refine fle_iff.2 ⟨not_isNaN_of_isFinite ha, not_isNaN_fadd ha hb, ?_⟩
  rw [value_nonneg_iff] at h
  rw [orderKey_fadd ha hb, ← roundKey_units ha]
  exact roundKey_mono (by omega)

/-- Adding what is not positive does not go up. -/
theorem fadd_fle {a b : Word} (ha : IsFinite a) (hb : IsFinite b) (h : value b ≤ 0) :
    fle (fadd a b) a = true := by
  refine fle_iff.2 ⟨not_isNaN_fadd ha hb, not_isNaN_of_isFinite ha, ?_⟩
  rw [value_nonpos_iff] at h
  rw [orderKey_fadd ha hb, ← roundKey_units ha]
  exact roundKey_mono (by omega)

/-! ### Adding a zero (R116) -/

theorem natAbs_orderKey (a : Word) : (orderKey a).natAbs = mag a := by
  unfold orderKey
  split <;> omega

theorem orderKey_neg_iff (a : Word) : orderKey a < 0 ↔ signBit a = true ∧ mag a ≠ 0 := by
  unfold orderKey
  split <;> simp [*, Nat.pos_iff_ne_zero]

/-- Two words with one order key are the same, or both are zeros. -/
theorem eq_of_orderKey_eq {a b : Word} (h : orderKey a = orderKey b) (hne : value b ≠ 0) : a = b := by
  have hmag : mag a = mag b := by rw [← natAbs_orderKey, h, natAbs_orderKey]
  have hb : mag b ≠ 0 := mt (value_eq_zero_iff b).2 hne
  have hneg : orderKey a < 0 ↔ orderKey b < 0 := by rw [h]
  rw [orderKey_neg_iff, orderKey_neg_iff, and_iff_left (hmag ▸ hb), and_iff_left hb,
    ← Bool.eq_iff_iff] at hneg
  exact eq_of_signBit_of_mag hneg hmag

/-- Adding a zero keeps a finite word that is no zero. -/
theorem fadd_of_value_eq_zero {a b : Word} (ha : IsFinite a) (hne : value a ≠ 0) (hb : IsFinite b)
    (hzero : value b = 0) : fadd a b = a := by
  have hunits : units b = 0 :=
    le_antisymm ((value_nonpos_iff b).1 hzero.le) ((value_nonneg_iff b).1 hzero.ge)
  refine eq_of_orderKey_eq ?_ hne
  rw [orderKey_fadd ha hb, hunits, add_zero, roundKey_units ha]

theorem eq_posZero_or_eq_negZero {a : Word} (h : value a = 0) : a = posZero ∨ a = negZero := by
  have hmag := (value_eq_zero_iff a).1 h
  cases hs : signBit a
  · exact .inl (eq_of_signBit_of_mag hs hmag)
  · exact .inr (eq_of_signBit_of_mag hs hmag)

/-- Adding `+0` keeps every word but `-0` and the NaNs that are not canonical. -/
theorem fadd_posZero (a : Word) :
    fadd a posZero = if isNaN a then cNaN else if a = negZero then posZero else a := by
  have hfin : IsFinite posZero := (isFinite_iff _).1 (by decide)
  have hzero : value posZero = 0 := (value_eq_zero_iff _).2 (by decide)
  by_cases hnan : IsNaN a
  · rw [if_pos ((isNaN_iff a).2 hnan), fadd_of_isNaN (.inl hnan)]
  · rw [if_neg (mt (isNaN_iff a).1 hnan)]
    rcases isFinite_or_isInf hnan with ha | ha
    · by_cases hvalue : value a = 0
      · obtain rfl | rfl := eq_posZero_or_eq_negZero hvalue <;> decide
      · have hne : a ≠ negZero := by
          rintro rfl
          exact hvalue ((value_eq_zero_iff _).2 (by decide))
        rw [if_neg hne, fadd_of_value_eq_zero ha hvalue hfin hzero]
    · have hne : a ≠ negZero := by
        rintro rfl
        exact absurd ((isInf_iff _).2 ha) (by decide)
      rw [if_neg hne, (fadd_isInf ha (.inl hfin)).1]

end Sys2Proof.Machine
end

-- The statements of `spec/42_linear_ramp.md`, with the `*.init` commands and the reads of the other units.
section
/-! PROOFS. O24 to O28 and O40 to O42. A command on one element is its row of the opcode map and its
operation on the element (`linCommand_intro` and its like for the other units); what an advance amounts
to is what the addition of its increment does (`fle_fadd`, `fadd_fle`, `fadd_posZero`). -/

namespace Sys2Proof.Machine

open Sys2Proof.Claim

/-! ### Commands on one element of a unit (R80, R84, R90) -/

/-- A row of the opcode map with an index into LIN is a `LinCommand`, with what its meaning does to the
element. -/
theorem linCommand_intro {op : BitVec 8} {i : BitVec 8 → Word → Instr}
    {eff : Word → LinUnit → LinUnit × Word} (hop : ∀ n arg, decodeOp op n arg = .ok (i n arg))
    (hexec : ∀ n arg s, exec (i n arg) s = onLin n (eff arg) s) : LinCommand op i eff := by
  intro n arg s
  refine ⟨(decode_cmdWord n op arg).trans (hop n arg), fun u hu => ?_, fun hlen => ?_⟩
  · exact (hexec n arg s).trans (onLin_some hu)
  · exact (hexec n arg s).trans (onLin_none (List.getElem?_eq_none hlen))

/-- As `linCommand_intro`, for LAG. -/
theorem lagCommand_intro {op : BitVec 8} {i : BitVec 8 → Word → Instr}
    {eff : Word → LagUnit → LagUnit × Word} (hop : ∀ n arg, decodeOp op n arg = .ok (i n arg))
    (hexec : ∀ n arg s, exec (i n arg) s = onLag n (eff arg) s) : LagCommand op i eff := by
  intro n arg s
  refine ⟨(decode_cmdWord n op arg).trans (hop n arg), fun u hu => ?_, fun hlen => ?_⟩
  · exact (hexec n arg s).trans (onLag_some hu)
  · exact (hexec n arg s).trans (onLag_none (List.getElem?_eq_none hlen))

/-- As `linCommand_intro`, for OSC. -/
theorem oscCommand_intro {op : BitVec 8} {i : BitVec 8 → Word → Instr}
    {eff : Word → OscUnit → OscUnit × Word} (hop : ∀ n arg, decodeOp op n arg = .ok (i n arg))
    (hexec : ∀ n arg s, exec (i n arg) s = onOsc n (eff arg) s) : OscCommand op i eff := by
  intro n arg s
  refine ⟨(decode_cmdWord n op arg).trans (hop n arg), fun u hu => ?_, fun hlen => ?_⟩
  · exact (hexec n arg s).trans (onOsc_some hu)
  · exact (hexec n arg s).trans (onOsc_none (List.getElem?_eq_none hlen))

/-- As `linCommand_intro`, for the commands of NZ that leave `PRBS` alone; those read no draw. -/
theorem nzCommand_id_intro {op : BitVec 8} {i : BitVec 8 → Word → Instr}
    {eff : Word → NzUnit → NzUnit × Word} (hop : ∀ n arg, decodeOp op n arg = .ok (i n arg))
    (hexec : ∀ n arg s, exec (i n arg) s = onNz n (eff arg) s) :
    NzCommand op i id fun _ => eff := by
  intro n arg s
  refine ⟨(decode_cmdWord n op arg).trans (hop n arg), fun z hz => ?_, fun hlen => ?_⟩
  · exact (hexec n arg s).trans (onNz_some hz)
  · exact (hexec n arg s).trans (onNz_none (List.getElem?_eq_none hlen))

/-- Settles O24: one row of the opcode map for each unit. -/
theorem initCommands : Obligations.InitCommands := by
  refine ⟨?lin, ?lag, ?osc, ?nz⟩
  case lin => exact linCommand_intro (fun _ _ => rfl) fun _ _ _ => rfl
  case lag => exact lagCommand_intro (fun _ _ => rfl) fun _ _ _ => rfl
  case osc => exact oscCommand_intro (fun _ _ => rfl) fun _ _ _ => rfl
  case nz => exact nzCommand_id_intro (fun _ _ => rfl) fun _ _ _ => rfl

/-- Settles O25: two rows for each unit that has reads; each sets its element to what it was. -/
theorem readCommands : Obligations.ReadCommands := by
  refine ⟨?lin_cur, ?lin_tgt, ?lag_cur, ?lag_tgt, ?osc_r, ?osc_i⟩
  case lin_cur | lin_tgt => exact linCommand_intro (fun _ _ => rfl) fun _ _ _ => rfl
  case lag_cur | lag_tgt => exact lagCommand_intro (fun _ _ => rfl) fun _ _ _ => rfl
  case osc_r | osc_i => exact oscCommand_intro (fun _ _ => rfl) fun _ _ _ => rfl

/-! ### The commands of LIN (R151 to R156) -/

/-- Settles O26. -/
theorem linSetblkAndCfgCommands : Obligations.LinSetblkAndCfgCommands := by
  refine ⟨?setblk, ?cfg⟩
  case setblk => exact linCommand_intro (fun _ _ => rfl) fun _ _ _ => rfl
  case cfg => exact linCommand_intro (fun _ _ => rfl) fun _ _ _ => rfl

/-- Where `first` and `skip` are both 1, a new target is jumped to (R154). -/
theorem linSetTarget_jump {u : LinUnit} (h : u.first = true ∧ u.skip = true) (v : Word) :
    linSetTarget v u = { u with cur := v, tgt := v, inc := posZero, first := false } :=
  if_pos (Bool.and_eq_true_iff.2 h)

/-- Elsewhere a new target starts a ramp from the present value (R154). -/
theorem linSetTarget_ramp {u : LinUnit} (h : ¬(u.first = true ∧ u.skip = true)) (v : Word) :
    linSetTarget v u = { u with tgt := v, inc := fmul (fsub v u.cur) u.ibl, first := false } :=
  if_neg (mt Bool.and_eq_true_iff.1 h)

theorem linSetTarget_first (v : Word) (u : LinUnit) : (linSetTarget v u).first = false := by
  by_cases h : u.first = true ∧ u.skip = true
  · rw [linSetTarget_jump h]
  · rw [linSetTarget_ramp h]

/-- Settles O27, by the two cases of a new target. -/
theorem linSettgtCommand : Obligations.LinSettgtCommand := by
  refine linCommand_intro (fun _ _ => rfl) fun n v s => congrArg (onLin n · s) (funext fun u => ?_)
  by_cases h : u.first = true ∧ u.skip = true
  · rw [linSetTarget_jump h, if_pos h]; rfl
  · rw [linSetTarget_ramp h, if_neg h]; rfl

/-- Settles O28. -/
theorem linAdvAndSnapCommands : Obligations.LinAdvAndSnapCommands := by
  refine ⟨?adv, ?snap⟩
  case adv => exact linCommand_intro (fun _ _ => rfl) fun _ _ _ => rfl
  case snap => exact linCommand_intro (fun _ _ => rfl) fun _ _ _ => rfl

/-! ### The first-update bit (R152) -/

/-- After a command on an existing element its list holds there what the command made of it. -/
theorem respond_set_lin_getElem? {s : State} {m : Nat} {u : LinUnit} (hu : s.lin[m]? = some u)
    (u' : LinUnit) (v : Word) : (respond { s with lin := s.lin.set m u' } v).lin[m]? = some u' :=
  List.getElem?_set_self (List.getElem?_eq_some_iff.1 hu).1

theorem onLin_element {n : BitVec 8} {f : LinUnit → LinUnit × Word} {s t : State} {u u' : LinUnit}
    (h : onLin n f s = .next t) (hu : s.lin[n.toNat]? = some u) (hu' : t.lin[n.toNat]? = some u') :
    u' = (f u).1 := by
  cases (onLin_some hu).symm.trans h
  exact Option.some.inj (hu'.symm.trans (respond_set_lin_getElem? hu _ _))

/-- Settles O40: a command that does not address the element leaves it (`exec_frame`); of those that do,
only two write `first`. -/
theorem firstUpdateBitChanges : Obligations.FirstUpdateBitChanges := by
  intro i s t m u u' h hu hu'
  by_cases ha : Addresses i .lin m
  · obtain ⟨hunit, n, hinst, rfl⟩ := ha
    cases i with
    | linInit =>
      cases hinst
      rw [onLin_element h hu hu']
      exact ⟨fun _ => .inl ⟨n, rfl, rfl⟩, nofun, fun _ _ _ => rfl⟩
    | linSettgt _ v =>
      cases hinst
      rw [onLin_element h hu hu']
      exact ⟨fun _ => .inr ⟨n, v, rfl, rfl⟩, fun _ _ _ _ => linSetTarget_first v u, nofun⟩
    | linSetblk | linCfg | linAdv | linSnap | linGetcur | linGettgt =>
      cases hinst
      rw [onLin_element h hu hu']
      exact ⟨fun hne => absurd rfl hne, nofun, nofun⟩
    | _ => cases hunit
  · rw [(exec_frame h).lin m ha, hu] at hu'
    cases hu'
    refine ⟨fun hne => absurd rfl hne, ?_, ?_⟩
    · rintro n v rfl rfl
      exact absurd (addresses_inst rfl rfl) ha
    · rintro n rfl rfl
      exact absurd (addresses_inst rfl rfl) ha

/-! ### What an advance amounts to (R155, R156, R159) -/

/-- What `lin.adv` makes of its element (R155). -/
def linAdvanced (u : LinUnit) : LinUnit := { u with cur := fadd u.cur u.inc }

theorem exec_linAdv {n : BitVec 8} {s : State} {u : LinUnit} (hu : s.lin[n.toNat]? = some u) :
    exec (.linAdv n) s =
      .next (respond { s with lin := s.lin.set n.toNat (linAdvanced u) } (linAdvanced u).cur) :=
  onLin_some hu

/-- Settles O41: `fle_fadd` and `fadd_fle` on the element after the advance. -/
theorem linRampIsMonotone : Obligations.LinRampIsMonotone := by
  intro n s u hu hcur hinc
  exact ⟨_, linAdvanced u, exec_linAdv hu, respond_set_lin_getElem? hu _ _, fle_fadd hcur hinc,
    fadd_fle hcur hinc⟩

/-- What `lin.snap` makes of its element (R156). -/
def linSnapped (u : LinUnit) : LinUnit := { u with cur := u.tgt, inc := posZero }

theorem exec_linSnap {n : BitVec 8} {s : State} {u : LinUnit} (hu : s.lin[n.toNat]? = some u) :
    exec (.linSnap n) s = .next (respond { s with lin := s.lin.set n.toNat (linSnapped u) } zeroRes) :=
  onLin_some hu

/-- Settles O42: after `lin.snap` the advance adds `+0` to the target. -/
theorem snapHoldsTheTarget : Obligations.SnapHoldsTheTarget := by
  intro n s u hu
  have hu' := respond_set_lin_getElem? hu (linSnapped u) zeroRes
  refine ⟨_, _, linAdvanced (linSnapped u), exec_linSnap hu, exec_linAdv hu',
    respond_set_lin_getElem? hu' _ _, fadd_posZero u.tgt, ?_⟩
  simp [zeroRes]

end Sys2Proof.Machine
end

-- The statements of `spec/40_numerics.md`: sums and products with the operands 0 and 1.0, for the blends.
section
/-! PROOFS. A product of finite words by a zero is a zero and by `1.0` is the other factor, both exactly; so
a sum of one product of each kind is a word itself (`fadd_fmul_one_fmul_zero`). -/

namespace Sys2Proof.Machine

open Sys2Proof.Claim

/-! ### Products by 0 and by 1.0 (R117) -/

theorem isFinite_posZero : IsFinite posZero := (isFinite_iff _).1 (by decide)

theorem value_posZero : value posZero = 0 := (value_eq_zero_iff _).2 (by decide)

theorem isFinite_one : IsFinite one := (isFinite_iff _).1 (by decide)

theorem unitsOfMag_mag_one : unitsOfMag (mag one) = 2 ^ 149 := by decide +kernel

/-- The exact product by `1.0` is a binary32 value already, so rounding keeps it. -/
theorem fmul_one {a : Word} (h : IsFinite a) : fmul a one = a := by
  rw [fmul_of_isFinite h isFinite_one, unitsOfMag_mag_one,
    roundNearest_exact ((isFinite_iff_mag_lt a).1 h).le (by positivity),
    show signBit one = false by decide, Bool.xor_false, pack_signBit_mag]

theorem fmul_of_value_eq_zero {a b : Word} (ha : IsFinite a) (hb : IsFinite b) (hzero : value b = 0) :
    fmul a b = pack (signBit a ^^ signBit b) 0 := by
  have hround : roundNearest 0 (2 ^ 149) = 0 := by
    simpa [unitsOfMag_zero] using roundNearest_exact (Nat.zero_le infMag) (Nat.two_pow_pos 149)
  rw [fmul_of_isFinite ha hb, (value_eq_zero_iff b).1 hzero, unitsOfMag_zero, Nat.mul_zero, hround]

/-! ### A sum of two products, one by 0 and one by 1.0 (R116, R117) -/

theorem fadd_comm_of_isFinite {a b : Word} (ha : IsFinite a) (hb : IsFinite b) : fadd a b = fadd b a := by
  rw [fadd_of_isFinite ha hb, fadd_of_isFinite hb ha, add_comm, Bool.and_comm]

/-- The zero product adds nothing, whatever its sign. -/
theorem fadd_fmul_one_fmul_zero {a b : Word} (ha : IsFinite a) (hne : value a ≠ 0) (hb : IsFinite b) :
    fadd (fmul a one) (fmul b posZero) = a := by
  obtain ⟨hfin, hzero, -⟩ := isFinite_and_value_and_msb_pack_zero (signBit b ^^ signBit posZero)
  rw [fmul_one ha, fmul_of_value_eq_zero hb isFinite_posZero value_posZero]
  exact fadd_of_value_eq_zero ha hne hfin hzero

/-- As `fadd_fmul_one_fmul_zero`, with the zero product first. -/
theorem fadd_fmul_zero_fmul_one {a b : Word} (ha : IsFinite a) (hne : value a ≠ 0) (hb : IsFinite b) :
    fadd (fmul b posZero) (fmul a one) = a := by
  obtain ⟨hfin, -⟩ := isFinite_and_value_and_msb_pack_zero (signBit b ^^ signBit posZero)
  rw [fadd_comm_of_isFinite, fadd_fmul_one_fmul_zero ha hne hb]
  · rwa [fmul_of_value_eq_zero hb isFinite_posZero value_posZero]
  · rwa [fmul_one ha]

end Sys2Proof.Machine
end

-- The statements of `spec/43_exp_lag.md`.
section
/-! PROOFS. O29, O30 and O43. The commands are rows of the opcode map (`lagCommand_intro`); at the
coefficients 0 and 1.0 the blend of an advance is one of its two operands. -/

namespace Sys2Proof.Machine

open Sys2Proof.Claim

/-! ### The commands of LAG (R171 to R176) -/

/-- Settles O29: a row of the opcode map for each command. -/
theorem lagSetCommands : Obligations.LagSetCommands := by
  refine ⟨?setk, ?settgt, ?setimm, ?snap⟩
  case setk | settgt | setimm | snap => exact lagCommand_intro (fun _ _ => rfl) fun _ _ _ => rfl

/-- Settles O30: the response is the value that the element's `cur` becomes. -/
theorem lagAdvCommand : Obligations.LagAdvCommand :=
  lagCommand_intro (fun _ _ => rfl) fun _ _ _ => rfl

/-! ### The degenerate coefficients (R175) -/

/-- What `lag.adv` does where the value of its blend is known. -/
theorem exec_lagAdv_of_lagBlend {n : BitVec 8} {s : State} {u : LagUnit} {c : Word}
    (hu : s.lag[n.toNat]? = some u) (hc : lagBlend u = c) :
    exec (.lagAdv n) s =
      .next (respond { s with lag := s.lag.set n.toNat { u with cur := c } } c) := by
  subst hc
  exact onLag_some hu

/-- With `k = +0` the blend is the present value. -/
theorem lagBlend_of_k_zero {u : LagUnit} (hcur : IsFinite u.cur) (htgt : IsFinite u.tgt)
    (hk : u.k = posZero) (hkm : u.km = one) (hne : value u.cur ≠ 0) : lagBlend u = u.cur := by
  rw [lagBlend, hk, hkm, fadd_fmul_one_fmul_zero hcur hne htgt]

/-- With `k = 1.0` the blend is the target. -/
theorem lagBlend_of_k_one {u : LagUnit} (hcur : IsFinite u.cur) (htgt : IsFinite u.tgt)
    (hk : u.k = one) (hkm : u.km = posZero) (hne : value u.tgt ≠ 0) : lagBlend u = u.tgt := by
  rw [lagBlend, hk, hkm, fadd_fmul_zero_fmul_one htgt hne hcur]

/-- Settles O43, by the value of the blend; at `k = +0` the element is set to what it was. -/
theorem lagDegenerateCoefficients : Obligations.LagDegenerateCoefficients := by
  intro n s u hu hcur htgt
  constructor
  · intro hk hkm hne
    have hadv := exec_lagAdv_of_lagBlend hu (lagBlend_of_k_zero hcur htgt hk hkm hne)
    rwa [set_eq_self_of_getElem? hu] at hadv
  · intro hk hkm hne
    exact exec_lagAdv_of_lagBlend hu (lagBlend_of_k_one hcur htgt hk hkm hne)

end Sys2Proof.Machine
end

-- The statements of `spec/44_oscillator.md`.
section
/-! PROOFS. O31, O32 and O44. The commands are rows of the opcode map (`oscCommand_intro`); at rate zero the
rotation step takes a zero from one component and adds a zero to the other (`rotate_of_rate_zero`). -/

namespace Sys2Proof.Machine

open Sys2Proof.Claim

/-! ### The commands of OSC (R191 to R194) -/

/-- Settles O31: two rows of the opcode map; the meaning of the first has the renormalisation in it. -/
theorem oscSetCommands : Obligations.OscSetCommands := by
  refine ⟨?setrate, ?setphase⟩
  case setrate | setphase => exact oscCommand_intro (fun _ _ => rfl) fun _ _ _ => rfl

/-- Settles O32: both components of `rotate` are of the old element, and the first is the response. -/
theorem oscAdvCommand : Obligations.OscAdvCommand :=
  oscCommand_intro (fun _ _ => rfl) fun _ _ _ => rfl

/-! ### A product by the rate zero (R116, R117) -/

theorem fmul_comm_of_isFinite {a b : Word} (ha : IsFinite a) (hb : IsFinite b) : fmul a b = fmul b a := by
  rw [fmul_of_isFinite ha hb, fmul_of_isFinite hb ha, Nat.mul_comm, Bool.xor_comm]

theorem one_fmul {a : Word} (h : IsFinite a) : fmul one a = a :=
  (fmul_comm_of_isFinite isFinite_one h).trans (fmul_one h)

theorem isFinite_and_value_posZero_fmul {a : Word} (h : IsFinite a) :
    IsFinite (fmul posZero a) ∧ value (fmul posZero a) = 0 := by
  rw [fmul_comm_of_isFinite isFinite_posZero h,
    fmul_of_value_eq_zero h isFinite_posZero value_posZero]
  obtain ⟨hfin, hzero, -⟩ := isFinite_and_value_and_msb_pack_zero (signBit a ^^ signBit posZero)
  exact ⟨hfin, hzero⟩

/-- Taking a zero away keeps a finite word that is no zero, as adding one does. -/
theorem fsub_of_value_eq_zero {a b : Word} (ha : IsFinite a) (hne : value a ≠ 0) (hb : IsFinite b)
    (hzero : value b = 0) : fsub a b = a := by
  have hnegated : value (negated b) = 0 := by
    rwa [value_eq_zero_iff, mag_negated, ← value_eq_zero_iff]
  exact fadd_of_value_eq_zero ha hne (isFinite_negated hb) hnegated

/-! ### Rate zero (R194) -/

theorem rotate_of_rate_zero {u : OscUnit} (hdr : u.dr = one) (hdi : u.di = posZero)
    (hr : IsFinite u.r) (hi : IsFinite u.i) (hrne : value u.r ≠ 0) (hine : value u.i ≠ 0) :
    rotate u = (u.r, u.i) := by
  obtain ⟨hfinr, hzeror⟩ := isFinite_and_value_posZero_fmul hr
  obtain ⟨hfini, hzeroi⟩ := isFinite_and_value_posZero_fmul hi
  rw [rotate, hdr, hdi, one_fmul hr, one_fmul hi, fsub_of_value_eq_zero hr hrne hfini hzeroi,
    fadd_of_value_eq_zero hi hine hfinr hzeror]

/-- Where the rotation step gives the old point, `osc.adv` only answers. -/
theorem exec_oscAdv_of_rotate_eq {n : BitVec 8} {s : State} {u : OscUnit}
    (hu : s.osc[n.toNat]? = some u) (hrot : rotate u = (u.r, u.i)) :
    exec (.oscAdv n) s = .next (answered s u.r) := by
  have hkeeps : { u with r := (rotate u).1, i := (rotate u).2 } = u := by rw [hrot]
  have hadv : exec (.oscAdv n) s = .next (answered s (rotate u).1) := onOsc_keeps hu hkeeps
  rwa [hrot] at hadv

/-- Settles O44, by the rotation step at rate zero. -/
theorem oscAtRateZeroStandsStill : Obligations.OscAtRateZeroStandsStill :=
  fun _ _ _ hu hdr hdi hr hi hrne hine =>
    exec_oscAdv_of_rotate_eq hu (rotate_of_rate_zero hdr hdi hr hi hrne hine)

end Sys2Proof.Machine
end

-- The statements of `spec/45_amplitude_curve.md`.
section
/-! PROOFS. O38, O39 and O60. The commands are rows of the opcode map (`globalCommand_intro`); the output
clamp is a choice of three, and its bounds cut the words into the same three (`clampout_regions`). -/

namespace Sys2Proof.Machine

open Sys2Proof.Claim

/-! ### The amplitude-curve commands (R211 to R215) -/

/-- Settles O38: two rows of the opcode map; the meaning of the second reads AMP_EPS from the block. -/
theorem ampLinearCommands : Obligations.AmpLinearCommands := by
  refine ⟨?a2l, ?l2a⟩
  case a2l | l2a => exact globalCommand_intro (fun _ _ => rfl) fun _ _ => rfl

/-- Settles O39: two rows of the opcode map. -/
theorem decibelCommands : Obligations.DecibelCommands := by
  refine ⟨?a2db, ?db2a⟩
  case a2db | db2a => exact globalCommand_intro (fun _ _ => rfl) fun _ _ => rfl

/-! ### The order of words that are no NaNs (R121) -/

theorem fle_refl {a : Word} (h : ¬ IsNaN a) : fle a a = true := fle_iff.2 ⟨h, h, le_rfl⟩

theorem flt_or_fle {a b : Word} (ha : ¬ IsNaN a) (hb : ¬ IsNaN b) : flt a b = true ∨ fle b a = true :=
  (lt_or_ge (orderKey a) (orderKey b)).imp (fun h => flt_iff.2 ⟨ha, hb, h⟩) fun h => fle_iff.2 ⟨hb, ha, h⟩

theorem not_flt_of_fle {a b : Word} (h : fle a b = true) : ¬ flt b a = true := by
  obtain ⟨-, -, hle⟩ := fle_iff.1 h
  intro hflt
  obtain ⟨-, -, hlt⟩ := flt_iff.1 hflt
  exact hle.not_gt hlt

theorem fle_of_flt_of_fle {a b c : Word} (hab : flt a b = true) (hbc : fle b c = true) :
    fle a c = true := by
  obtain ⟨ha, -, hlt⟩ := flt_iff.1 hab
  obtain ⟨-, hc, hle⟩ := fle_iff.1 hbc
  exact fle_iff.2 ⟨ha, hc, hlt.le.trans hle⟩

/-! ### The output clamp (R213) -/

theorem clampout_of_fgt {v hi : Word} (h : fgt v hi = true) (lo : Word) : clampout v lo hi = hi :=
  if_pos h

theorem clampout_of_between {v lo hi : Word} (hlo : fle lo v = true) (hhi : fle v hi = true) :
    clampout v lo hi = v :=
  (if_neg (not_flt_of_fle hhi)).trans (if_pos hlo)

/-- Where neither comparison of the clamp is true, it answers the lower bound. -/
theorem clampout_of_not {v lo hi : Word} (hhi : ¬ flt hi v = true) (hlo : ¬ fle lo v = true) :
    clampout v lo hi = lo :=
  (if_neg hhi).trans (if_neg hlo)

theorem clampout_of_isNaN {v : Word} (h : IsNaN v) (lo hi : Word) : clampout v lo hi = lo := by
  refine clampout_of_not (fun hflt => ?_) fun hfle => ?_
  · obtain ⟨-, hv, -⟩ := flt_iff.1 hflt
    exact hv h
  · obtain ⟨-, hv, -⟩ := fle_iff.1 hfle
    exact hv h

theorem clampout_of_flt {v lo hi : Word} (hle : fle lo hi = true) (h : flt v lo = true) :
    clampout v lo hi = lo :=
  clampout_of_not (not_flt_of_fle (fle_of_flt_of_fle h hle)) fun hfle => not_flt_of_fle hfle h

/-- The bounds cut the words into those above, those between, and the NaNs and those below. -/
theorem clampout_regions {lo hi : Word} (hle : fle lo hi = true) (v : Word) :
    fgt v hi = true ∨ (fle lo v = true ∧ fle v hi = true) ∨ IsNaN v ∨ flt v lo = true := by
  obtain ⟨hlo, hhi, -⟩ := fle_iff.1 hle
  by_cases hv : IsNaN v
  · exact .inr (.inr (.inl hv))
  rcases flt_or_fle hhi hv with habove | hhigh
  · exact .inl habove
  rcases flt_or_fle hv hlo with hbelow | hlow
  · exact .inr (.inr (.inr hbelow))
  · exact .inr (.inl ⟨hlow, hhigh⟩)

theorem clampout_within {lo hi : Word} (hle : fle lo hi = true) (v : Word) :
    fle lo (clampout v lo hi) = true ∧ fle (clampout v lo hi) hi = true := by
  obtain ⟨hlo, hhi, -⟩ := fle_iff.1 hle
  rcases clampout_regions hle v with habove | ⟨hlow, hhigh⟩ | hnan | hbelow
  · rw [clampout_of_fgt habove]
    exact ⟨hle, fle_refl hhi⟩
  · rw [clampout_of_between hlow hhigh]
    exact ⟨hlow, hhigh⟩
  · rw [clampout_of_isNaN hnan]
    exact ⟨fle_refl hlo, hle⟩
  · rw [clampout_of_flt hle hbelow]
    exact ⟨fle_refl hlo, hle⟩

/-! ### The decibel pair (R214, R215, R312) -/

/-- A command that answers through the output clamp answers within its bounds and does nothing else. -/
theorem answered_within_of_clampout {i : Instr} {s t : State} {v lo hi : Word} (hle : fle lo hi = true)
    (hexec : exec i s = .next (answered s (clampout v lo hi))) (h : exec i s = .next t) :
    ∃ r, t = answered s r ∧ fle lo r = true ∧ fle r hi = true := by
  cases hexec.symm.trans h
  exact ⟨_, rfl, clampout_within hle v⟩

theorem exec_fnA2db (x : Word) (s : State) : exec (.fnA2db x) s = .next (answered s (ampToDb x)) := by
  obtain ⟨ha2db, -⟩ := decibelCommands
  obtain ⟨-, -, hexec⟩ := ha2db x s
  exact hexec

theorem exec_fnDb2a (x : Word) (s : State) : exec (.fnDb2a x) s = .next (answered s (dbToAmp x)) := by
  obtain ⟨-, hdb2a⟩ := decibelCommands
  obtain ⟨-, -, hexec⟩ := hdb2a x s
  exact hexec

/-- Settles O60, by the regions the bounds of the clamp cut and the answers of the two commands. -/
theorem outputClampGuardsTheDecibelPair : Obligations.OutputClampGuardsTheDecibelPair := by
  refine ⟨fun v lo hi hle => ?clamp, fun x s _ h => ?a2db, fun x s _ h => ?db2a⟩
  case clamp =>
    obtain ⟨hlow, hhigh⟩ := clampout_within hle v
    exact ⟨hlow, hhigh, fun hnan => clampout_of_isNaN hnan lo hi, fun habove => clampout_of_fgt habove lo,
      clampout_of_flt hle, clampout_of_between⟩
  case a2db => exact answered_within_of_clampout (by decide) (exec_fnA2db x s) h
  case db2a => exact answered_within_of_clampout (by decide) (exec_fnDb2a x s) h

end Sys2Proof.Machine
end

-- The statements of `spec/46_noise.md`.
section
/-! PROOFS. O33 to O35 and O45 to O47. The commands are rows of the opcode map (`nzCommand_id_intro`,
`nzCommand_draw_intro`); at the coefficients 0 and 1.0 the blend of a step is one of its two operands; a
shift of the register is undone by reading bit 31 back (`prbsUnstep`). -/

namespace Sys2Proof.Machine

open Sys2Proof.Claim

/-! ### The shift register (R231) -/

/-- The bit that goes out comes back at the top: the feedback mask has bit 31 set, and the plain shift
clears it. -/
theorem getLsbD_31_prbsStep (w : Word) : (prbsStep w).getLsbD 31 = w.getLsbD 0 := by
  rw [prbsStep]
  cases hbit : w.getLsbD 0 with
  | true => simp [prbsPoly]
  | false => simp

/-- The shift backwards: bit 31 says whether the feedback was applied, and becomes bit 0 again (R231). -/
def prbsUnstep (w : Word) : Word :=
  if w.getLsbD 31 then (w ^^^ prbsPoly) <<< 1 ||| 1#32 else w <<< 1

/-- Shifting right and back loses bit 0 only. -/
theorem ushiftRight_shiftLeft_one_or (w : Word) :
    (w >>> 1) <<< 1 ||| (if w.getLsbD 0 then 1#32 else 0#32) = w := by
  ext i hi
  cases i with
  | zero => cases hbit : w.getLsbD 0 <;> simp [← BitVec.getLsbD_eq_getElem, hbit]
  | succ i => split <;> simp [Nat.add_comm 1 i, ← BitVec.getLsbD_eq_getElem, hi]

theorem prbsUnstep_prbsStep (w : Word) : prbsUnstep (prbsStep w) = w := by
  have hback := ushiftRight_shiftLeft_one_or w
  rw [prbsUnstep, getLsbD_31_prbsStep, prbsStep]
  cases hbit : w.getLsbD 0 with
  | true => simpa only [hbit, if_true, BitVec.xor_assoc, BitVec.xor_self, BitVec.xor_zero] using hback
  | false => simpa only [hbit, Bool.false_eq_true, if_false, BitVec.or_zero] using hback

/-- An injective map of a finite type to itself is a bijection. -/
theorem prbsStep_bijective : Function.Bijective prbsStep :=
  Finite.injective_iff_bijective.1 (Function.LeftInverse.injective prbsUnstep_prbsStep)

/-- Settles O47. -/
theorem prbsStepIsABijection : Obligations.PrbsStepIsABijection :=
  ⟨fun _ => rfl, by decide, prbsStep_bijective, fun _ => prbsStep_ne_zero, by decide, by decide,
    by decide, by decide, by decide⟩

/-! ### The commands of NZ (R236 to R241) -/

theorem prbsSteps_eq_iterate (k : Nat) (w : Word) : prbsSteps k w = prbsStep^[k] w := by
  induction k generalizing w with
  | zero => rfl
  | succ k ih => exact ih (prbsStep w)

/-- As `nzCommand_id_intro`, for the commands of NZ that take their draw from `PRBS` (R230). -/
theorem nzCommand_draw_intro {op : BitVec 8} {i : BitVec 8 → Word → Instr}
    {f : Word → NzUnit → NzUnit × Word} (hop : ∀ n arg, decodeOp op n arg = .ok (i n arg))
    (hexec : ∀ n arg s, exec (i n arg) s = onNzDraw n f s) :
    NzCommand op i (fun p => prbsStep^[32] p) fun p _ => f (prbsValue p) := by
  intro n arg s
  refine ⟨(decode_cmdWord n op arg).trans (hop n arg), fun z hz => ?_, fun hlen => ?_⟩
  · rw [hexec, onNzDraw_some hz, prbsNext, prbsSteps_eq_iterate]
    rfl
  · exact (hexec n arg s).trans (onNzDraw_none (List.getElem?_eq_none hlen))

/-- Settles O33: two rows of the opcode map. -/
theorem nzRstAndSetcorrCommands : Obligations.NzRstAndSetcorrCommands := by
  refine ⟨?rst, ?setcorr⟩
  case rst | setcorr => exact nzCommand_id_intro (fun _ _ => rfl) fun _ _ _ => rfl

/-- Settles O34: the two steps are `nzFirstOrder`, the first of them with a draw. -/
theorem nzFirstOrderSteps : Obligations.NzFirstOrderSteps := by
  refine ⟨?step1, ?step1x⟩
  case step1 => exact nzCommand_draw_intro (f := nzFirstOrder) (fun _ _ => rfl) fun _ _ _ => rfl
  case step1x => exact nzCommand_id_intro (fun _ _ => rfl) fun _ _ _ => rfl

/-- Settles O35: the two steps are `nzSecondOrder`, the first of them with a draw. -/
theorem nzSecondOrderSteps : Obligations.NzSecondOrderSteps := by
  refine ⟨?step2, ?step2x⟩
  case step2 => exact nzCommand_draw_intro (f := nzSecondOrder) (fun _ _ => rfl) fun _ _ _ => rfl
  case step2x => exact nzCommand_id_intro (fun _ _ => rfl) fun _ _ _ => rfl

/-! ### Drawn and supplied (R230, R239, R241) -/

/-- A step with a draw does what the step with that draw supplied does, `PRBS` apart: both are illegal, or
both do the same to the same element. -/
theorem onNzDraw_eq_onNz_but_prbs {n : BitVec 8} {f : Word → NzUnit → NzUnit × Word} {s t tx : State}
    (h : onNzDraw n f s = .next t) (hx : onNz n (f (prbsValue (prbsNext s.prbs))) s = .next tx) :
    { t with prbs := s.prbs } = tx := by
  obtain ⟨hz, rfl⟩ | ⟨z, hz, rfl⟩ := onNzDraw_cases h
  · cases (onNz_none hz).symm.trans hx
    rfl
  · cases (onNz_some hz).symm.trans hx
    rfl

/-- `PRBS` makes its shifts where the element exists, whatever is done with the draw. -/
theorem onNzDraw_prbs {n : BitVec 8} {f : Word → NzUnit → NzUnit × Word} {s t : State}
    (h : onNzDraw n f s = .next t) :
    t.prbs = if n.toNat < s.nz.length then prbsNext s.prbs else s.prbs := by
  obtain ⟨hz, rfl⟩ | ⟨z, hz, rfl⟩ := onNzDraw_cases h
  · rw [if_neg (List.getElem?_eq_none_iff.1 hz).not_gt, raiseIllegal_prbs]
  · rw [if_pos (List.getElem?_eq_some_iff.1 hz).1, respond_prbs]

/-- Settles O46. -/
theorem storageBoundEqualsSuppliedDraw : Obligations.StorageBoundEqualsSuppliedDraw :=
  fun _ _ _ _ _ _ h1 h2 hx1 hx2 =>
    ⟨onNzDraw_eq_onNz_but_prbs h1 hx1, onNzDraw_eq_onNz_but_prbs h2 hx2,
      (onNzDraw_prbs h1).trans (onNzDraw_prbs h2).symm⟩

/-! ### The ends of the correlation (R242) -/

/-- With `rho = 1.0` the coefficient of the draw is `+0`, and the blend is the history. -/
theorem blend1_of_rho_one {x h1 rho : Word} (hx : IsFinite x) (hh1 : IsFinite h1) (hrho : rho = one)
    (hne : value h1 ≠ 0) : blend1 x h1 rho = h1 := by
  rw [blend1, hrho, show fsub one one = posZero by decide, fadd_fmul_zero_fmul_one hh1 hne hx]

/-- With `rho = +0` the coefficient of the draw is `1.0`, and the blend is the draw. -/
theorem blend1_of_rho_zero {x h1 rho : Word} (hx : IsFinite x) (hh1 : IsFinite h1)
    (hrho : rho = posZero) (hne : value x ≠ 0) : blend1 x h1 rho = x := by
  rw [blend1, hrho, show fsub one posZero = one by decide, fadd_fmul_one_fmul_zero hx hne hh1]

/-- What `nz.step1x` does where the value of its blend is known. -/
theorem exec_nzStep1x_of_blend1 {n : BitVec 8} {s : State} {z : NzUnit} {x y : Word}
    (hz : s.nz[n.toNat]? = some z) (hy : blend1 x z.h1 z.rho = y) :
    exec (.nzStep1x n x) s =
      .next (answered { s with nz := s.nz.set n.toNat { z with h1 := y } } y) := by
  subst hy
  exact onNz_some hz

/-- Settles O45, by the value of the blend; at `rho = 1.0` the element is set to what it was. -/
theorem noiseAtTheEndsOfCorrelation : Obligations.NoiseAtTheEndsOfCorrelation := by
  intro n s z x hz hx hh1
  constructor
  · intro hrho hne
    have hstep := exec_nzStep1x_of_blend1 hz (blend1_of_rho_one hx hh1 hrho hne)
    rwa [set_eq_self_of_getElem? hz] at hstep
  · intro hrho hne
    exact exec_nzStep1x_of_blend1 hz (blend1_of_rho_zero hx hh1 hrho hne)

end Sys2Proof.Machine
end

-- The statements of `spec/47_numeric_guards.md`.
section
/-! PROOFS. O36 and O37. The commands are rows of the opcode map (`globalCommand_intro`); each keeps the
state and answers the model's function for its rule, whose constants are the words of R129. -/

namespace Sys2Proof.Machine

open Sys2Proof.Claim

/-- Settles O36: three rows of the opcode map, answering `flush`, `clamp01` and `clamp1bp`. -/
theorem flushAndClampCommands : Obligations.FlushAndClampCommands := by
  refine ⟨?flush, ?clamp01, ?clamp1bp⟩
  case flush => exact globalCommand_intro (eff := fun x s => (s, flush x)) (fun _ _ => rfl) fun _ _ => rfl
  case clamp01 =>
    exact globalCommand_intro (eff := fun x s => (s, clamp01 x)) (fun _ _ => rfl) fun _ _ => rfl
  case clamp1bp =>
    exact globalCommand_intro (eff := fun x s => (s, clamp1bp x)) (fun _ _ => rfl) fun _ _ => rfl

/-- Settles O37: two rows of the opcode map; `tanhFast` takes TANH_A from the block. -/
theorem tanhCommands : Obligations.TanhCommands := by
  refine ⟨?tanhf, ?tanhp⟩
  case tanhf =>
    exact globalCommand_intro (eff := fun x s => (s, tanhFast s.tanhA x)) (fun _ _ => rfl) fun _ _ => rfl
  case tanhp =>
    exact globalCommand_intro (eff := fun x s => (s, tanhPoly x)) (fun _ _ => rfl) fun _ _ => rfl

end Sys2Proof.Machine
end

-- The statements of `spec/60_exceptions.md`.
section
/-! PROOFS. O7 and O8. A step at a command is `runCommand` with the action taken off; it always completes
and answers (`step_command`), and its one outcome for an illegal pair is `raiseIllegal`
(`runCommand_of_illegal`). The four clauses of R90 meet the decode procedure of R91 through O3. -/

namespace Sys2Proof.Machine

open Sys2Proof.Claim

/-- The clauses of R90 hold of exactly the pairs that the decode procedure of R91 does not accept. -/
theorem isIllegal_iff_forall_decodeFor_ne {c : Counts} {cmd : Word} (arg : Word) :
    isIllegal c cmd = true ↔ ∀ i, decodeFor c cmd arg ≠ .ok i := by
  obtain ⟨hlegal, -⟩ := legalExactlyByTheFourClauses c cmd arg
  rw [← not_exists, hlegal, Bool.not_eq_false]

/-- Settles O7: the step at a command completes with one response, whose `ERR` is the command's
illegality. -/
theorem everyCommandGetsOneResponse : Obligations.EveryCommandGetsOneResponse := by
  intro s cmd arg rest hinputs
  obtain ⟨t, r, hstep, hrest, -, hresponses, herr, -⟩ := step_command hinputs
  refine ⟨t, r, hstep, hrest, hresponses, ?_⟩
  rw [herr, isIllegal_iff_forall_decodeFor_ne arg]

/-- Settles O8: the step is `raiseIllegal` at the state with the action taken off. -/
theorem illegalCommandEffect : Obligations.IllegalCommandEffect := by
  intro s cmd arg rest hinputs hillegal
  have hrun := runCommand_of_illegal (s := { s with inputs := rest }) hillegal arg
  rw [step_cons hinputs, hostAct_command, hrun]
  rfl

end Sys2Proof.Machine
end
